-- ==== Sys2Proof/Word.lean ====
section
/-!
DEFINITION. The word types of the block: bytes of `IN` and `OUT`, and the 32-bit quantities of `LEN_W` (R7, R36, R37).
-/

namespace Sys2Proof

/-- One byte of `IN` or of `OUT` (R36, R37: "8-bit bytes"). -/
abbrev Byte := BitVec 8

/-- `LEN_W = 32`: a cursor, a size, a count, a flag word (R7, R9). -/
abbrev Word := BitVec 32

end Sys2Proof
end

