-- ==== Sys2Proof/Config.lean ====
section
/-!
DEFINITION. The parameters the spec fixes (R7 to R12).

No free value stands here. `alloc_ok` (R13), the spec's one OPEN parameter, is a host-driven input (R34) whose answer
for the current call is plain data in `State` (`allocOk`), so every claim over all states holds for every answer.
`COMPACT_THRESHOLD` (R11) is not tested by the decoder and has no constant.
-/

namespace Sys2Proof

/-- `HDR_MIN`: the shortest input that has a header (R10). -/
abbrev Config.headerMin : Nat := 3

/-- `HLEN_COMPACT` (R10). -/
abbrev Config.compactLength : Nat := 3

/-- `HLEN_EXTENDED` (R10). -/
abbrev Config.extendedLength : Nat := 9

/-- `FLAGS_PER_WORD`: all 32 bits of a flag word are flags (R9). -/
abbrev Config.flagsPerWord : Nat := 32

/-- The length of an `M1` or `M2A` match, the minimum match length (R12, R88, R89). -/
abbrev Config.minMatch : Nat := 3

/-- The maximum match length (R12, R93). -/
abbrev Config.maxMatch : Nat := 33

/-- The maximum match distance, `2^17 - 1` (R12, R93). -/
abbrev Config.maxDistance : Nat := 131071

/-- The number of different values of `in_len`: an input of this many bytes or more is not presentable (R7, R270). -/
abbrev Config.inputLimit : Nat := 4294967296

end Sys2Proof
end

