-- ==== Sys2Proof/Syntax.lean ====
section
/-!
DEFINITION. The items of the compressed buffer: one constructor per row of spec/opcode_table.json (R80, R96).

The literal bytes of a run are data, not fields: the run's count field is the instruction, and the bytes stay in `IN`,
where the literal copy steps read them through `RD` (R66, R153).
-/

namespace Sys2Proof

/-- One item: a header, a flag word, a literal run's count field, or a match token (R80). -/
inductive Instr where
  /-- `HDR.C`, the compact header: control byte, `DLEN`, `PLEN` (R82). -/
  | hdrC (ctrl dlen plen : BitVec 8)
  /-- `HDR.X`, the extended header: control byte, 32-bit `DLEN`, 32-bit `PLEN` (R83). -/
  | hdrX (ctrl : BitVec 8) (dlen plen : BitVec 32)
  /-- `FLAGW`: bit `k` is the flag of the `k`-th token that follows (R84). -/
  | flagw (flags : BitVec 32)
  /-- `LIT.S`: the short count, 1 to 255 (R86). -/
  | litS (n : BitVec 8)
  /-- `LIT.L`: the 32-bit count that follows the sentinel `0x00`; 0 is reserved (R87, R94). -/
  | litL (n : BitVec 32)
  /-- `M1`: 6-bit distance, length 3 (R88). -/
  | m1 (d : BitVec 6)
  /-- `M2A`: 14-bit distance, length 3 (R89). -/
  | m2a (d : BitVec 14)
  /-- `M2B`: 4-bit length field, 10-bit distance (R90). -/
  | m2b (l : BitVec 4) (d : BitVec 10)
  /-- `M3.RSVD`: the reserved pattern, an `M3` with length field 0; its other 17 bits have no meaning (R94, R172). -/
  | m3Rsvd (d : BitVec 17)
  /-- `M3`: 5-bit length field, not 0, and 17-bit distance (R91). -/
  | m3 (l : BitVec 5) (d : BitVec 17)
  deriving DecidableEq, Repr

end Sys2Proof
end

