-- ==== Sys2Proof/WellFormed.lean ====
section
/-!
DEFINITION. Which items have an encoding of their own form (R80, R82, R83, R86, R91).

A distance of 0 and a long count of 0 are well formed: the bits decode to the form, and the form's meaning raises
`StreamCorruption` (R94, R151, R170).
-/

namespace Sys2Proof

/-- The item has an encoding that decodes to it. -/
def Instr.WellFormed : Instr → Bool
  | .hdrC ctrl _ _ => !ctrl.getLsbD 1        -- R82: `EXT` is 0
  | .hdrX ctrl _ _ => ctrl.getLsbD 1         -- R83: `EXT` is 1
  | .flagw _ => true
  | .litS n => n != 0#8                      -- R86: `0x00` is the sentinel
  | .litL _ => true
  | .m1 _ => true
  | .m2a _ => true
  | .m2b _ _ => true
  | .m3Rsvd _ => true
  | .m3 l _ => l != 0#5                      -- R91: `L = 0` is the reserved pattern

end Sys2Proof
end

