-- ==== Sys2Proof/Decode.lean ====
section
/-!
DEFINITION. The decoder and the encoder of the compressed buffer's items (R80 to R97).

The same byte can begin several forms; position, the flag count and the consumed flag bit say which family is due
(R81). `Context` is that knowledge, and the decoder takes it as an argument.
-/

namespace Sys2Proof

/-- What the decoder knows before it looks at an item's bytes: position, state or the consumed flag bit (R81). -/
inductive Context where
  /-- index 0 of the buffer: a header is due -/
  | header
  /-- a token is due and `FCNT = 0`: a flag word is due -/
  | flagWord
  /-- the consumed flag bit was 0: a literal run is due -/
  | literal
  /-- the consumed flag bit was 1: a match token is due -/
  | backref
  deriving DecidableEq, Repr

/-- Why bytes are no item: in every family, only because there are too few of them (R94: every other byte value
decodes to a form). The cause numbers are those of R224. -/
inductive DecodeError where
  /-- fewer than 3 bytes of header (R113, first line) -/
  | headerCut
  /-- an extended header of fewer than 9 bytes (R113, second line) -/
  | extendedHeaderCut
  /-- fewer than 4 bytes of flag word (cause 1) -/
  | flagWordCut
  /-- no count byte (cause 2) -/
  | literalAbsent
  /-- a long count cut short (cause 3) -/
  | longCountCut
  /-- no first byte of a match (cause 7) -/
  | matchAbsent
  /-- a match token cut short (cause 8) -/
  | matchCut
  deriving DecidableEq, Repr

/-! ## Byte order (R17, R51, R52) -/

/-- `LE16`: the first byte is the low one. -/
def le16 (b0 b1 : Byte) : BitVec 16 := b1 ++ b0

/-- `LE24`. -/
def le24 (b0 b1 b2 : Byte) : BitVec 24 := b2 ++ (b1 ++ b0)

/-- `LE32`. -/
def le32 (b0 b1 b2 b3 : Byte) : BitVec 32 := b3 ++ (b2 ++ (b1 ++ b0))

/-- Byte `k` of a value, counted from the least significant. -/
def byteAt {n : Nat} (v : BitVec n) (k : Nat) : Byte := v.extractLsb' (8 * k) 8

/-! ## Fields of the first byte (R82, R83, R165) -/

/-- `EXT`, bit 1 of the control byte (R30, R110). -/
def extBit (ctrl : Byte) : Bool := ctrl.getLsbD 1

/-- `sel := b0[1:0]`, the match form selector (R165). -/
def selector (b0 : Byte) : BitVec 2 := b0.extractLsb' 0 2

/-- The bytes that must be there before a first byte is looked at (R113, R132, R150, R165). -/
def firstWidth : Context → Nat
  | .header => Config.headerMin
  | .flagWord => 4
  | .literal => 1
  | .backref => 1

/-- The bytes of the whole item, from its first byte: the source's tagged decision (R81, R92, R113, R151, R165). -/
def itemWidth : Context → Byte → Nat
  | .header, b0 => if extBit b0 then Config.extendedLength else Config.compactLength
  | .flagWord, _ => 4
  | .literal, b0 => if b0 = 0#8 then 5 else 1
  | .backref, b0 =>
    if selector b0 = 0#2 then 1
    else if selector b0 = 1#2 then 2
    else if selector b0 = 2#2 then 2
    else 3

/-! ## The decoder -/

/-- Headers (R82, R83, R110). -/
def decodeHeader : List Byte → Except DecodeError (Instr × List Byte)
  | b0 :: b1 :: b2 :: rest =>
    if extBit b0 then
      match rest with
      | b3 :: b4 :: b5 :: b6 :: b7 :: b8 :: rest' =>
        .ok (.hdrX b0 (le32 b1 b2 b3 b4) (le32 b5 b6 b7 b8), rest')
      | _ => .error .extendedHeaderCut
    else .ok (.hdrC b0 b1 b2, rest)
  | _ => .error .headerCut

/-- Flag words (R84). -/
def decodeFlagWord : List Byte → Except DecodeError (Instr × List Byte)
  | b0 :: b1 :: b2 :: b3 :: rest => .ok (.flagw (le32 b0 b1 b2 b3), rest)
  | _ => .error .flagWordCut

/-- Literal-run count fields (R86, R87). -/
def decodeLiteral : List Byte → Except DecodeError (Instr × List Byte)
  | [] => .error .literalAbsent
  | b0 :: rest =>
    if b0 = 0#8 then
      match rest with
      | b1 :: b2 :: b3 :: b4 :: rest' => .ok (.litL (le32 b1 b2 b3 b4), rest')
      | _ => .error .longCountCut
    else .ok (.litS b0, rest)

/-- The 3-byte match forms, `v = LE24`: `v[6:2] = 0` is the reserved pattern (R91, R94). -/
def decodeM3 (v : BitVec 24) : Instr :=
  if v.extractLsb' 2 5 = 0#5 then .m3Rsvd (v.extractLsb' 7 17)
  else .m3 (v.extractLsb' 2 5) (v.extractLsb' 7 17)

/-- Match tokens, by the selector in the first byte (R88 to R91, R165). -/
def decodeMatch : List Byte → Except DecodeError (Instr × List Byte)
  | [] => .error .matchAbsent
  | b0 :: rest =>
    if selector b0 = 0#2 then .ok (.m1 (b0.extractLsb' 2 6), rest)
    else if selector b0 = 1#2 then
      match rest with
      | b1 :: rest' => .ok (.m2a ((le16 b0 b1).extractLsb' 2 14), rest')
      | _ => .error .matchCut
    else if selector b0 = 2#2 then
      match rest with
      | b1 :: rest' => .ok (.m2b ((le16 b0 b1).extractLsb' 2 4) ((le16 b0 b1).extractLsb' 6 10), rest')
      | _ => .error .matchCut
    else
      match rest with
      | b1 :: b2 :: rest' => .ok (decodeM3 (le24 b0 b1 b2), rest')
      | _ => .error .matchCut

/-- The decoder: the item that is due at the head of `bs`, and the bytes after it (R81, R96). -/
def decode : Context → List Byte → Except DecodeError (Instr × List Byte)
  | .header => decodeHeader
  | .flagWord => decodeFlagWord
  | .literal => decodeLiteral
  | .backref => decodeMatch

/-! ## The encoder, from the same tables -/

/-- The four bytes of a 32-bit value, least significant first. -/
def bytes32 (v : BitVec 32) : List Byte := [byteAt v 0, byteAt v 1, byteAt v 2, byteAt v 3]

/-- The two bytes of a 16-bit value, least significant first. -/
def bytes16 (v : BitVec 16) : List Byte := [byteAt v 0, byteAt v 1]

/-- The three bytes of a 24-bit value, least significant first. -/
def bytes24 (v : BitVec 24) : List Byte := [byteAt v 0, byteAt v 1, byteAt v 2]

/-- The bytes of a well-formed item (R82 to R91, R97). -/
def encode : Instr → List Byte
  | .hdrC ctrl dlen plen => [ctrl, dlen, plen]
  | .hdrX ctrl dlen plen => ctrl :: (bytes32 dlen ++ bytes32 plen)
  | .flagw flags => bytes32 flags
  | .litS n => [n]
  | .litL n => 0#8 :: bytes32 n
  | .m1 d => [d ++ 0#2]
  | .m2a d => bytes16 (d ++ 1#2)
  | .m2b l d => bytes16 (d ++ (l ++ 2#2))
  | .m3Rsvd d => bytes24 (d ++ 3#7)
  | .m3 l d => bytes24 (d ++ (l ++ 3#2))

/-- The family an item belongs to: the context that selects it (R80, R81). -/
def contextOf : Instr → Context
  | .hdrC _ _ _ => .header
  | .hdrX _ _ _ => .header
  | .flagw _ => .flagWord
  | .litS _ => .literal
  | .litL _ => .literal
  | .m1 _ => .backref
  | .m2a _ => .backref
  | .m2b _ _ => .backref
  | .m3Rsvd _ => .backref
  | .m3 _ _ => .backref

/-! ## The pseudo-instructions of the stream notation (R97) -/

/-- `LIT`: `LIT.S` for 1 to 255 bytes and `LIT.L` otherwise; none for a run that no count can express. -/
def litItem (n : Nat) : Option Instr :=
  if n = 0 then none
  else if n ≤ 255 then some (.litS (BitVec.ofNat 8 n))
  else if n < Config.inputLimit then some (.litL (BitVec.ofNat 32 n))
  else none

/-- `MATCH d, l`: the first of `M1`, `M2A`, `M2B`, `M3` that can express the pair (R93); none if none can. -/
def matchItem (d l : Nat) : Option Instr :=
  if d = 0 ∨ l < Config.minMatch then none
  else if l = 3 ∧ d ≤ 63 then some (.m1 (BitVec.ofNat 6 d))
  else if l = 3 ∧ d ≤ 16383 then some (.m2a (BitVec.ofNat 14 d))
  else if l ≤ 18 ∧ d ≤ 1023 then some (.m2b (BitVec.ofNat 4 (l - 3)) (BitVec.ofNat 10 d))
  else if l ≤ Config.maxMatch ∧ d ≤ Config.maxDistance then
    some (.m3 (BitVec.ofNat 5 (l - 2)) (BitVec.ofNat 17 d))
  else none

/-! ## A table word read on its own

spec/opcode_table.json gives each row's bits but selects rows by position and state as well as by bits (R81), so a word
alone can fit several rows (`0x00` begins `HDR.C`, `LIT.L` and `M1`). `tableContext` picks the one family whose items
have the word's width: log entry 11. -/

/-- The family a table word is read in, from its width in bits and its lowest two bits. -/
def tableContext (nbits w : Nat) : Context :=
  if nbits ≤ 16 then .backref
  else if nbits ≤ 24 then (if w % 4 = 3 then .backref else .header)
  else if nbits ≤ 32 then .flagWord
  else if nbits ≤ 40 then .literal
  else .header

/-- `n` bytes of `w`, the lowest first: the bytes in the order the buffer holds them. -/
def wordBytes : Nat → Nat → List Byte
  | 0, _ => []
  | n + 1, w => BitVec.ofNat 8 (w % 256) :: wordBytes n (w / 256)

/-- The bits of a table word that count: those below `nbits`; all others are 0. -/
def tableBytes (nbits w : Nat) : List Byte := wordBytes Config.extendedLength (w % 2 ^ nbits)

/-- The item the decoder reads from a table word, its later bytes zero up to the longest item, 9 bytes. -/
def decodeTableWord (nbits w : Nat) : Option Instr :=
  match decode (tableContext nbits w) (tableBytes nbits w) with
  | .ok (i, _) => some i
  | .error _ => none

end Sys2Proof
end

