-- ==== Sys2Proof/Machine/State.lean ====
section
/-!
DEFINITION. The state of one instance of the block (R20) with the parameters of its current call (R34), the error
kinds (R220), the reasons a step can stop, and the state after power-on reset (R41, R260).
-/

namespace Sys2Proof.Machine

/-- A byte-addressed space: (index, byte) pairs in rising order of index. An index that is not listed holds no value
(R38; `IN` lists every index below `in_len`). -/
abbrev Memory := List Host.Cell

/-- `PHASE`, the control state of the agent (R32). -/
inductive Phase where
  | idle | header | sizechk | alloc | loop | flag | litdec | litcopy | matchdec | matchcopy | final | done
  deriving DecidableEq, Repr

/-- The four error kinds (R220). -/
inductive ErrorKind where
  | malformedHeader | sizeMismatch | streamCorruption | allocationFailure
  deriving DecidableEq, Repr

/-- A host command (R34): `start` begins a call (R200), `ack` takes its result (R208). -/
inductive Command where
  | start | ack
  deriving DecidableEq, Repr

/-- Why the machine stops. No step from a state of the call invariant (R42, `Sys2Proof.CallInv`) raises one: each guards
an access or a move to which the spec gives no meaning, in states no call reaches. -/
inductive Fault where
  /-- A read of `IN` at an index that holds no byte (R17, R57). Raised by the fetch of an item and by the literal copy
  step. Safe: the model stops. -/
  | inputByteAbsent
  /-- A copy step while `OUT` does not exist (R37, R41). Raised by both copy steps. Safe. -/
  | outputAbsent
  /-- A write of `OUT` at an index that is not below `DSIZE` (R17, R37). Raised by both copy steps. Safe. -/
  | outputOutOfRange
  /-- A read of `OUT` at an index that this call has not written (R38, R40). Raised by the match copy step. Safe. -/
  | outputUnwritten
  /-- A match copy step whose source index `WR - DIST` lies before `OUT[0]` (R170, R186). Safe. -/
  | sourceBeforeStart
  /-- A copy step with `CNT = 0`: the guard `CNT >= 1` fails and no rule steps from there (R153, R186). Safe. -/
  | copyCountZero
  deriving DecidableEq, Repr

/-- What the model gives no meaning to. -/
inductive Refusal where
  /-- An instruction whose meaning is not written yet. No arm of `exec` answers it now. Safe. -/
  | notModelled (mnemonic : String)
  /-- `start` outside phase `IDLE`: "has no defined effect" (R273). Raised by the host command's step. Safe. -/
  | startOutsideIdle
  /-- `ack` outside phase `DONE`: the host issues it "only in phase `DONE`" (R273). Raised by the host command's step.
  Safe. -/
  | ackOutsideDone
  deriving DecidableEq, Repr

/-- The state of one instance (R20) and the parameters of its call (R20, R34). -/
structure State where
  /-- `RD`, the read cursor, the program counter of the token stream (R21). -/
  rd : BitVec 32
  /-- `WR`, the write cursor (R22). -/
  wr : BitVec 32
  /-- `DSIZE`, the declared decompressed size (R23). -/
  dsize : BitVec 32
  /-- `HLEN`, the header length, 3 or 9 once loaded (R24). -/
  hlen : BitVec 4
  /-- `PLEN`, the payload length field (R24). -/
  plen : BitVec 32
  /-- `CSIZE`, the declared compressed size, 33 bits (R8, R24). -/
  csize : BitVec 33
  /-- `CNT`, the bytes the current token still has to copy (R25). -/
  cnt : BitVec 32
  /-- `DIST`, the distance of the current match (R25). -/
  dist : BitVec 17
  /-- `FW`, the flag-bits register (R26). -/
  fw : BitVec 32
  /-- `FCNT`, the number of unconsumed flag bits, 0 to 32 (R26). -/
  fcnt : BitVec 6
  /-- `CTRL`, a copy of the control byte (R30). -/
  ctrl : BitVec 8
  /-- `STATUS`, the outcome of the last call, meaningful in phase `DONE` (R31). -/
  status : BitVec 3
  /-- `PHASE` (R32). -/
  phase : Phase
  /-- `OUT_LEN`, the length of the output handed over, meaningful in phase `DONE` (R33). -/
  outLen : BitVec 32
  /-- `OUT`: `none` while it does not exist; its listed indices are the written ones (R37, R38). -/
  out : Option Memory
  /-- Call parameter `IN`, the compressed buffer the host presents (R36). -/
  inp : Memory
  /-- Call parameter `in_len` (R34). -/
  inLen : BitVec 32
  /-- Call parameter: the environment's answer to this call's one request, `alloc_ok(DSIZE)` for `DSIZE > 0`
  (R13, R34, R274). -/
  allocOk : Bool
  /-- The host command that is being issued, if any (R34). -/
  cmd : Option Command
  deriving DecidableEq, Repr

/-- The block after power-on reset: phase `IDLE`, `OUT` does not exist (R41, R260). The spec gives nothing else a value. The
other registers hold 0 here, no input is presented (`IN` empty, `in_len` 0, the allocation answer false) and no command is
issued (DESIGN CHOICE, unsafe: log entry 1). -/
def State.reset : State where
  rd := 0
  wr := 0
  dsize := 0
  hlen := 0
  plen := 0
  csize := 0
  cnt := 0
  dist := 0
  fw := 0
  fcnt := 0
  ctrl := 0
  status := 0
  phase := .idle
  outLen := 0
  out := none
  inp := []
  inLen := 0
  allocOk := false
  cmd := none

end Sys2Proof.Machine
end

