-- ==== Sys2Proof/Machine/Ops.lean ====
section
/-!
DEFINITION. The named operations of the machine: memory, access to `IN` and `OUT`, cursor moves, and `raise`, the
block's one exception entry (R17, R18, R240).
-/

namespace Sys2Proof.Machine

/-! ## Memory -/

/-- The canonical form: indices strictly rising. An unlisted index holds no value, so no entry can equal what an
unlisted index reads as. -/
abbrev Memory.wf (m : Memory) : Prop := (m.map Prod.fst).Pairwise (· < ·)

/-- Every index below `n` holds a byte and no other index does. -/
abbrev Memory.filled (m : Memory) (n : Nat) : Prop := m.map Prod.fst = List.range n

/-- The byte at index `a`; none where nothing has been written. -/
def memRead : Memory → Nat → Option Byte
  | [], _ => none
  | (k, v) :: m, a => if k = a then some v else memRead m a

/-- Write byte `b` at index `a`, keeping the canonical form. -/
def memWrite : Memory → Nat → Byte → Memory
  | [], a, b => [(a, b)]
  | (k, v) :: m, a, b =>
    if a < k then (a, b) :: (k, v) :: m
    else if a = k then (a, b) :: m
    else (k, v) :: memWrite m a b

/-- The bytes `bs` laid at indices `a`, `a + 1`, and so on. -/
def memOfBytes : Nat → List Byte → Memory
  | _, [] => []
  | a, b :: bs => (a, b) :: memOfBytes (a + 1) bs

/-! ## Access to the two spaces (R17) -/

/-- `IN[a]`: `IN` has the indices below `in_len` and no others (R36). -/
def readIn (s : State) (a : Nat) : Option Byte :=
  if a < s.inLen.toNat then memRead s.inp a else none

/-- The `n` bytes of `IN` from index `a` on; none where one of them does not exist. -/
def readInRun (s : State) : Nat → Nat → Option (List Byte)
  | _, 0 => some []
  | a, n + 1 =>
    match readIn s a with
    | none => none
    | some b => (readInRun s (a + 1) n).map (b :: ·)

/-- `OUT[a]`: it may be read only for `a < WR` (R17, R40). -/
def readOut (s : State) (a : Nat) : Option Byte :=
  match s.out with
  | none => none
  | some m => if a < s.wr.toNat then memRead m a else none

/-! ## Cursors and phases -/

/-- Continue in phase `p`. -/
def setPhase (p : Phase) (s : State) : State := { s with phase := p }

/-- `RD <- RD + k`. -/
def advance (k : Nat) (s : State) : State := { s with rd := s.rd + BitVec.ofNat 32 k }

/-- Whether fewer than `k` bytes lie between `RD` and `CSIZE`: the test `RD + k > CSIZE`, on naturals (R212). -/
def inputShort (k : Nat) (s : State) : Bool := decide (s.csize.toNat < s.rd.toNat + k)

/-- `CNT <- n; PHASE <- p`: the start of a copy (R152, R171). -/
def beginCopy (n : BitVec 32) (p : Phase) (s : State) : State := { s with cnt := n, phase := p }

/-! ## Errors and the end of a call -/

/-- `STATUS` code 0 (R31). -/
def statusOk : BitVec 3 := 0#3

/-- `code(K)` (R31, R220). -/
def errorCode : ErrorKind → BitVec 3
  | .malformedHeader => 1#3
  | .sizeMismatch => 2#3
  | .streamCorruption => 3#3
  | .allocationFailure => 4#3

/-- `raise K`, the one exception entry: status, no output, phase `DONE`; "nothing else is saved" (R18, R240). -/
def raise (k : ErrorKind) (s : State) : State :=
  { s with status := errorCode k, outLen := 0#32, phase := .done }

/-- The end of a successful call with `n` output bytes (R203, R207). -/
def succeed (n : BitVec 32) (s : State) : State :=
  { s with status := statusOk, outLen := n, phase := .done }

/-- `ack`, the only way out of phase `DONE`, after an error too (R208, R242): the block is ready for an unrelated new
call and keeps no reference to `OUT` (log entry 4). -/
def acknowledge (s : State) : State := { s with phase := .idle, out := none, cmd := none }

/-- The error an item that is cut short raises (R113, R132, R150, R151, R165). -/
def cutKind : Context → ErrorKind
  | .header => .malformedHeader
  | .flagWord => .streamCorruption
  | .literal => .streamCorruption
  | .backref => .streamCorruption

/-! ## Byte moves of the copy phases -/

/-- After one output byte: `WR + 1`, `CNT - 1`, and back to `LOOP` when `CNT` reaches 0 (R153, R186). -/
def byteDone (m : Memory) (s : State) : State :=
  { s with
    out := some m
    wr := s.wr + 1#32
    cnt := s.cnt - 1#32
    phase := if s.cnt - 1#32 = 0#32 then .loop else s.phase }

/-- `OUT[WR] <- b` and the moves after it (R17: `a = WR` and `WR < DSIZE`). -/
def putByte (b : Byte) (s : State) : Host.Outcome State Fault Refusal :=
  match s.out with
  | none => .fault .outputAbsent
  | some m =>
    if s.wr.toNat < s.dsize.toNat then .next (byteDone (memWrite m s.wr.toNat b) s)
    else .fault .outputOutOfRange

end Sys2Proof.Machine
end

