-- ==== Sys2Proof/Machine/Flags.lean ====
section
/-!
DEFINITION. The flag-bits register `FW` with its count `FCNT`: refill and consumption (R26, R132, R133).

The block has no condition codes (R29): a flag is a bit of the stream, consumed once, that selects one token's family.
-/

namespace Sys2Proof.Machine

/-- The refill's writes: `FW <- w; RD <- RD + 4; FCNT <- 32` (R132). -/
def refillFlags (w : BitVec 32) (s : State) : State :=
  { advance 4 s with fw := w, fcnt := BitVec.ofNat 6 Config.flagsPerWord }

/-- The phase a flag bit selects: 0 a literal run, 1 a match (R85, R133). -/
def flagPhase (f : Bool) : Phase := if f then .matchdec else .litdec

/-- Consume `FW[0]` and dispatch on it (R133). -/
def consumeFlag (s : State) : State :=
  { s with fw := s.fw >>> 1, fcnt := s.fcnt - 1#6, phase := flagPhase (s.fw.getLsbD 0) }

end Sys2Proof.Machine
end

