-- ==== Sys2Proof/Machine/FlagWord.lean ====
section
/-!
DEFINITION. The token loop's own rules: the meaning of `FLAGW` (R132) and the loop test (R131).
-/

namespace Sys2Proof.Machine

/-- `FLAGW`, the lazy refill (R132); the phase stays `FLAG`. -/
def execFlagw (flags : BitVec 32) (s : State) : Host.Outcome State Fault Refusal :=
  if inputShort 4 s then .next (raise .streamCorruption s) else .next (refillFlags flags s)

/-- The loop test (R131). -/
def loopTest (s : State) : State := if s.wr = s.dsize then setPhase .final s else setPhase .flag s

end Sys2Proof.Machine
end

