-- ==== Sys2Proof/Machine/Header.lean ====
section
/-!
DEFINITION. The Header Inspector: the meanings of `HDR.C` and `HDR.X` (R110 to R116), and the source's two inspector
functions as functions of the input bytes (R115).
-/

namespace Sys2Proof.Machine

/-- The header's writes: `CTRL`, `HLEN`, `DSIZE`, `PLEN`, `CSIZE <- HLEN + PLEN` in 33 bits, and on to `SIZECHK`
(R8, R110 to R112, R201). -/
def loadHeader (ctrl : BitVec 8) (hlen : BitVec 4) (dsize plen : BitVec 32) (s : State) : State :=
  { s with
    ctrl := ctrl
    hlen := hlen
    dsize := dsize
    plen := plen
    csize := hlen.setWidth 33 + plen.setWidth 33
    phase := .sizechk }

/-- `HDR.C` (R110, R111, R113, R201). -/
def execHdrC (ctrl dlen plen : BitVec 8) (s : State) : Host.Outcome State Fault Refusal :=
  if s.inLen.toNat < Config.headerMin then .next (raise .malformedHeader s)
  else .next (loadHeader ctrl (BitVec.ofNat 4 Config.compactLength) (dlen.setWidth 32) (plen.setWidth 32) s)

/-- `HDR.X` (R110, R112, R113, R201). -/
def execHdrX (ctrl : BitVec 8) (dlen plen : BitVec 32) (s : State) : Host.Outcome State Fault Refusal :=
  if s.inLen.toNat < Config.extendedLength then .next (raise .malformedHeader s)
  else .next (loadHeader ctrl (BitVec.ofNat 4 Config.extendedLength) dlen plen s)

/-- `compressed_size(IN, in_len)`; none where it fails with `MalformedHeader` (R115). -/
def compressedSize : List Byte → Option Nat
  | b0 :: _ :: b2 :: rest =>
    if extBit b0 then
      match rest with
      | _ :: _ :: b5 :: b6 :: b7 :: b8 :: _ => some (Config.extendedLength + (le32 b5 b6 b7 b8).toNat)
      | _ => none
    else some (Config.compactLength + b2.toNat)
  | _ => none

/-- `decompressed_size(IN, in_len)`; none where it fails with `MalformedHeader` (R115). -/
def decompressedSize : List Byte → Option Nat
  | b0 :: b1 :: b2 :: rest =>
    if extBit b0 then
      match rest with
      | b3 :: b4 :: _ :: _ :: _ :: _ :: _ => some (le32 b1 b2 b3 b4).toNat
      | _ => none
    else some b1.toNat
  | _ => none

end Sys2Proof.Machine
end

