-- ==== Sys2Proof/Machine/Operands.lean ====
section
/-!
DEFINITION. Operand assembly and the checks every token makes on its operands (R92, R152, R170, R171).

Counts and lengths are compared with what is left of a buffer, on naturals; nothing is added to a cursor first, so no
count can wrap a comparison (R212).
-/

namespace Sys2Proof.Machine

/-! ## Fields to registers: zero extension and the length biases (R92) -/

/-- `zext_32` of a short count (R150). -/
def shortCount (n : BitVec 8) : BitVec 32 := n.setWidth 32

/-- The length of `M1` and `M2A`: 3 (R88, R89). -/
def fixedLength : BitVec 32 := BitVec.ofNat 32 Config.minMatch

/-- `M2B`: `len := L + 3` (R90, R168). -/
def m2bLength (l : BitVec 4) : BitVec 32 := l.setWidth 32 + 3#32

/-- `M3`: `len := L + 2` (R91, R169). -/
def m3Length (l : BitVec 5) : BitVec 32 := l.setWidth 32 + 2#32

/-- `zext_17` of a distance field (R92). -/
def distanceOf {n : Nat} (d : BitVec n) : BitVec 17 := d.setWidth 17

/-! ## What is left of the buffers -/

/-- `DSIZE - WR`, on naturals (R212). -/
def outputLeft (s : State) : Nat := s.dsize.toNat - s.wr.toNat

/-- `CSIZE - RD`, on naturals (R212). -/
def inputLeft (s : State) : Nat := s.csize.toNat - s.rd.toNat

/-! ## Token checks -/

/-- R152: the bound checks of a literal run and the start of its copy, with `RD` already past the count field. -/
def startLiteral (n : BitVec 32) (s : State) : State :=
  if outputLeft s < n.toNat then raise .streamCorruption s
  else if inputLeft s < n.toNat then raise .streamCorruption s
  else beginCopy n .litcopy s

/-- `DIST <- d`. -/
def setDist (d : BitVec 17) (s : State) : State := { s with dist := d }

/-- R170 and R171: the distance checks, the length check and the start of a match copy, with `RD` and `DIST` already
written. -/
def startMatch (len : BitVec 32) (s : State) : State :=
  if s.dist = 0#17 then raise .streamCorruption s
  else if s.wr.toNat < s.dist.toNat then raise .streamCorruption s
  else if outputLeft s < len.toNat then raise .streamCorruption s
  else beginCopy len .matchcopy s

/-- A match token of `width` bytes with distance `d` and length `len`: R165's width check, the form's writes of `DIST`
and `RD` (R166 to R169), then R170 and R171. -/
def matchToken (width : Nat) (d : BitVec 17) (len : BitVec 32) (s : State) : State :=
  if inputShort width s then raise .streamCorruption s
  else startMatch len (advance width (setDist d s))

end Sys2Proof.Machine
end

