-- ==== Sys2Proof/Machine/Literal.lean ====
section
/-!
DEFINITION. The literal run: the meanings of `LIT.S` and `LIT.L` (R150 to R152) and the literal copy step (R153).
-/

namespace Sys2Proof.Machine

/-- `LIT.S` (R150, R152). -/
def execLitS (n : BitVec 8) (s : State) : Host.Outcome State Fault Refusal :=
  if inputShort 1 s then .next (raise .streamCorruption s)
  else .next (startLiteral (shortCount n) (advance 1 s))

/-- `LIT.L` (R151, R152): a count of 0 is reserved and raises. -/
def execLitL (n : BitVec 32) (s : State) : Host.Outcome State Fault Refusal :=
  if inputShort 5 s then .next (raise .streamCorruption s)
  else if n = 0#32 then .next (raise .streamCorruption (advance 5 s))
  else .next (startLiteral n (advance 5 s))

/-- One step of the literal copy moves one byte: `OUT[WR] <- IN[RD]` (R153). -/
def literalCopyStep (s : State) : Host.Outcome State Fault Refusal :=
  if s.cnt = 0#32 then .fault .copyCountZero
  else
    match readIn s s.rd.toNat with
    | none => .fault .inputByteAbsent
    | some b => putByte b (advance 1 s)

end Sys2Proof.Machine
end

