-- ==== Sys2Proof/Machine/Match.lean ====
section
/-!
DEFINITION. The match token: the meanings of `M1`, `M2A`, `M2B`, `M3` and the reserved pattern (R165 to R173).
-/

namespace Sys2Proof.Machine

/-- `M1` (R166). -/
def execM1 (d : BitVec 6) (s : State) : Host.Outcome State Fault Refusal :=
  .next (matchToken 1 (distanceOf d) fixedLength s)

/-- `M2A` (R167). -/
def execM2a (d : BitVec 14) (s : State) : Host.Outcome State Fault Refusal :=
  .next (matchToken 2 (distanceOf d) fixedLength s)

/-- `M2B` (R168). -/
def execM2b (l : BitVec 4) (d : BitVec 10) (s : State) : Host.Outcome State Fault Refusal :=
  .next (matchToken 2 (distanceOf d) (m2bLength l) s)

/-- `M3.RSVD` (R172): it raises, whatever its other bits and before or after the width check (R173). -/
def execM3Rsvd (_d : BitVec 17) (s : State) : Host.Outcome State Fault Refusal :=
  .next (raise .streamCorruption s)

/-- `M3` (R169); a length field of 0, which no `M3` encoding has, goes the way of R172. -/
def execM3 (l : BitVec 5) (d : BitVec 17) (s : State) : Host.Outcome State Fault Refusal :=
  if l = 0#5 then .next (raise .streamCorruption s)
  else .next (matchToken 3 d (m3Length l) s)

end Sys2Proof.Machine
end

