-- ==== Sys2Proof/Machine/Dispatch.lean ====
section
/-!
DEFINITION. One arm per item form. `exec` does not test the phase: the step runs an item only where its family is due.
-/

namespace Sys2Proof.Machine

def exec (i : Instr) (s : State) : Host.Outcome State Fault Refusal :=
  match i with
  | .hdrC ctrl dlen plen => Sys2Proof.Machine.execHdrC ctrl dlen plen s
  | .hdrX ctrl dlen plen => Sys2Proof.Machine.execHdrX ctrl dlen plen s
  | .flagw flags => Sys2Proof.Machine.execFlagw flags s
  | .litS n => Sys2Proof.Machine.execLitS n s
  | .litL n => Sys2Proof.Machine.execLitL n s
  | .m1 d => Sys2Proof.Machine.execM1 d s
  | .m2a d => Sys2Proof.Machine.execM2a d s
  | .m2b l d => Sys2Proof.Machine.execM2b l d s
  | .m3Rsvd d => Sys2Proof.Machine.execM3Rsvd d s
  | .m3 l d => Sys2Proof.Machine.execM3 l d s

end Sys2Proof.Machine
end

