-- ==== Sys2Proof/Machine/Copy.lean ====
section
/-!
DEFINITION. The match copy engine: one byte a step, in increasing index order (R185 to R189).
-/

namespace Sys2Proof.Machine

/-- One step of the match copy: `OUT[WR] <- OUT[WR - DIST]` (R186). The read sees every earlier step's write (R62). -/
def matchCopyStep (s : State) : Host.Outcome State Fault Refusal :=
  if s.cnt = 0#32 then .fault .copyCountZero
  else if s.wr.toNat < s.dist.toNat then .fault .sourceBeforeStart
  else
    match s.out, readOut s (s.wr.toNat - s.dist.toNat) with
    | none, _ => .fault .outputAbsent
    | some _, none => .fault .outputUnwritten
    | some _, some b => putByte b s

end Sys2Proof.Machine
end

