-- ==== Sys2Proof/Machine/Fetch.lean ====
section
/-!
DEFINITION. Finding the item that is due: which bytes of `IN` it lies in, whether it is whole, and its decoding
(R81, R113, R132, R150, R151, R165). Only an item's own bytes are read, each after the check that covers it (R282).
-/

namespace Sys2Proof.Machine

/-- What stands at the cursor: an item to run, or the outcome of a step that runs none. -/
inductive Action where
  | run (i : Instr)
  | answer (o : Host.Outcome State Fault Refusal)

/-- The index of the first byte of an item: the header is at 0, every other item at `RD` (R58, R21). -/
def itemStart (c : Context) (s : State) : Nat :=
  match c with
  | .header => 0
  | _ => s.rd.toNat

/-- The end of what may be read: `in_len` for the header, whose `CSIZE` is not known yet, `CSIZE` afterwards
(R113, R17). -/
def readLimit (c : Context) (s : State) : Nat :=
  match c with
  | .header => s.inLen.toNat
  | _ => s.csize.toNat

/-- The phase in which an item of the family is due (R32). -/
def duePhase : Context → Phase
  | .header => .header
  | .flagWord => .flag
  | .literal => .litdec
  | .backref => .matchdec

/-- Decode a whole item's bytes; a form cut short raises its family's error. -/
def decodeWhole (c : Context) (bs : List Byte) (s : State) : Action :=
  match decode c bs with
  | .ok (i, _) => .run i
  | .error _ => .answer (.next (raise (cutKind c) s))

/-- The item of family `c` that is due: the check for the first byte, the first byte, the check for the whole item, and
its bytes, in that order. -/
def fetch (c : Context) (s : State) : Action :=
  if readLimit c s < itemStart c s + firstWidth c then .answer (.next (raise (cutKind c) s))
  else
    match readIn s (itemStart c s) with
    | none => .answer (.fault .inputByteAbsent)
    | some b0 =>
      if readLimit c s < itemStart c s + itemWidth c b0 then .answer (.next (raise (cutKind c) s))
      else
        match readInRun s (itemStart c s) (itemWidth c b0) with
        | none => .answer (.fault .inputByteAbsent)
        | some bs => decodeWhole c bs s

/-- A call in progress on a buffer that is exactly `bytes`, with an item of family `c` due at index 0: what a host's
launch and the steps before that item would have set, as far as the fetch looks at it (log entry 11). -/
def presentItem (c : Context) (bytes : List Byte) (s : State) : State :=
  { s with
    inp := memOfBytes 0 bytes
    inLen := BitVec.ofNat 32 bytes.length
    csize := BitVec.ofNat 33 bytes.length
    rd := 0#32
    fcnt := if c = .flagWord then 0#6 else s.fcnt
    phase := duePhase c
    cmd := none }

end Sys2Proof.Machine
end

