-- ==== Sys2Proof/Machine/Entry.lean ====
section
/-!
DEFINITION. The Decode Entry Point: the host commands and the five steps of a call (R200 to R208), and what each phase
does (R32).
-/

namespace Sys2Proof.Machine

/-! ## Host commands (R34) -/

/-- The host presents the whole buffer and issues `start` (R200, R270): only in phase `IDLE` (R273), and only a buffer
of at most `2^32 - 1` bytes (R7). `granted` is the environment's answer to this call's request, `alloc_ok(DSIZE)`. -/
def launch (bytes : List Byte) (granted : Bool) (s : State) : Option State :=
  if s.phase = .idle ∧ s.cmd = none ∧ bytes.length < Config.inputLimit then
    some { s with
      inp := memOfBytes 0 bytes
      inLen := BitVec.ofNat 32 bytes.length
      allocOk := granted
      cmd := some .start }
  else none

/-- The host issues `ack`: only in phase `DONE` (R208, R273). -/
def issueAck (s : State) : Option State :=
  if s.phase = .done ∧ s.cmd = none then some { s with cmd := some .ack } else none

/-- `PHASE <- HEADER` (R200); the command is taken. -/
def beginCall (s : State) : State := { s with phase := .header, cmd := none }

/-- A command in its phase has its effect (R200, R208); elsewhere it has no meaning and is refused (R273). -/
def hostCommand (c : Command) (s : State) : Host.Outcome State Fault Refusal :=
  match c with
  | .start => if s.phase = .idle then .next (beginCall s) else .refused .startOutsideIdle
  | .ack => if s.phase = .done then .next (acknowledge s) else .refused .ackOutsideDone

/-! ## The steps of the call -/

/-- Step 2: `CSIZE` against `in_len`, as naturals (R202). -/
def sizeCheck (s : State) : State :=
  if s.csize.toNat = s.inLen.toNat then setPhase .alloc s else raise .sizeMismatch s

/-- `alloc_ok(DSIZE)`, with `alloc_ok(0)` true (R13, R203). -/
def allocGranted (s : State) : Bool := s.allocOk || decide (s.dsize = 0#32)

/-- `OUT` comes into being with no byte written (R37, R38, R203). -/
def createOutput (s : State) : State := { s with out := some [] }

/-- Entry to the token loop (R204). -/
def enterLoop (s : State) : State :=
  { s with rd := s.hlen.setWidth 32, wr := 0#32, fcnt := 0#6, phase := .loop }

/-- Step 3: the allocation, the zero-length short-circuit, and entry to the loop (R203, R204). -/
def allocate (s : State) : State :=
  if allocGranted s then
    if s.dsize = 0#32 then succeed 0#32 (createOutput s) else enterLoop (createOutput s)
  else raise .allocationFailure s

/-- Step 5: exactly the declared input was consumed (R205 to R207). -/
def finalCheck (s : State) : State :=
  if s.rd.toNat = s.csize.toNat then succeed s.dsize s else raise .streamCorruption s

/-! ## What each phase does -/

/-- The move of the agent with no command pending (R32). In `IDLE` and `DONE` the block waits for the host: the state
stays as it is (log entry 6). -/
def phaseAction (s : State) : Action :=
  match s.phase with
  | .idle => .answer (.next s)
  | .header => fetch .header s
  | .sizechk => .answer (.next (sizeCheck s))
  | .alloc => .answer (.next (allocate s))
  | .loop => .answer (.next (loopTest s))
  | .flag => if s.fcnt = 0#6 then fetch .flagWord s else .answer (.next (consumeFlag s))
  | .litdec => fetch .literal s
  | .litcopy => .answer (literalCopyStep s)
  | .matchdec => fetch .backref s
  | .matchcopy => .answer (matchCopyStep s)
  | .final => .answer (.next (finalCheck s))
  | .done => .answer (.next s)

/-- The move of the agent: a pending host command first. -/
def action (s : State) : Action :=
  match s.cmd with
  | some c => .answer (hostCommand c s)
  | none => phaseAction s

end Sys2Proof.Machine
end

