-- ==== Sys2Proof/Machine/Step.lean ====
section
/-!
DEFINITION. One step of the machine (R19, D2): one atomic transition of the single agent.
-/

namespace Sys2Proof.Machine

/-- One step: run the item that is due, or make the phase's own move. -/
def step (s : State) : Host.Outcome State Fault Refusal :=
  match action s with
  | .run i => exec i s
  | .answer o => o

/-- The state in which the very next step fetches and runs the item of a table word: a call has been started on a
buffer that holds it at index 0, and its family is due there (log entry 11). -/
def State.withFetchWord (s : State) (nbits w : Nat) : State :=
  presentItem (tableContext nbits w) (tableBytes nbits w) s

end Sys2Proof.Machine
end

