-- ==== Sys2Proof/Machine/BigStep.lean ====
section
/-!
DEFINITION. The whole call as one function on byte lists and natural numbers, as R210 gives it: the definition the step
machine refines. It shares no decoding with `Sys2Proof.decode`: fields are quotients and remainders here (R212: "a
model may use unbounded naturals throughout").

`none` is "no result": the token bound ran out, or a copy read a byte that does not exist. Neither can happen.
-/

namespace Sys2Proof.Machine

/-- The little-endian value of bytes: the sum of `IN[a+i] * 2^(8*i)` (R17). -/
def leNat : List Byte → Nat
  | [] => 0
  | b :: bs => b.toNat + 256 * leNat bs

/-- `MemRead(IN, a, n)`, where `a + n` is within the buffer (R17). -/
def readLe (inp : List Byte) (a n : Nat) : Option Nat :=
  if a + n ≤ inp.length then some (leNat ((inp.drop a).take n)) else none

/-- `w := [1, 2, 2, 3][sel]` (R165, R210). -/
def matchWidth (b0 : Nat) : Nat :=
  if b0 % 4 = 0 then 1 else if b0 % 4 = 1 then 2 else if b0 % 4 = 2 then 2 else 3

/-- `(dist, len)` of a match token's value `v`; none for the reserved pattern (R166 to R169, R172, R210). -/
def matchFields (v : Nat) : Option (Nat × Nat) :=
  if v % 4 = 0 then some (v / 4 % 64, 3)
  else if v % 4 = 1 then some (v / 4 % 16384, 3)
  else if v % 4 = 2 then some (v / 64 % 1024, v / 4 % 16 + 3)
  else if v / 4 % 32 = 0 then none
  else some (v / 128 % 131072, v / 4 % 32 + 2)

/-- One byte at a time: `out := out ++ [ out[length(out) - dist] ]` (R186, R210). -/
def copyBack (dist : Nat) : Nat → List Byte → Option (List Byte)
  | 0, out => some out
  | n + 1, out =>
    match out[out.length - dist]? with
    | none => none
    | some b => copyBack dist n (out ++ [b])

/-- The flag word and cursor after a refill, if one is due (R132, R210): `(fw, rd, fcnt)`. -/
def refillIfEmpty (inp : List Byte) (rd fw fcnt : Nat) : Option (Nat × Nat × Nat) :=
  if fcnt = 0 then (readLe inp rd 4).map (fun w => (w, rd + 4, 32)) else some (fw, rd, fcnt)

/-- The count and the cursor after the count field of a literal run; none where the stream is corrupt (R150, R151). -/
def literalCount (inp : List Byte) (rd : Nat) : Option (Nat × Nat) :=
  match readLe inp rd 1 with
  | none => none
  | some 0 => (readLe inp (rd + 1) 4).bind (fun n => if n = 0 then none else some (n, rd + 5))
  | some n => some (n, rd + 1)

/-- `literal(rd, out, ..)` of R210: the cursor and the output after the run. -/
def literalRun (inp : List Byte) (dsize rd : Nat) (out : List Byte) : Except ErrorKind (Nat × List Byte) :=
  match literalCount inp rd with
  | none => .error .streamCorruption
  | some (n, rd') =>
    if dsize - out.length < n ∨ inp.length - rd' < n then .error .streamCorruption
    else .ok (rd' + n, out ++ (inp.drop rd').take n)

/-- The distance, the length and the cursor after a match token; none where the stream is corrupt (R165 to R172). -/
def matchOperands (inp : List Byte) (rd : Nat) : Option (Nat × Nat × Nat) :=
  (readLe inp rd 1).bind (fun b0 =>
    (readLe inp rd (matchWidth b0)).bind (fun v =>
      (matchFields v).map (fun f => (f.1, f.2, rd + matchWidth b0))))

/-- `match(rd, out, ..)` of R210. -/
def matchRun (inp : List Byte) (dsize rd : Nat) (out : List Byte) : Option (Except ErrorKind (Nat × List Byte)) :=
  match matchOperands inp rd with
  | none => some (.error .streamCorruption)
  | some (dist, len, rd') =>
    if dist = 0 ∨ out.length < dist ∨ dsize - out.length < len then some (.error .streamCorruption)
    else (copyBack dist len out).map (fun out' => .ok (rd', out'))

/-- One token, by its flag bit (R85, R210). -/
def tokenRun (flag : Nat) (inp : List Byte) (dsize rd : Nat) (out : List Byte) :
    Option (Except ErrorKind (Nat × List Byte)) :=
  if flag = 0 then some (literalRun inp dsize rd out) else matchRun inp dsize rd out

/-- `loop(rd, out, fw, fcnt)` of R210, for at most `fuel` passes (R135: at most one a payload byte, and the last). -/
def decodeLoop (inp : List Byte) (dsize : Nat) :
    Nat → Nat → List Byte → Nat → Nat → Option (Except ErrorKind (List Byte))
  | 0, _, _, _, _ => none
  | fuel + 1, rd, out, fw, fcnt =>
    if out.length = dsize then
      some (if rd = inp.length then .ok out else .error .streamCorruption)
    else
      match refillIfEmpty inp rd fw fcnt with
      | none => some (.error .streamCorruption)
      | some (fw', rd', fcnt') =>
        match tokenRun (fw' % 2) inp dsize rd' out with
        | none => none
        | some (.error k) => some (.error k)
        | some (.ok (rd'', out')) => decodeLoop inp dsize fuel rd'' out' (fw' / 2) (fcnt' - 1)

/-- `(hlen, dsize, plen)`; none for a malformed header (R210, R113). -/
def headerFields (inp : List Byte) : Option (Nat × Nat × Nat) :=
  if inp.length < 3 then none
  else
    (readLe inp 0 1).bind (fun ctrl =>
      if ctrl / 2 % 2 = 0 then
        (readLe inp 1 1).bind (fun d => (readLe inp 2 1).map (fun p => (3, d, p)))
      else if inp.length < 9 then none
      else (readLe inp 1 4).bind (fun d => (readLe inp 5 4).map (fun p => (9, d, p))))

/-- `decode(IN, in_len, alloc_ok)` of R210. -/
def decodeCall (inp : List Byte) (allocOk : Nat → Bool) : Option (Except ErrorKind (List Byte)) :=
  match headerFields inp with
  | none => some (.error .malformedHeader)
  | some (hlen, dsize, plen) =>
    if hlen + plen ≠ inp.length then some (.error .sizeMismatch)
    else if allocOk dsize = false then some (.error .allocationFailure)
    else if dsize = 0 then some (.ok [])
    else decodeLoop inp dsize (inp.length + 1) hlen [] 0 0

end Sys2Proof.Machine
end

