-- ==== Sys2Proof/Machine/HostView.lean ====
section
/-!
DEFINITION. What the host can read of the block (R31, R33, R34, R262). `OUT` is handed over on success only; after an
error its contents and the working registers are not observable (R240).
-/

namespace Sys2Proof.Machine

/-- The `n` bytes of a space from index `a` on; none where one of them holds no value. -/
def memReadRun (m : Memory) : Nat → Nat → Option (List Byte)
  | _, 0 => some []
  | a, n + 1 =>
    match memRead m a with
    | none => none
    | some b => (memReadRun m (a + 1) n).map (b :: ·)

/-- `STATUS`, valid in phase `DONE` only (R31, R262). -/
def hostStatus (s : State) : Option (BitVec 3) := if s.phase = .done then some s.status else none

/-- `OUT_LEN`, valid in phase `DONE` only (R33, R262). -/
def hostOutLen (s : State) : Option (BitVec 32) := if s.phase = .done then some s.outLen else none

/-- The result: `OUT[0 .. OUT_LEN-1]`, in phase `DONE` with `STATUS = OK` only (R37, R240, R262). -/
def hostOutput (s : State) : Option (List Byte) :=
  if s.phase = .done ∧ s.status = statusOk then
    match s.out with
    | none => none
    | some m => memReadRun m 0 s.outLen.toNat
  else none

/-- Phase `HEADER` of the current call has completed without error (R33). -/
def headerRead (s : State) : Bool :=
  match s.phase with
  | .idle => false
  | .header => false
  | .done => decide (s.status ≠ errorCode .malformedHeader)
  | _ => true

/-- `CSIZE`, readable once phase `HEADER` has completed without error (R33, D26). -/
def hostCompressedSize (s : State) : Option Nat := if headerRead s then some s.csize.toNat else none

/-- `DSIZE`, readable once phase `HEADER` has completed without error (R33, D26). -/
def hostDecompressedSize (s : State) : Option Nat := if headerRead s then some s.dsize.toNat else none

/-- The error kind of a status code; none for `OK` and for the codes no rule writes (R31). -/
def errorKindOf (c : BitVec 3) : Option ErrorKind :=
  if c = errorCode .malformedHeader then some .malformedHeader
  else if c = errorCode .sizeMismatch then some .sizeMismatch
  else if c = errorCode .streamCorruption then some .streamCorruption
  else if c = errorCode .allocationFailure then some .allocationFailure
  else none

/-- The outcome of the call as the host sees it: the output bytes or an error kind, in phase `DONE` only (R3, R262). -/
def hostResult (s : State) : Option (Except ErrorKind (List Byte)) :=
  if s.phase = .done then
    match errorKindOf s.status with
    | some k => some (.error k)
    | none => (hostOutput s).map .ok
  else none

end Sys2Proof.Machine
end

