-- ==== Sys2Proof/Safety.lean ====
section
/-!
DEFINITION. The terms claims use: the invariant of a call (R42), the causes of `StreamCorruption` (R224), and runs.
-/

namespace Sys2Proof

open Sys2Proof.Machine

/-! ## The invariant (R42) -/

/-- `OUT` exists and exactly its indices below `n` have been written. -/
abbrev outFilled (s : State) (n : Nat) : Prop := s.out.map (·.map Prod.fst) = some (List.range n)

/-- The phases `LOOP` to `FINAL` (R42). -/
def inLoop (p : Phase) : Bool :=
  match p with
  | .loop | .flag | .litdec | .litcopy | .matchdec | .matchcopy | .final => true
  | .idle | .header | .sizechk | .alloc | .done => false

/-- The phases after `HEADER` and before `DONE`. -/
def headerLoaded (p : Phase) : Bool :=
  match p with
  | .sizechk | .alloc => true
  | .idle | .header | .done => false
  | .loop | .flag | .litdec | .litcopy | .matchdec | .matchcopy | .final => true

/-- What the header rules leave: `HLEN` is 3 or 9 and lies within the input, `CSIZE = HLEN + PLEN` (R24, R113). -/
abbrev HeaderInv (s : State) : Prop :=
  (s.hlen = 3#4 ∨ s.hlen = 9#4) ∧ s.hlen.toNat ≤ s.inLen.toNat ∧ s.csize.toNat = s.hlen.toNat + s.plen.toNat

/-- R42, in phases `LOOP` to `FINAL`. -/
abbrev LoopInv (s : State) : Prop :=
  s.csize.toNat = s.inLen.toNat ∧ s.hlen.toNat ≤ s.rd.toNat ∧ s.rd.toNat ≤ s.csize.toNat ∧
  0 < s.dsize.toNat ∧ s.wr.toNat ≤ s.dsize.toNat ∧ s.fcnt.toNat ≤ 32 ∧ outFilled s s.wr.toNat ∧
  (s.phase = .flag ∨ s.phase = .litdec ∨ s.phase = .matchdec → s.wr.toNat < s.dsize.toNat) ∧
  (s.phase = .litcopy →
    1 ≤ s.cnt.toNat ∧ s.cnt.toNat ≤ s.dsize.toNat - s.wr.toNat ∧ s.cnt.toNat ≤ s.csize.toNat - s.rd.toNat) ∧
  (s.phase = .matchcopy →
    1 ≤ s.cnt.toNat ∧ s.cnt.toNat ≤ s.dsize.toNat - s.wr.toNat ∧ 1 ≤ s.dist.toNat ∧ s.dist.toNat ≤ s.wr.toNat) ∧
  (s.phase = .final → s.wr = s.dsize)

/-- What phase `DONE` leaves: a code some rule writes, no length after an error, and after success the whole output
(R31, R33, R207). -/
abbrev DoneInv (s : State) : Prop :=
  s.status.toNat ≤ 4 ∧ (s.status ≠ statusOk → s.outLen = 0#32) ∧
  (s.status = statusOk → s.outLen = s.dsize ∧ outFilled s s.outLen.toNat)

/-- The invariant of the machine: the host presented every byte of `IN` (R270), and what each phase may rely on
(R42, R41). -/
abbrev CallInv (s : State) : Prop :=
  s.inp.filled s.inLen.toNat ∧
  (∀ m ∈ s.out, m.wf) ∧
  (s.phase = .idle ∨ s.phase = .header ∨ s.phase = .sizechk ∨ s.phase = .alloc → s.out = none) ∧
  (headerLoaded s.phase = true → HeaderInv s) ∧
  (s.phase = .alloc → s.csize.toNat = s.inLen.toNat) ∧
  (inLoop s.phase = true → LoopInv s) ∧
  (s.phase = .done → DoneInv s)

/-- Both spaces are in canonical form. -/
abbrev SpacesWf (s : State) : Prop := s.inp.wf ∧ ∀ m ∈ s.out, m.wf

/-! ## What an instruction leaves alone -/

/-- The byte `OUT` holds at index `a`; none where `OUT` does not exist or the byte has not been written (R38). -/
def outByte (s : State) (a : Nat) : Option Byte :=
  match s.out with
  | none => none
  | some m => memRead m a

/-- Every byte of both spaces reads as before, and `OUT` exists if it did. -/
abbrev sameSpaces (s t : State) : Prop :=
  (∀ a, readIn t a = readIn s a) ∧ (∀ a, outByte t a = outByte s a) ∧ t.out.isSome = s.out.isSome

/-- `t` is `s` after `raise K`: the three writes of R240, and nothing else but the working registers `RD` and `DIST`
that the failing token had already written. -/
abbrev raisedFrom (k : ErrorKind) (s t : State) : Prop :=
  t.status = errorCode k ∧ t.outLen = 0#32 ∧ t.phase = .done ∧
  t = { s with status := t.status, outLen := t.outLen, phase := t.phase, rd := t.rd, dist := t.dist }

/-- Width, distance and length of a match form as naturals (R88 to R91, R93); none for every other item. -/
def matchForm : Instr → Option (Nat × Nat × Nat)
  | .m1 d => some (1, d.toNat, 3)
  | .m2a d => some (2, d.toNat, 3)
  | .m2b l d => some (2, d.toNat, l.toNat + 3)
  | .m3 l d => some (3, d.toNat, l.toNat + 2)
  | .hdrC _ _ _ => none
  | .hdrX _ _ _ => none
  | .flagw _ => none
  | .litS _ => none
  | .litL _ => none
  | .m3Rsvd _ => none

/-- Width of the count field and count of a literal form, as naturals (R86, R87); none for every other item. -/
def literalForm : Instr → Option (Nat × Nat)
  | .litS n => some (1, n.toNat)
  | .litL n => some (5, n.toNat)
  | .hdrC _ _ _ => none
  | .hdrX _ _ _ => none
  | .flagw _ => none
  | .m1 _ => none
  | .m2a _ => none
  | .m2b _ _ => none
  | .m3Rsvd _ => none
  | .m3 _ _ => none

/-! ## Runs -/

/-- A call that has been started and not finished. -/
def calling (s : State) : Prop := s.cmd = none ∧ s.phase ≠ .idle ∧ s.phase ≠ .done

/-- `k` steps of the machine. -/
def steps (k : Nat) (s : State) : Host.Outcome State Fault Refusal := Host.Core.run core k s

/-! ## The causes of `StreamCorruption` (R224), on naturals -/

/-- The little-endian value of the `n` bytes of `IN` from index `a` on (R17). -/
def inValue (s : State) (a n : Nat) : Option Nat := (readInRun s a n).map leNat

/-- The count and the count field's width of the literal run at `RD` (R150, R151). -/
def literalAt (s : State) : Option (Nat × Nat) :=
  match inValue s s.rd.toNat 1 with
  | none => none
  | some 0 => (inValue s (s.rd.toNat + 1) 4).map (fun n => (n, 5))
  | some n => some (n, 1)

/-- The distance and the length of the match token at `RD`; none if it is cut short or reserved (R165 to R169). -/
def matchAt (s : State) : Option (Nat × Nat) :=
  (inValue s s.rd.toNat 1).bind (fun b0 => (inValue s s.rd.toNat (matchWidth b0)).bind matchFields)

/-- The thirteen causes of R224, in its order. -/
inductive StreamCause where
  | flagWordCut | literalAbsent | longCountCut | longCountZero | countOverOutput | countOverInput
  | matchAbsent | matchCut | reservedPattern | distanceZero | distanceBeforeStart | lengthOverOutput
  | inputLeftOver
  deriving DecidableEq, Repr

/-- When each cause holds (R224). -/
def StreamCause.holds (c : StreamCause) (s : State) : Prop :=
  match c with
  | .flagWordCut => s.phase = .flag ∧ s.fcnt = 0#6 ∧ s.rd.toNat + 4 > s.csize.toNat
  | .literalAbsent => s.phase = .litdec ∧ s.rd.toNat + 1 > s.csize.toNat
  | .longCountCut =>
    s.phase = .litdec ∧ inValue s s.rd.toNat 1 = some 0 ∧ s.rd.toNat + 5 > s.csize.toNat
  | .longCountZero =>
    s.phase = .litdec ∧ inValue s s.rd.toNat 1 = some 0 ∧ inValue s (s.rd.toNat + 1) 4 = some 0
  | .countOverOutput =>
    s.phase = .litdec ∧ ∃ n w, literalAt s = some (n, w) ∧ n > s.dsize.toNat - s.wr.toNat
  | .countOverInput =>
    s.phase = .litdec ∧ ∃ n w, literalAt s = some (n, w) ∧ n > s.csize.toNat - (s.rd.toNat + w)
  | .matchAbsent => s.phase = .matchdec ∧ s.rd.toNat + 1 > s.csize.toNat
  | .matchCut =>
    s.phase = .matchdec ∧ ∃ b0, inValue s s.rd.toNat 1 = some b0 ∧ s.rd.toNat + matchWidth b0 > s.csize.toNat
  | .reservedPattern =>
    s.phase = .matchdec ∧ ∃ b0, inValue s s.rd.toNat 1 = some b0 ∧ b0 % 4 = 3 ∧ b0 / 4 % 32 = 0
  | .distanceZero => s.phase = .matchdec ∧ ∃ d l, matchAt s = some (d, l) ∧ d = 0
  | .distanceBeforeStart => s.phase = .matchdec ∧ ∃ d l, matchAt s = some (d, l) ∧ d > s.wr.toNat
  | .lengthOverOutput => s.phase = .matchdec ∧ ∃ d l, matchAt s = some (d, l) ∧ l > s.dsize.toNat - s.wr.toNat
  | .inputLeftOver => s.phase = .final ∧ s.rd.toNat ≠ s.csize.toNat

end Sys2Proof
end

