-- ==== Sys2Proof/Certificates/Slice0/Obligations.lean ====
section
/-!
DEFINITION. The statements about the model, from the spec's numbered rules.

Statements about registers use naturals (`toNat`) where the rule does arithmetic, so that a wrap would show. The premise
`s.csize.toNat = s.inLen.toNat` is what R202 leaves in every phase after `SIZECHK` (it is part of `CallInv`).
-/

open Sys2Proof Sys2Proof.Machine

/-! ## Encoding -/

/-- R82 to R91: the decoder reads back every well-formed item, whatever follows it. -/
def Obligations.DecodeOfEncode : Prop :=
  ∀ (i : Instr) (rest : List Byte), i.WellFormed = true →
    decode (contextOf i) (encode i ++ rest) = .ok (i, rest)

/-- R81, R94, R96: whatever the decoder reads is a well-formed item of the family asked for, and its bytes are that
item's encoding: no bit of an item is dropped. -/
def Obligations.EncodeOfDecode : Prop :=
  ∀ (c : Context) (bs rest : List Byte) (i : Instr), decode c bs = .ok (i, rest) →
    i.WellFormed = true ∧ contextOf i = c ∧ bs = encode i ++ rest

/-- Words of 95_test_vectors.md decode to the items it lists (S8, S11, VL3, the VM field table). -/
def Obligations.SpecWordsDecode : Prop :=
  decode .header [0x00, 0x0B, 0x08] = .ok (.hdrC 0x00 11 8, []) ∧
  decode .header [0x06, 0x78, 0x56, 0x34, 0x12, 0x01, 0x00, 0x00, 0x80] =
    .ok (.hdrX 0x06 0x12345678 0x80000001, []) ∧
  decode .flagWord [0x02, 0x00, 0x00, 0x00] = .ok (.flagw 2, []) ∧
  decode .literal [0x01] = .ok (.litS 1, []) ∧
  decode .literal [0x00, 0x00, 0x01, 0x00, 0x00] = .ok (.litL 256, []) ∧
  decode .backref [0xFC] = .ok (.m1 63, []) ∧
  decode .backref [0x91, 0x01] = .ok (.m2a 100, []) ∧
  decode .backref [0x5E, 0x00] = .ok (.m2b 7 1, []) ∧
  decode .backref [0xA3, 0xF4, 0x01] = .ok (.m3 8 1001, []) ∧
  decode .backref [0x83, 0x00, 0x00] = .ok (.m3Rsvd 1, [])

/-- R94: bytes are refused only where there are too few of them for the item their first byte begins. -/
def Obligations.DecoderRefusesOnlyCutItems : Prop :=
  ∀ (c : Context) (bs : List Byte),
    (∃ e, decode c bs = .error e) ↔
      (bs.length < firstWidth c ∨ ∃ b0 tl, bs = b0 :: tl ∧ bs.length < itemWidth c b0)

/-- R94, R172: the reserved pattern is exactly the first bytes `0x03` and `0x83`. -/
def Obligations.ReservedPatternFirstBytes : Prop :=
  ∀ b0 b1 b2 : Byte,
    (∃ d, decode .backref [b0, b1, b2] = .ok (.m3Rsvd d, [])) ↔ (b0 = 0x03#8 ∨ b0 = 0x83#8)

/-- R51: the header's size fields, one byte each or four bytes little-endian. -/
def Obligations.HeaderFieldsLittleEndian : Prop :=
  ∀ b0 b1 b2 b3 b4 b5 b6 b7 b8 : Byte,
    (b0.getLsbD 1 = false → decode .header [b0, b1, b2] = .ok (.hdrC b0 b1 b2, [])) ∧
    (b0.getLsbD 1 = true → ∃ d p, decode .header [b0, b1, b2, b3, b4, b5, b6, b7, b8] = .ok (.hdrX b0 d p, []) ∧
      d.toNat = b1.toNat + b2.toNat * 2 ^ 8 + b3.toNat * 2 ^ 16 + b4.toNat * 2 ^ 24 ∧
      p.toNat = b5.toNat + b6.toNat * 2 ^ 8 + b7.toNat * 2 ^ 16 + b8.toNat * 2 ^ 24)

/-- R52, R84, R86 to R91, R94: every field of the token stream is the little-endian value's bits, as quotients and
remainders of `leNat`; a short count is its one byte. The length field of the reserved pattern is 0. -/
def Obligations.TokenFieldsLittleEndian : Prop :=
  ∀ b0 b1 b2 b3 b4 : Byte,
    (∃ w, decode .flagWord [b0, b1, b2, b3] = .ok (.flagw w, []) ∧ w.toNat = leNat [b0, b1, b2, b3]) ∧
    (b0 ≠ 0#8 → decode .literal [b0] = .ok (.litS b0, [])) ∧
    (b0 = 0#8 → ∃ n, decode .literal [b0, b1, b2, b3, b4] = .ok (.litL n, []) ∧ n.toNat = leNat [b1, b2, b3, b4]) ∧
    (b0.toNat % 4 = 0 → ∃ d, decode .backref [b0] = .ok (.m1 d, []) ∧ d.toNat = b0.toNat / 4) ∧
    (b0.toNat % 4 = 1 → ∃ d, decode .backref [b0, b1] = .ok (.m2a d, []) ∧ d.toNat = leNat [b0, b1] / 4) ∧
    (b0.toNat % 4 = 2 → ∃ l d, decode .backref [b0, b1] = .ok (.m2b l d, []) ∧
      l.toNat = leNat [b0, b1] / 4 % 16 ∧ d.toNat = leNat [b0, b1] / 64) ∧
    (b0.toNat % 4 = 3 → b0.toNat / 4 % 32 ≠ 0 → ∃ l d, decode .backref [b0, b1, b2] = .ok (.m3 l d, []) ∧
      l.toNat = leNat [b0, b1, b2] / 4 % 32 ∧ d.toNat = leNat [b0, b1, b2] / 128) ∧
    (b0.toNat % 4 = 3 → b0.toNat / 4 % 32 = 0 → ∃ d, decode .backref [b0, b1, b2] = .ok (.m3Rsvd d, []) ∧
      d.toNat = leNat [b0, b1, b2] / 128)

/-- R12, R93: what the match forms can express. -/
def Obligations.MatchFormRanges : Prop :=
  ∀ (i : Instr) (w d l : Nat), i.WellFormed = true → matchForm i = some (w, d, l) →
    w = (encode i).length ∧ Config.minMatch ≤ l ∧ l ≤ Config.maxMatch ∧ d ≤ Config.maxDistance ∧
    (w = 1 → d ≤ 63 ∧ l = 3) ∧ (w = 2 → l = 3 ∧ d ≤ 16383 ∨ d ≤ 1023 ∧ l ≤ 18)

/-! ## The step and the fetch -/

/-- R81, R19: where the bytes of a well-formed item stand at the cursor of its family, within the limit, and its family
is due, the step is that item's meaning and nothing else. -/
def Obligations.StepRunsDecodedItem : Prop :=
  ∀ (s : State) (i : Instr), s.cmd = none → i.WellFormed = true → s.phase = duePhase (contextOf i) →
    (contextOf i = .flagWord → s.fcnt = 0#6) →
    readInRun s (itemStart (contextOf i) s) (encode i).length = some (encode i) →
    itemStart (contextOf i) s + (encode i).length ≤ readLimit (contextOf i) s →
    step s = exec i s

/-- R132, R150, R151, R165 (causes 1, 2, 3, 7, 8 of R224): an item that `CSIZE` cuts short raises `StreamCorruption`. -/
def Obligations.CutItemRaises : Prop :=
  ∀ s : State, s.cmd = none →
    (s.phase = .flag ∧ s.fcnt = 0#6 ∧ s.rd.toNat + 4 > s.csize.toNat) ∨
    (s.phase = .litdec ∧ s.rd.toNat + 1 > s.csize.toNat) ∨
    (s.phase = .litdec ∧ readIn s s.rd.toNat = some 0#8 ∧ s.rd.toNat + 5 > s.csize.toNat) ∨
    (s.phase = .matchdec ∧ s.rd.toNat + 1 > s.csize.toNat) ∨
    (s.phase = .matchdec ∧
      ∃ b0, readIn s s.rd.toNat = some b0 ∧ s.rd.toNat + matchWidth b0.toNat > s.csize.toNat) →
    ∃ t, step s = .next t ∧ raisedFrom .streamCorruption s t ∧ t.rd = s.rd ∧ t.dist = s.dist

/-- No item stores: after any item's meaning every byte of both spaces reads as before, and the write cursor and the
call's parameters are what they were (R36, R50, R150 to R152, R165 to R173). -/
def Obligations.ItemsStoreNothing : Prop :=
  ∀ (i : Instr) (s t : State), exec i s = .next t →
    sameSpaces s t ∧ t.wr = s.wr ∧ t.inLen = s.inLen ∧ t.allocOk = s.allocOk ∧ t.cmd = s.cmd

/-! ## The header -/

/-- R111, with R110's guard and writes: `HDR.C`. The last clause ties the fields to the bytes of `IN`. -/
def Obligations.CompactHeaderLoads : Prop :=
  ∀ (ctrl dlen plen : BitVec 8) (s : State),
    (3 ≤ s.inLen.toNat →
      ∃ t, exec (.hdrC ctrl dlen plen) s = .next t ∧ t.ctrl = ctrl ∧ t.hlen.toNat = 3 ∧
        t.dsize.toNat = dlen.toNat ∧ t.plen.toNat = plen.toNat ∧ t.csize.toNat = 3 + plen.toNat ∧
        t.phase = .sizechk ∧
        t = { s with
              ctrl := t.ctrl, hlen := t.hlen, dsize := t.dsize, plen := t.plen, csize := t.csize, phase := t.phase }) ∧
    (s.inLen.toNat < 3 →
      ∃ t, exec (.hdrC ctrl dlen plen) s = .next t ∧ raisedFrom .malformedHeader s t) ∧
    (s.cmd = none → s.phase = .header → 3 ≤ s.inLen.toNat → readIn s 0 = some ctrl → readIn s 1 = some dlen →
      readIn s 2 = some plen → ctrl.getLsbD 1 = false → step s = exec (.hdrC ctrl dlen plen) s)

/-- R112, with R110's writes and R8: `HDR.X`; `CSIZE` never wraps. The last clause ties the fields to the bytes of
`IN`. -/
def Obligations.ExtendedHeaderLoads : Prop :=
  ∀ (ctrl : BitVec 8) (dlen plen : BitVec 32) (s : State),
    (9 ≤ s.inLen.toNat →
      ∃ t, exec (.hdrX ctrl dlen plen) s = .next t ∧ t.ctrl = ctrl ∧ t.hlen.toNat = 9 ∧
        t.dsize.toNat = dlen.toNat ∧ t.plen.toNat = plen.toNat ∧ t.csize.toNat = 9 + plen.toNat ∧
        t.phase = .sizechk ∧
        t = { s with
              ctrl := t.ctrl, hlen := t.hlen, dsize := t.dsize, plen := t.plen, csize := t.csize, phase := t.phase }) ∧
    (s.inLen.toNat < 9 →
      ∃ t, exec (.hdrX ctrl dlen plen) s = .next t ∧ raisedFrom .malformedHeader s t) ∧
    (s.cmd = none → s.phase = .header → 9 ≤ s.inLen.toNat → readIn s 0 = some ctrl →
      inValue s 1 4 = some dlen.toNat → inValue s 5 4 = some plen.toNat → ctrl.getLsbD 1 = true →
      step s = exec (.hdrX ctrl dlen plen) s)

/-- R113, R221: in phase `HEADER`, with the input presented, the step raises `MalformedHeader` exactly where the input
is shorter than 3 bytes, or shorter than 9 with bit 1 of byte 0 set; elsewhere it goes on to `SIZECHK`. No step of
another phase raises it. -/
def Obligations.MalformedHeaderExactly : Prop :=
  (∀ s : State, s.cmd = none → s.phase = .header → s.inp.filled s.inLen.toNat →
    ((s.inLen.toNat < 3 ∨ (s.inLen.toNat < 9 ∧ ∃ b0, readIn s 0 = some b0 ∧ b0.getLsbD 1 = true)) →
      ∃ t, step s = .next t ∧ raisedFrom .malformedHeader s t) ∧
    (¬(s.inLen.toNat < 3 ∨ (s.inLen.toNat < 9 ∧ ∃ b0, readIn s 0 = some b0 ∧ b0.getLsbD 1 = true)) →
      ∃ t, step s = .next t ∧ t.phase = .sizechk)) ∧
  (∀ s t : State, step s = .next t → s.phase ≠ .done → t.phase = .done → t.status = 1#3 → s.phase = .header)

/-- R115, R33: the header step gives `CSIZE` and `DSIZE` the values of the two inspector functions, and raises where
they fail. -/
def Obligations.HeaderStepIsInspector : Prop :=
  ∀ (s : State) (bytes : List Byte), s.cmd = none → s.phase = .header →
    s.inp = memOfBytes 0 bytes → s.inLen.toNat = bytes.length →
    ∃ t, step s = .next t ∧ hostCompressedSize t = compressedSize bytes ∧
      hostDecompressedSize t = decompressedSize bytes ∧
      (t.phase = .done ↔ compressedSize bytes = none)

/-- R116: the Header Inspector reads no byte at or beyond index `HLEN`. -/
def Obligations.InspectorReadsHeaderOnly : Prop :=
  ∀ (hdr payload payload' : List Byte) (b0 : Byte), hdr.head? = some b0 →
    hdr.length = itemWidth .header b0 →
    compressedSize (hdr ++ payload) = compressedSize (hdr ++ payload') ∧
    decompressedSize (hdr ++ payload) = decompressedSize (hdr ++ payload')

/-- R114: two inputs that differ only in bits 0 and 2 to 7 of byte 0 give the same status and output. -/
def Obligations.OtherControlBitsIgnored : Prop :=
  ∀ (b b' : Byte) (rest : List Byte) (allocOk : Nat → Bool), b.getLsbD 1 = b'.getLsbD 1 →
    decodeCall (b :: rest) allocOk = decodeCall (b' :: rest) allocOk

/-! ## The token loop and the flag word -/

/-- R131: the loop test. -/
def Obligations.LoopTestDecides : Prop :=
  ∀ s : State, s.cmd = none → s.phase = .loop →
    ∃ t, step s = .next t ∧ (s.wr = s.dsize → t.phase = .final) ∧ (s.wr ≠ s.dsize → t.phase = .flag) ∧
      t = { s with phase := t.phase }

/-- R132: `FLAGW` loads the flag register where 4 bytes remain, and raises where they do not; the value is `LE32(RD)`;
and the refill is lazy: in the loop, `FCNT` grows only in phase `FLAG` with `FCNT = 0`. -/
def Obligations.FlagWordRefills : Prop :=
  (∀ (w : BitVec 32) (s : State), s.csize.toNat = s.inLen.toNat →
    (s.rd.toNat + 4 ≤ s.csize.toNat →
      ∃ t, exec (.flagw w) s = .next t ∧ t.fw = w ∧ t.rd.toNat = s.rd.toNat + 4 ∧ t.fcnt.toNat = 32 ∧
        t = { s with fw := t.fw, rd := t.rd, fcnt := t.fcnt }) ∧
    (s.rd.toNat + 4 > s.csize.toNat →
      ∃ t, exec (.flagw w) s = .next t ∧ raisedFrom .streamCorruption s t) ∧
    (s.cmd = none → s.phase = .flag → s.fcnt = 0#6 → s.rd.toNat + 4 ≤ s.csize.toNat →
      inValue s s.rd.toNat 4 = some w.toNat → step s = exec (.flagw w) s)) ∧
  (∀ s t : State, inLoop s.phase = true → step s = .next t → s.fcnt.toNat < t.fcnt.toNat →
    s.phase = .flag ∧ s.fcnt = 0#6)

/-- R133, R85: one flag bit is consumed from bit 0, and it selects the token's family. -/
def Obligations.FlagBitDispatches : Prop :=
  ∀ s : State, s.cmd = none → s.phase = .flag → 0 < s.fcnt.toNat →
    ∃ t, step s = .next t ∧ t.fw.toNat = s.fw.toNat / 2 ∧ t.fcnt.toNat = s.fcnt.toNat - 1 ∧
      (s.fw.toNat % 2 = 0 → t.phase = .litdec) ∧ (s.fw.toNat % 2 = 1 → t.phase = .matchdec) ∧
      t = { s with fw := t.fw, fcnt := t.fcnt, phase := t.phase }

/-- R84, R132, R133: after a refill with `w`, the `k`-th consumption takes bit `k` of `w`, for each of the 32. -/
def Obligations.FlagsConsumedFromBitZero : Prop :=
  ∀ (w : BitVec 32) (s : State) (k : Nat), k < 32 →
    (consumeFlag^[k + 1] (refillFlags w s)).phase = flagPhase (w.getLsbD k) ∧
    (consumeFlag^[k + 1] (refillFlags w s)).fcnt.toNat = 31 - k

/-! ## The literal run -/

/-- R150, going on with R152: `LIT.S`. It raises where no count byte is left, and starts its copy for every count but 0
(the sentinel) that the output and the input have room for. The last clause ties the count to the byte at `RD`. -/
def Obligations.ShortLiteralStarts : Prop :=
  ∀ (n : BitVec 8) (s : State), s.csize.toNat = s.inLen.toNat → n.toNat ≠ 0 →
    (s.rd.toNat + 1 > s.csize.toNat → ∃ t, exec (.litS n) s = .next t ∧ raisedFrom .streamCorruption s t) ∧
    (s.rd.toNat + 1 ≤ s.csize.toNat → n.toNat ≤ s.dsize.toNat - s.wr.toNat →
      n.toNat ≤ s.csize.toNat - (s.rd.toNat + 1) →
      ∃ t, exec (.litS n) s = .next t ∧ t.cnt.toNat = n.toNat ∧ t.rd.toNat = s.rd.toNat + 1 ∧ t.phase = .litcopy ∧
        t = { s with cnt := t.cnt, rd := t.rd, phase := t.phase }) ∧
    (s.cmd = none → s.phase = .litdec → s.rd.toNat + 1 ≤ s.csize.toNat → readIn s s.rd.toNat = some n →
      step s = exec (.litS n) s)

/-- R151, going on with R152: `LIT.L`. It raises where the count field is cut short and where the count is 0, and starts
its copy for every other count that the output and the input have room for. The last clause ties the count to the
bytes after the sentinel. -/
def Obligations.LongLiteralStarts : Prop :=
  ∀ (n : BitVec 32) (s : State), s.csize.toNat = s.inLen.toNat →
    (s.rd.toNat + 5 > s.csize.toNat → ∃ t, exec (.litL n) s = .next t ∧ raisedFrom .streamCorruption s t) ∧
    (n.toNat = 0 → ∃ t, exec (.litL n) s = .next t ∧ raisedFrom .streamCorruption s t) ∧
    (s.rd.toNat + 5 ≤ s.csize.toNat → n.toNat ≠ 0 → n.toNat ≤ s.dsize.toNat - s.wr.toNat →
      n.toNat ≤ s.csize.toNat - (s.rd.toNat + 5) →
      ∃ t, exec (.litL n) s = .next t ∧ t.cnt.toNat = n.toNat ∧ t.rd.toNat = s.rd.toNat + 5 ∧ t.phase = .litcopy ∧
        t = { s with cnt := t.cnt, rd := t.rd, phase := t.phase }) ∧
    (s.cmd = none → s.phase = .litdec → s.rd.toNat + 5 ≤ s.csize.toNat → readIn s s.rd.toNat = some 0#8 →
      inValue s (s.rd.toNat + 1) 4 = some n.toNat → step s = exec (.litL n) s)

/-- R152, for both forms: the bound checks, and the start of the copy where both hold. -/
def Obligations.LiteralChecksDecide : Prop :=
  ∀ (i : Instr) (w n : Nat) (s : State), literalForm i = some (w, n) → n ≠ 0 → s.csize.toNat = s.inLen.toNat →
    s.rd.toNat + w ≤ s.csize.toNat →
    (n > s.dsize.toNat - s.wr.toNat ∨ n > s.csize.toNat - (s.rd.toNat + w) →
      ∃ t, exec i s = .next t ∧ raisedFrom .streamCorruption s t) ∧
    (n ≤ s.dsize.toNat - s.wr.toNat → n ≤ s.csize.toNat - (s.rd.toNat + w) →
      ∃ t, exec i s = .next t ∧ t.cnt.toNat = n ∧ t.rd.toNat = s.rd.toNat + w ∧ t.phase = .litcopy ∧
        t = { s with cnt := t.cnt, rd := t.rd, phase := t.phase })

/-- R153: one literal copy step moves one byte of `IN` to `OUT[WR]`; every other byte of `OUT` reads as before. -/
def Obligations.LiteralCopyMovesOneByte : Prop :=
  ∀ (s : State) (b : Byte), s.cmd = none → s.phase = .litcopy → s.out.isSome = true →
    1 ≤ s.cnt.toNat → readIn s s.rd.toNat = some b → s.wr.toNat < s.dsize.toNat →
    ∃ t, step s = .next t ∧ outByte t s.wr.toNat = some b ∧ t.rd.toNat = s.rd.toNat + 1 ∧
      t.wr.toNat = s.wr.toNat + 1 ∧ t.cnt.toNat = s.cnt.toNat - 1 ∧
      (s.cnt.toNat = 1 → t.phase = .loop) ∧ (s.cnt.toNat ≠ 1 → t.phase = .litcopy) ∧
      (∀ a, a ≠ s.wr.toNat → outByte t a = outByte s a) ∧
      t = { s with out := t.out, rd := t.rd, wr := t.wr, cnt := t.cnt, phase := t.phase }

/-- R153, the run as a whole: `CNT` steps copy the run in order and return to `LOOP`; nothing before it changes. -/
def Obligations.LiteralRunCopies : Prop :=
  ∀ s : State, CallInv s → s.cmd = none → s.phase = .litcopy →
    ∃ t, steps s.cnt.toNat s = .next t ∧ t.phase = .loop ∧ t.cnt.toNat = 0 ∧
      t.rd.toNat = s.rd.toNat + s.cnt.toNat ∧ t.wr.toNat = s.wr.toNat + s.cnt.toNat ∧
      (∀ i, i < s.cnt.toNat → readOut t (s.wr.toNat + i) = readIn s (s.rd.toNat + i)) ∧
      (∀ a, a < s.wr.toNat → readOut t a = readOut s a) ∧
      t = { s with out := t.out, rd := t.rd, wr := t.wr, cnt := t.cnt, phase := t.phase }

/-! ## The match token and the copy engine -/

/-- R166, going on with R170 and R171: `M1`. The last clause ties the distance to the byte at `RD`. -/
def Obligations.M1Starts : Prop :=
  ∀ (d : BitVec 6) (s : State), s.csize.toNat = s.inLen.toNat → s.rd.toNat + 1 ≤ s.csize.toNat →
    (1 ≤ d.toNat → d.toNat ≤ s.wr.toNat → 3 ≤ s.dsize.toNat - s.wr.toNat →
      ∃ t, exec (.m1 d) s = .next t ∧ t.dist.toNat = d.toNat ∧ t.cnt.toNat = 3 ∧ t.rd.toNat = s.rd.toNat + 1 ∧
        t.phase = .matchcopy ∧ t = { s with dist := t.dist, cnt := t.cnt, rd := t.rd, phase := t.phase }) ∧
    (∀ v, s.cmd = none → s.phase = .matchdec → inValue s s.rd.toNat 1 = some v → v % 4 = 0 → d.toNat = v / 4 →
      step s = exec (.m1 d) s)

/-- R167, going on with R170 and R171: `M2A`. The last clause ties the distance to the bytes at `RD`. -/
def Obligations.M2aStarts : Prop :=
  ∀ (d : BitVec 14) (s : State), s.csize.toNat = s.inLen.toNat → s.rd.toNat + 2 ≤ s.csize.toNat →
    (1 ≤ d.toNat → d.toNat ≤ s.wr.toNat → 3 ≤ s.dsize.toNat - s.wr.toNat →
      ∃ t, exec (.m2a d) s = .next t ∧ t.dist.toNat = d.toNat ∧ t.cnt.toNat = 3 ∧ t.rd.toNat = s.rd.toNat + 2 ∧
        t.phase = .matchcopy ∧ t = { s with dist := t.dist, cnt := t.cnt, rd := t.rd, phase := t.phase }) ∧
    (∀ v, s.cmd = none → s.phase = .matchdec → inValue s s.rd.toNat 2 = some v → v % 4 = 1 → d.toNat = v / 4 →
      step s = exec (.m2a d) s)

/-- R168, going on with R170 and R171: `M2B`. The last clause ties distance and length to the bytes at `RD`. -/
def Obligations.M2bStarts : Prop :=
  ∀ (l : BitVec 4) (d : BitVec 10) (s : State), s.csize.toNat = s.inLen.toNat → s.rd.toNat + 2 ≤ s.csize.toNat →
    (1 ≤ d.toNat → d.toNat ≤ s.wr.toNat → l.toNat + 3 ≤ s.dsize.toNat - s.wr.toNat →
      ∃ t, exec (.m2b l d) s = .next t ∧ t.dist.toNat = d.toNat ∧ t.cnt.toNat = l.toNat + 3 ∧
        t.rd.toNat = s.rd.toNat + 2 ∧ t.phase = .matchcopy ∧
        t = { s with dist := t.dist, cnt := t.cnt, rd := t.rd, phase := t.phase }) ∧
    (∀ v, s.cmd = none → s.phase = .matchdec → inValue s s.rd.toNat 2 = some v → v % 4 = 2 →
      l.toNat = v / 4 % 16 → d.toNat = v / 64 → step s = exec (.m2b l d) s)

/-- R169, going on with R170 and R171: `M3`. The last clause ties distance and length to the bytes at `RD`. -/
def Obligations.M3Starts : Prop :=
  ∀ (l : BitVec 5) (d : BitVec 17) (s : State), s.csize.toNat = s.inLen.toNat → s.rd.toNat + 3 ≤ s.csize.toNat →
    l.toNat ≠ 0 →
    (1 ≤ d.toNat → d.toNat ≤ s.wr.toNat → l.toNat + 2 ≤ s.dsize.toNat - s.wr.toNat →
      ∃ t, exec (.m3 l d) s = .next t ∧ t.dist.toNat = d.toNat ∧ t.cnt.toNat = l.toNat + 2 ∧
        t.rd.toNat = s.rd.toNat + 3 ∧ t.phase = .matchcopy ∧
        t = { s with dist := t.dist, cnt := t.cnt, rd := t.rd, phase := t.phase }) ∧
    (∀ v, s.cmd = none → s.phase = .matchdec → inValue s s.rd.toNat 3 = some v → v % 4 = 3 →
      l.toNat = v / 4 % 32 → d.toNat = v / 128 → step s = exec (.m3 l d) s)

/-- R170, R171, for all four forms: the distance checks, the length check, and the start of the copy where all hold;
before them R165's width check. -/
def Obligations.MatchChecksDecide : Prop :=
  ∀ (i : Instr) (w d l : Nat) (s : State), i.WellFormed = true → matchForm i = some (w, d, l) →
    s.csize.toNat = s.inLen.toNat →
    (s.rd.toNat + w > s.csize.toNat ∨ d = 0 ∨ d > s.wr.toNat ∨ l > s.dsize.toNat - s.wr.toNat →
      ∃ t, exec i s = .next t ∧ raisedFrom .streamCorruption s t) ∧
    (s.rd.toNat + w ≤ s.csize.toNat → 1 ≤ d → d ≤ s.wr.toNat → l ≤ s.dsize.toNat - s.wr.toNat →
      ∃ t, exec i s = .next t ∧ t.dist.toNat = d ∧ t.cnt.toNat = l ∧ t.rd.toNat = s.rd.toNat + w ∧
        t.phase = .matchcopy ∧ t = { s with dist := t.dist, cnt := t.cnt, rd := t.rd, phase := t.phase })

/-- R172: the reserved pattern raises, whatever its other bits; a step on a first byte `0x03` or `0x83` does so. -/
def Obligations.ReservedPatternRaises : Prop :=
  (∀ (d : BitVec 17) (s : State),
    ∃ t, exec (.m3Rsvd d) s = .next t ∧ raisedFrom .streamCorruption s t ∧ t.rd = s.rd ∧ t.dist = s.dist) ∧
  (∀ (b0 : Byte) (s : State), s.cmd = none → s.phase = .matchdec → s.csize.toNat = s.inLen.toNat →
    s.inp.filled s.inLen.toNat → readIn s s.rd.toNat = some b0 → (b0 = 0x03#8 ∨ b0 = 0x83#8) →
    ∃ t, step s = .next t ∧ raisedFrom .streamCorruption s t)

/-- R186: one match copy step moves one byte of `OUT` to `OUT[WR]`; every other byte of `OUT` reads as before. -/
def Obligations.MatchCopyMovesOneByte : Prop :=
  ∀ (s : State) (b : Byte), s.cmd = none → s.phase = .matchcopy → 1 ≤ s.cnt.toNat → s.dist.toNat ≤ s.wr.toNat →
    readOut s (s.wr.toNat - s.dist.toNat) = some b → s.wr.toNat < s.dsize.toNat →
    ∃ t, step s = .next t ∧ outByte t s.wr.toNat = some b ∧ t.wr.toNat = s.wr.toNat + 1 ∧
      t.cnt.toNat = s.cnt.toNat - 1 ∧
      (s.cnt.toNat = 1 → t.phase = .loop) ∧ (s.cnt.toNat ≠ 1 → t.phase = .matchcopy) ∧
      (∀ a, a ≠ s.wr.toNat → outByte t a = outByte s a) ∧
      t = { s with out := t.out, wr := t.wr, cnt := t.cnt, phase := t.phase }

/-- R187: the whole copy repeats the `DIST` bytes before it, and changes nothing before it; `RD`, `FW`, `FCNT` stay
(R185). -/
def Obligations.MatchCopyRepeatsPattern : Prop :=
  ∀ s : State, CallInv s → s.cmd = none → s.phase = .matchcopy →
    ∃ t, steps s.cnt.toNat s = .next t ∧ t.phase = .loop ∧ t.cnt.toNat = 0 ∧
      t.wr.toNat = s.wr.toNat + s.cnt.toNat ∧
      (∀ i, i < s.cnt.toNat →
        readOut t (s.wr.toNat + i) = readOut s (s.wr.toNat - s.dist.toNat + i % s.dist.toNat)) ∧
      (∀ a, a < s.wr.toNat → readOut t a = readOut s a) ∧
      t = { s with out := t.out, wr := t.wr, cnt := t.cnt, phase := t.phase }

/-! ## The call -/

/-- R7, R200, R270, R273, R36: from every state in phase `IDLE` with no command pending, and for every buffer of fewer
than `2^32` bytes, a launch answers. It presents exactly the bytes of the buffer and the answer of the environment, makes
`start` pending, changes nothing else, and keeps the invariant. Elsewhere, and for a longer buffer, there is no launch
(log entry 16). -/
def Obligations.LaunchPresentsInput : Prop :=
  ∀ (bytes : List Byte) (granted : Bool) (s : State),
    (s.phase = .idle → s.cmd = none → bytes.length < 2 ^ 32 →
      ∃ t, launch bytes granted s = some t ∧
        t.inLen.toNat = bytes.length ∧ (∀ a, readIn t a = bytes[a]?) ∧ t.allocOk = granted ∧ t.cmd = some .start ∧
        t = { s with inp := t.inp, inLen := t.inLen, allocOk := t.allocOk, cmd := t.cmd } ∧
        (CallInv s → CallInv t)) ∧
    (s.phase ≠ .idle ∨ s.cmd ≠ none ∨ 2 ^ 32 ≤ bytes.length → launch bytes granted s = none)

/-- R200: `start` in phase `IDLE` begins the call and changes nothing else. -/
def Obligations.StartBeginsCall : Prop :=
  ∀ s : State, s.cmd = some .start → s.phase = .idle →
    ∃ t, step s = .next t ∧ t.phase = .header ∧ t.cmd = none ∧ t = { s with phase := t.phase, cmd := t.cmd }

/-- R208: `ack` in phase `DONE` returns the block to `IDLE`, after an error too (R242). That `OUT` is released is read
from the rule's prose (log entry 4). -/
def Obligations.AckReturnsToIdle : Prop :=
  ∀ s : State, s.cmd = some .ack → s.phase = .done →
    ∃ t, step s = .next t ∧ t.phase = .idle ∧ t.cmd = none ∧ t.out = none ∧
      t = { s with phase := t.phase, cmd := t.cmd, out := t.out }

/-- R273: the step refuses exactly a command outside its phase; it refuses nothing else, in any state. -/
def Obligations.RefusesOnlyMisplacedCommands : Prop :=
  ∀ s : State, (∃ r, step s = .refused r) ↔
    ((s.cmd = some .start ∧ s.phase ≠ .idle) ∨ (s.cmd = some .ack ∧ s.phase ≠ .done))

/-- R202: the size check, on naturals. -/
def Obligations.SizeCheckDecides : Prop :=
  ∀ s : State, s.cmd = none → s.phase = .sizechk →
    (s.csize.toNat = s.inLen.toNat → step s = .next { s with phase := .alloc }) ∧
    (s.csize.toNat ≠ s.inLen.toNat → ∃ t, step s = .next t ∧ raisedFrom .sizeMismatch s t)

/-- R203, R204: the allocation, the zero-length short-circuit (with `alloc_ok(0)` true, R13) and entry to the loop. -/
def Obligations.AllocationDecides : Prop :=
  ∀ s : State, s.cmd = none → s.phase = .alloc →
    (s.dsize.toNat ≠ 0 → s.allocOk = false → ∃ t, step s = .next t ∧ raisedFrom .allocationFailure s t) ∧
    (s.dsize.toNat = 0 → ∃ t, step s = .next t ∧ t.phase = .done ∧ t.status = 0#3 ∧ t.outLen.toNat = 0 ∧
      hostOutput t = some [] ∧
      t = { s with phase := t.phase, status := t.status, outLen := t.outLen, out := t.out }) ∧
    (s.dsize.toNat ≠ 0 → s.allocOk = true → ∃ t, step s = .next t ∧ t.phase = .loop ∧ t.rd.toNat = s.hlen.toNat ∧
      t.wr.toNat = 0 ∧ t.fcnt.toNat = 0 ∧ t.out.isSome = true ∧ (∀ a, outByte t a = none) ∧
      t = { s with phase := t.phase, rd := t.rd, wr := t.wr, fcnt := t.fcnt, out := t.out })

/-- R206, R207: the final check. -/
def Obligations.FinalCheckDecides : Prop :=
  ∀ s : State, s.cmd = none → s.phase = .final →
    (s.rd.toNat ≠ s.csize.toNat → ∃ t, step s = .next t ∧ raisedFrom .streamCorruption s t) ∧
    (s.rd.toNat = s.csize.toNat → ∃ t, step s = .next t ∧ t.status = 0#3 ∧ t.outLen = s.dsize ∧ t.phase = .done ∧
      t = { s with status := t.status, outLen := t.outLen, phase := t.phase })

/-! ## Errors -/

/-- R240, R31: `raise` writes the code, no length and phase `DONE`, saves nothing else, and shows the host no output. -/
def Obligations.RaiseEndsCall : Prop :=
  ∀ (k : ErrorKind) (s : State),
    raise k s = { s with status := (raise k s).status, outLen := 0#32, phase := .done } ∧
    (raise k s).status.toNat =
      (match k with
        | .malformedHeader => 1
        | .sizeMismatch => 2
        | .streamCorruption => 3
        | .allocationFailure => 4) ∧
    hostOutput (raise k s) = none ∧ hostResult (raise k s) = some (.error k)

/-- R221 to R224, R31, R220: a step that ends a call writes one of the codes 0 to 4, and each code comes only from the
phases of the rules that raise it. -/
def Obligations.EachCodeFromItsPhases : Prop :=
  ∀ s t : State, step s = .next t → s.phase ≠ .done → t.phase = .done →
    (t.status = 0#3 ∧ (s.phase = .alloc ∨ s.phase = .final)) ∨
    (t.status = 1#3 ∧ s.phase = .header) ∨
    (t.status = 2#3 ∧ s.phase = .sizechk) ∨
    (t.status = 3#3 ∧ (s.phase = .flag ∨ s.phase = .litdec ∨ s.phase = .matchdec ∨ s.phase = .final)) ∨
    (t.status = 4#3 ∧ s.phase = .alloc)

/-- R224: from a state of the invariant with no command pending, the step ends the call with `StreamCorruption` exactly
where one of the thirteen causes holds. -/
def Obligations.StreamCorruptionExactly : Prop :=
  ∀ s : State, CallInv s → calling s →
    ((∃ t, step s = .next t ∧ t.phase = .done ∧ t.status = 3#3) ↔ ∃ c : StreamCause, c.holds s)

/-! ## Whole-machine rules -/

/-- R41, R260: after power-on reset the block is in phase `IDLE` and `OUT` does not exist. That no command is pending, and
that the invariant holds, are the model's choice (DESIGN CHOICE, log entry 1): `cmd` is none there, and the invariant's first
clause holds because no input is presented, `IN` empty and `in_len` 0. The other register values of log entry 1 play no
part. -/
def Obligations.ResetIsIdle : Prop :=
  State.reset.phase = .idle ∧ State.reset.out = none ∧ State.reset.cmd = none ∧ CallInv State.reset

/-- R42: every step keeps the invariant. -/
def Obligations.StepKeepsCallInv : Prop :=
  ∀ s t : State, CallInv s → step s = .next t → CallInv t

/-- R57, R38: from a state of the invariant no step faults: no byte that does not exist is read or written. -/
def Obligations.NoFaultWithinInvariant : Prop :=
  ∀ (s : State) (f : Fault), CallInv s → step s ≠ .fault f

/-- Every step, from every state, keeps both spaces in canonical form. -/
def Obligations.SpacesStayCanonical : Prop :=
  ∀ s t : State, SpacesWf s → step s = .next t → SpacesWf t

/-- R20, R36, R63: no step, from any state, writes `IN`, `in_len` or the allocation answer. -/
def Obligations.StepNeverWritesInput : Prop :=
  ∀ s t : State, step s = .next t → t.inp = s.inp ∧ t.inLen = s.inLen ∧ t.allocOk = s.allocOk

/-- R23, R24, R30: outside phase `HEADER` no step, from any state, writes `CTRL`, `HLEN`, `DSIZE`, `PLEN` or `CSIZE`. -/
def Obligations.HeaderRegistersConstant : Prop :=
  ∀ s t : State, step s = .next t → s.phase ≠ .header →
    t.ctrl = s.ctrl ∧ t.hlen = s.hlen ∧ t.dsize = s.dsize ∧ t.plen = s.plen ∧ t.csize = s.csize

/-- R37, R17: in the phases `LOOP` to `FINAL` a step writes `OUT` at index `WR` only. -/
def Obligations.OutputWrittenAtWriteCursor : Prop :=
  ∀ (s t : State) (a : Nat), step s = .next t → inLoop s.phase = true → a ≠ s.wr.toNat → outByte t a = outByte s a

/-- R21, R22, R134: from a state of the invariant, in the phases `LOOP` to `FINAL`, `RD` never decreases and never
passes `CSIZE`, and `WR` increases by exactly 1 where a byte of `OUT` was written and stays otherwise. -/
def Obligations.CursorsOnlyAdvance : Prop :=
  ∀ s t : State, CallInv s → step s = .next t → inLoop s.phase = true →
    s.rd.toNat ≤ t.rd.toNat ∧ t.rd.toNat ≤ t.csize.toNat ∧
    (t.wr.toNat = s.wr.toNat + 1 ∧ (outByte t s.wr.toNat).isSome = true ∨ t.wr = s.wr ∧ t.out = s.out)

/-- R135: every call ends, within a bound on the number of steps (log entry 7: the step count is the spec's step
granularity, not time). -/
def Obligations.EveryCallEnds : Prop :=
  ∀ s : State, CallInv s → calling s →
    ∃ k t, k ≤ 4 * s.inLen.toNat + 2 ^ 32 + 5 ∧ steps k s = .next t ∧ t.phase = .done

/-- R207, R262: after a successful call the host reads exactly `DSIZE` bytes, those of `OUT`. -/
def Obligations.SuccessHandsOverWholeOutput : Prop :=
  ∀ s : State, CallInv s → s.phase = .done → s.status = 0#3 →
    ∃ bytes, hostOutput s = some bytes ∧ bytes.length = s.dsize.toNat ∧ hostOutLen s = some s.dsize ∧
      ∀ i, i < s.dsize.toNat → bytes[i]? = outByte s i

/-! ## The whole call (R210) -/

/-- R211: the big-step function is total and never reads a byte that does not exist. -/
def Obligations.WholeCallIsTotal : Prop :=
  ∀ (inp : List Byte) (allocOk : Nat → Bool), ∃ r, decodeCall inp allocOk = some r

/-- R211: on `OK` the output has the length that the header declares. -/
def Obligations.OutputHasDeclaredLength : Prop :=
  ∀ (inp out : List Byte) (allocOk : Nat → Bool), decodeCall inp allocOk = some (.ok out) →
    decompressedSize inp = some out.length ∧ compressedSize inp = some inp.length

/-- R210: the step machine computes `decode`. From any state in which the host can launch, with the environment's answer
`alloc_ok(DSIZE)`, the run ends in `DONE` and the host sees the result of the big-step function. -/
def Obligations.StepMachineComputesDecode : Prop :=
  ∀ (inp : List Byte) (allocOk : Nat → Bool) (granted : Bool) (s t : State), allocOk 0 = true →
    (∀ d, decompressedSize inp = some d → granted = allocOk d) →
    CallInv s → launch inp granted s = some t →
    ∃ k u, steps k t = .next u ∧ u.phase = .done ∧ hostResult u = decodeCall inp allocOk

/-- R39, R3: the result of a call does not depend on any earlier call: two instances in any two states that can launch
end the same input, with the same answer, in the same result. -/
def Obligations.CallsForgetThePast : Prop :=
  ∀ (inp : List Byte) (granted : Bool) (s s' t t' : State), CallInv s → CallInv s' →
    launch inp granted s = some t → launch inp granted s' = some t' →
    ∃ k u u', steps k t = .next u ∧ steps k t' = .next u' ∧ u.phase = .done ∧ u'.phase = .done ∧
      hostResult u = hostResult u'

/-- R112, R58: the same payload under a compact and under an extended header decodes to the same result. -/
def Obligations.HeaderShapeDoesNotMatter : Prop :=
  ∀ (c x d p : Byte) (payload : List Byte) (allocOk : Nat → Bool), c.getLsbD 1 = false → x.getLsbD 1 = true →
    decodeCall (c :: d :: p :: payload) allocOk =
      decodeCall (x :: d :: 0#8 :: 0#8 :: 0#8 :: p :: 0#8 :: 0#8 :: 0#8 :: payload) allocOk

/-- R208, R242, R273: from every state in phase `DONE` with no command pending, after an error too, the host can
acknowledge, and after the step that takes it, launch any buffer of fewer than `2^32` bytes and begin the next call.
Elsewhere the host cannot acknowledge (log entry 5). -/
def Obligations.NextCallFollowsDone : Prop :=
  ∀ s : State,
    (s.phase = .done → s.cmd = none → ∀ (bytes : List Byte) (granted : Bool), bytes.length < 2 ^ 32 →
      ∃ u v t w, issueAck s = some u ∧ u = { s with cmd := some .ack } ∧ step u = .next v ∧
        launch bytes granted v = some t ∧ step t = .next w ∧ w.phase = .header ∧ w.cmd = none) ∧
    (s.phase ≠ .done ∨ s.cmd ≠ none → issueAck s = none)
end

