-- ==== Sys2Proof/Laws/Decode.lean ====
section
/-!
SUPPORT. The laws of the decoder: the widths it is asked for, and that it takes every sequence of an item's own width.
-/

namespace Sys2Proof.Laws

/-- The bytes an item needs before its width is known are among its own. -/
theorem firstWidth_le_itemWidth (c : Context) (b0 : Byte) : firstWidth c ≤ itemWidth c b0 := by
  cases c <;> simp only [firstWidth, itemWidth] <;> (try split_ifs) <;> decide

/-- Every item has at least one byte, so the read cursor makes progress (R135). -/
theorem itemWidth_pos (c : Context) (b0 : Byte) : 0 < itemWidth c b0 :=
  lt_of_lt_of_le (by cases c <;> simp [firstWidth]) (firstWidth_le_itemWidth c b0)

/-- The longest item is the extended header. -/
theorem itemWidth_le (c : Context) (b0 : Byte) : itemWidth c b0 ≤ Config.extendedLength := by
  cases c <;> simp only [itemWidth] <;> (try split_ifs) <;> decide

/-- The selector has four values. -/
theorem selector_cases (b0 : Byte) :
    selector b0 = 0#2 ∨ selector b0 = 1#2 ∨ selector b0 = 2#2 ∨ selector b0 = 3#2 := by
  generalize selector b0 = v
  revert v
  decide

/-- A match form of three bytes is `M3` or the reserved pattern, and well formed. -/
theorem decodeM3_wellFormed (v : BitVec 24) :
    (decodeM3 v).WellFormed = true ∧ contextOf (decodeM3 v) = .backref := by
  unfold decodeM3
  split
  · exact ⟨rfl, rfl⟩
  · rename_i h
    exact ⟨by simpa [Instr.WellFormed] using h, rfl⟩

/-- Bytes of exactly an item's width decode to a well-formed item of the family, and nothing is left over (R94). -/
theorem decode_of_width {c : Context} {b0 : Byte} {tl : List Byte} (h : (b0 :: tl).length = itemWidth c b0) :
    ∃ i, decode c (b0 :: tl) = .ok (i, []) ∧ i.WellFormed = true ∧ contextOf i = c := by
  cases c with
  | header =>
    cases hx : extBit b0 with
    | false =>
      rw [itemWidth, hx] at h
      obtain ⟨b1, b2, rfl⟩ := List.length_eq_two.1 (Nat.succ.inj h)
      exact ⟨.hdrC b0 b1 b2, by simp [decode, decodeHeader, hx],
        by simpa [Instr.WellFormed, extBit] using hx, rfl⟩
    | true =>
      rw [itemWidth, hx] at h
      match tl, h with
      | [b1, b2, b3, b4, b5, b6, b7, b8], _ =>
        exact ⟨.hdrX b0 (le32 b1 b2 b3 b4) (le32 b5 b6 b7 b8), by simp [decode, decodeHeader, hx],
          by simpa [Instr.WellFormed, extBit] using hx, rfl⟩
  | flagWord =>
    match tl, h with
    | [b1, b2, b3], _ => exact ⟨.flagw (le32 b0 b1 b2 b3), rfl, rfl, rfl⟩
  | literal =>
    by_cases hz : b0 = 0#8
    · rw [itemWidth, if_pos hz] at h
      match tl, h with
      | [b1, b2, b3, b4], _ =>
        exact ⟨.litL (le32 b1 b2 b3 b4), by simp [decode, decodeLiteral, hz], rfl, rfl⟩
    · rw [itemWidth, if_neg hz] at h
      obtain rfl := List.length_eq_zero_iff.1 (Nat.succ.inj h)
      exact ⟨.litS b0, by simp [decode, decodeLiteral, hz], by simpa [Instr.WellFormed] using hz, rfl⟩
  | backref =>
    rcases selector_cases b0 with hs | hs | hs | hs <;> rw [itemWidth, hs] at h
    · obtain rfl := List.length_eq_zero_iff.1 (Nat.succ.inj h)
      exact ⟨.m1 (b0.extractLsb' 2 6), by simp [decode, decodeMatch, hs], rfl, rfl⟩
    · obtain ⟨b1, rfl⟩ := List.length_eq_one_iff.1 (Nat.succ.inj h)
      exact ⟨.m2a ((le16 b0 b1).extractLsb' 2 14), by simp [decode, decodeMatch, hs], rfl, rfl⟩
    · obtain ⟨b1, rfl⟩ := List.length_eq_one_iff.1 (Nat.succ.inj h)
      exact ⟨.m2b ((le16 b0 b1).extractLsb' 2 4) ((le16 b0 b1).extractLsb' 6 10), by simp [decode, decodeMatch, hs],
        rfl, rfl⟩
    · obtain ⟨b1, b2, rfl⟩ := List.length_eq_two.1 (Nat.succ.inj h)
      exact ⟨decodeM3 (le24 b0 b1 b2), by simp [decode, decodeMatch, hs],
        (decodeM3_wellFormed _).1, (decodeM3_wellFormed _).2⟩

end Sys2Proof.Laws
end

