-- ==== Sys2Proof/Laws/Memory.lean ====
section
/-!
SUPPORT. The laws of memory: read after write, the canonical form, and spaces filled from index 0.
-/

namespace Sys2Proof.Laws

open Sys2Proof.Machine

/-- A write is read back. -/
theorem memRead_memWrite_same (m : Memory) (a : Nat) (b : Byte) : memRead (memWrite m a b) a = some b := by
  induction m with
  | nil => simp [memWrite, memRead]
  | cons c m ih =>
    obtain ⟨k, v⟩ := c
    simp only [memWrite]
    split
    · simp [memRead]
    · split
      · simp [memRead]
      · rename_i h1 h2
        have hne : k ≠ a := fun h => h2 h.symm
        simp [memRead, hne, ih]

/-- A write leaves every other index alone. -/
theorem memRead_memWrite_other (m : Memory) {a a' : Nat} (b : Byte) (h : a' ≠ a) :
    memRead (memWrite m a b) a' = memRead m a' := by
  have hne : a ≠ a' := fun e => h e.symm
  induction m with
  | nil => simp [memWrite, memRead, hne]
  | cons c m ih =>
    obtain ⟨k, v⟩ := c
    simp only [memWrite]
    split
    · simp [memRead, hne]
    · split
      · rename_i h1 h2
        subst h2
        simp [memRead, hne]
      · simp only [memRead, ih]

/-- The indices listed after a write. -/
theorem mem_keys_memWrite {m : Memory} {a x : Nat} {b : Byte} (h : x ∈ (memWrite m a b).map Prod.fst) :
    x = a ∨ x ∈ m.map Prod.fst := by
  induction m with
  | nil => simpa [memWrite] using h
  | cons c m ih =>
    obtain ⟨k, v⟩ := c
    simp only [memWrite] at h
    split at h
    · simpa using h
    · split at h
      · rename_i h2
        simp only [List.map_cons, List.mem_cons] at h ⊢
        tauto
      · simp only [List.map_cons, List.mem_cons] at h ⊢
        rcases h with h | h
        · exact .inr (.inl h)
        · exact (ih h).imp id .inr

/-- A write keeps the canonical form. -/
theorem memWrite_wf {m : Memory} (h : m.wf) (a : Nat) (b : Byte) : (memWrite m a b).wf := by
  induction m with
  | nil => simp [memWrite, Memory.wf]
  | cons c m ih =>
    obtain ⟨k, v⟩ := c
    simp only [Memory.wf, List.map_cons, List.pairwise_cons] at h
    simp only [memWrite]
    split
    · rename_i hlt
      simp only [Memory.wf, List.map_cons, List.pairwise_cons, List.mem_cons]
      exact ⟨fun x hx => hx.elim (· ▸ hlt) (fun hx => hlt.trans (h.1 x hx)), h⟩
    · split
      · rename_i _ heq
        subst heq
        exact List.pairwise_cons.2 h
      · rename_i hnlt hne
        refine List.pairwise_cons.2 ⟨fun x hx => ?_, ih h.2⟩
        rcases mem_keys_memWrite hx with rfl | hx
        · exact lt_of_le_of_ne (not_lt.1 hnlt) (fun e => hne e.symm)
        · exact h.1 x hx

/-- A space with nothing listed is in canonical form. -/
theorem nil_wf : Memory.wf [] := List.Pairwise.nil

/-- A filled space is in canonical form. -/
theorem filled_wf {m : Memory} {n : Nat} (h : m.filled n) : m.wf := by
  rw [Memory.wf, h]
  exact List.pairwise_lt_range

/-- The indices of a space that hold a byte are the listed ones. -/
theorem memRead_isSome_iff (m : Memory) (a : Nat) : (memRead m a).isSome = true ↔ a ∈ m.map Prod.fst := by
  induction m with
  | nil => simp [memRead]
  | cons c m ih =>
    obtain ⟨k, v⟩ := c
    simp only [memRead, List.map_cons, List.mem_cons]
    split
    · rename_i h
      simp [h]
    · rename_i h
      rw [ih]
      exact ⟨.inr, fun h' => h'.resolve_left (fun e => h e.symm)⟩

/-- A filled space holds a byte at every index below its length, and nowhere else. -/
theorem filled_isSome_iff {m : Memory} {n : Nat} (h : m.filled n) (a : Nat) :
    (memRead m a).isSome = true ↔ a < n := by
  rw [memRead_isSome_iff, h, List.mem_range]

/-- A write just past every listed index goes to the end of the list. -/
theorem memWrite_last {m : Memory} {a : Nat} (b : Byte) (h : ∀ x ∈ m.map Prod.fst, x < a) :
    memWrite m a b = m ++ [(a, b)] := by
  induction m with
  | nil => rfl
  | cons c m ih =>
    obtain ⟨k, v⟩ := c
    have hk : k < a := h k (by simp)
    simp only [memWrite, if_neg (Nat.not_lt.2 hk.le), if_neg (Nat.ne_of_gt hk), List.cons_append]
    rw [ih (fun x hx => h x (by simp [hx]))]

/-- A write at the first free index of a filled space fills one more index. -/
theorem memWrite_filled {m : Memory} {n : Nat} (h : m.filled n) (b : Byte) : (memWrite m n b).filled (n + 1) := by
  rw [memWrite_last b (by rw [h]; simp)]
  simp [Memory.filled, h, List.range_succ]

/-- Bytes laid out from index `a` list the indices from `a` on. -/
theorem memOfBytes_keys (bs : List Byte) (a : Nat) :
    (memOfBytes a bs).map Prod.fst = List.range' a bs.length := by
  induction bs generalizing a with
  | nil => rfl
  | cons b bs ih => simp [memOfBytes, ih, List.range'_succ]

/-- A buffer laid out from index 0 is filled. -/
theorem memOfBytes_filled (bs : List Byte) : (memOfBytes 0 bs).filled bs.length := by
  rw [Memory.filled, memOfBytes_keys, List.range_eq_range']

/-- Reading a buffer laid out from index `a`. -/
theorem memRead_memOfBytes (bs : List Byte) (a x : Nat) :
    memRead (memOfBytes a bs) x = if x < a then none else bs[x - a]? := by
  induction bs generalizing a with
  | nil => simp [memOfBytes, memRead]
  | cons b bs ih =>
    simp only [memOfBytes, memRead, ih]
    by_cases h : a = x
    · subst h; simp
    · by_cases h' : x < a
      · simp [h, h', Nat.lt_succ_of_lt h']
      · have h1 : ¬ x < a + 1 := by omega
        have h2 : x - a = (x - (a + 1)) + 1 := by omega
        simp [h, h', h1, h2]

end Sys2Proof.Laws
end

