-- ==== Sys2Proof/Laws/State.lean ====
section
/-!
SUPPORT. The named updates of `State`, field by field: what each writes and that it leaves every other field alone.
-/

namespace Sys2Proof.Laws

open Sys2Proof.Machine

/-! ## `setPhase`: the phase -/

@[simp] theorem setPhase_rd (p : Phase) (s : State) : (setPhase p s).rd = s.rd := rfl
@[simp] theorem setPhase_wr (p : Phase) (s : State) : (setPhase p s).wr = s.wr := rfl
@[simp] theorem setPhase_dsize (p : Phase) (s : State) : (setPhase p s).dsize = s.dsize := rfl
@[simp] theorem setPhase_hlen (p : Phase) (s : State) : (setPhase p s).hlen = s.hlen := rfl
@[simp] theorem setPhase_plen (p : Phase) (s : State) : (setPhase p s).plen = s.plen := rfl
@[simp] theorem setPhase_csize (p : Phase) (s : State) : (setPhase p s).csize = s.csize := rfl
@[simp] theorem setPhase_cnt (p : Phase) (s : State) : (setPhase p s).cnt = s.cnt := rfl
@[simp] theorem setPhase_dist (p : Phase) (s : State) : (setPhase p s).dist = s.dist := rfl
@[simp] theorem setPhase_fw (p : Phase) (s : State) : (setPhase p s).fw = s.fw := rfl
@[simp] theorem setPhase_fcnt (p : Phase) (s : State) : (setPhase p s).fcnt = s.fcnt := rfl
@[simp] theorem setPhase_ctrl (p : Phase) (s : State) : (setPhase p s).ctrl = s.ctrl := rfl
@[simp] theorem setPhase_status (p : Phase) (s : State) : (setPhase p s).status = s.status := rfl
@[simp] theorem setPhase_phase (p : Phase) (s : State) : (setPhase p s).phase = p := rfl
@[simp] theorem setPhase_outLen (p : Phase) (s : State) : (setPhase p s).outLen = s.outLen := rfl
@[simp] theorem setPhase_out (p : Phase) (s : State) : (setPhase p s).out = s.out := rfl
@[simp] theorem setPhase_inp (p : Phase) (s : State) : (setPhase p s).inp = s.inp := rfl
@[simp] theorem setPhase_inLen (p : Phase) (s : State) : (setPhase p s).inLen = s.inLen := rfl
@[simp] theorem setPhase_allocOk (p : Phase) (s : State) : (setPhase p s).allocOk = s.allocOk := rfl
@[simp] theorem setPhase_cmd (p : Phase) (s : State) : (setPhase p s).cmd = s.cmd := rfl

/-! ## `advance`: the read cursor -/

@[simp] theorem advance_rd (k : Nat) (s : State) : (advance k s).rd = s.rd + BitVec.ofNat 32 k := rfl
@[simp] theorem advance_wr (k : Nat) (s : State) : (advance k s).wr = s.wr := rfl
@[simp] theorem advance_dsize (k : Nat) (s : State) : (advance k s).dsize = s.dsize := rfl
@[simp] theorem advance_hlen (k : Nat) (s : State) : (advance k s).hlen = s.hlen := rfl
@[simp] theorem advance_plen (k : Nat) (s : State) : (advance k s).plen = s.plen := rfl
@[simp] theorem advance_csize (k : Nat) (s : State) : (advance k s).csize = s.csize := rfl
@[simp] theorem advance_cnt (k : Nat) (s : State) : (advance k s).cnt = s.cnt := rfl
@[simp] theorem advance_dist (k : Nat) (s : State) : (advance k s).dist = s.dist := rfl
@[simp] theorem advance_fw (k : Nat) (s : State) : (advance k s).fw = s.fw := rfl
@[simp] theorem advance_fcnt (k : Nat) (s : State) : (advance k s).fcnt = s.fcnt := rfl
@[simp] theorem advance_ctrl (k : Nat) (s : State) : (advance k s).ctrl = s.ctrl := rfl
@[simp] theorem advance_status (k : Nat) (s : State) : (advance k s).status = s.status := rfl
@[simp] theorem advance_phase (k : Nat) (s : State) : (advance k s).phase = s.phase := rfl
@[simp] theorem advance_outLen (k : Nat) (s : State) : (advance k s).outLen = s.outLen := rfl
@[simp] theorem advance_out (k : Nat) (s : State) : (advance k s).out = s.out := rfl
@[simp] theorem advance_inp (k : Nat) (s : State) : (advance k s).inp = s.inp := rfl
@[simp] theorem advance_inLen (k : Nat) (s : State) : (advance k s).inLen = s.inLen := rfl
@[simp] theorem advance_allocOk (k : Nat) (s : State) : (advance k s).allocOk = s.allocOk := rfl
@[simp] theorem advance_cmd (k : Nat) (s : State) : (advance k s).cmd = s.cmd := rfl

/-! ## `beginCopy`: the start of a copy -/

@[simp] theorem beginCopy_rd (n : BitVec 32) (p : Phase) (s : State) : (beginCopy n p s).rd = s.rd := rfl
@[simp] theorem beginCopy_wr (n : BitVec 32) (p : Phase) (s : State) : (beginCopy n p s).wr = s.wr := rfl
@[simp] theorem beginCopy_dsize (n : BitVec 32) (p : Phase) (s : State) : (beginCopy n p s).dsize = s.dsize := rfl
@[simp] theorem beginCopy_hlen (n : BitVec 32) (p : Phase) (s : State) : (beginCopy n p s).hlen = s.hlen := rfl
@[simp] theorem beginCopy_plen (n : BitVec 32) (p : Phase) (s : State) : (beginCopy n p s).plen = s.plen := rfl
@[simp] theorem beginCopy_csize (n : BitVec 32) (p : Phase) (s : State) : (beginCopy n p s).csize = s.csize := rfl
@[simp] theorem beginCopy_cnt (n : BitVec 32) (p : Phase) (s : State) : (beginCopy n p s).cnt = n := rfl
@[simp] theorem beginCopy_dist (n : BitVec 32) (p : Phase) (s : State) : (beginCopy n p s).dist = s.dist := rfl
@[simp] theorem beginCopy_fw (n : BitVec 32) (p : Phase) (s : State) : (beginCopy n p s).fw = s.fw := rfl
@[simp] theorem beginCopy_fcnt (n : BitVec 32) (p : Phase) (s : State) : (beginCopy n p s).fcnt = s.fcnt := rfl
@[simp] theorem beginCopy_ctrl (n : BitVec 32) (p : Phase) (s : State) : (beginCopy n p s).ctrl = s.ctrl := rfl
@[simp] theorem beginCopy_status (n : BitVec 32) (p : Phase) (s : State) : (beginCopy n p s).status = s.status := rfl
@[simp] theorem beginCopy_phase (n : BitVec 32) (p : Phase) (s : State) : (beginCopy n p s).phase = p := rfl
@[simp] theorem beginCopy_outLen (n : BitVec 32) (p : Phase) (s : State) : (beginCopy n p s).outLen = s.outLen := rfl
@[simp] theorem beginCopy_out (n : BitVec 32) (p : Phase) (s : State) : (beginCopy n p s).out = s.out := rfl
@[simp] theorem beginCopy_inp (n : BitVec 32) (p : Phase) (s : State) : (beginCopy n p s).inp = s.inp := rfl
@[simp] theorem beginCopy_inLen (n : BitVec 32) (p : Phase) (s : State) : (beginCopy n p s).inLen = s.inLen := rfl
@[simp] theorem beginCopy_allocOk (n : BitVec 32) (p : Phase) (s : State) : (beginCopy n p s).allocOk = s.allocOk := rfl
@[simp] theorem beginCopy_cmd (n : BitVec 32) (p : Phase) (s : State) : (beginCopy n p s).cmd = s.cmd := rfl

/-! ## `raise`: the exception entry -/

@[simp] theorem raise_rd (k : ErrorKind) (s : State) : (raise k s).rd = s.rd := rfl
@[simp] theorem raise_wr (k : ErrorKind) (s : State) : (raise k s).wr = s.wr := rfl
@[simp] theorem raise_dsize (k : ErrorKind) (s : State) : (raise k s).dsize = s.dsize := rfl
@[simp] theorem raise_hlen (k : ErrorKind) (s : State) : (raise k s).hlen = s.hlen := rfl
@[simp] theorem raise_plen (k : ErrorKind) (s : State) : (raise k s).plen = s.plen := rfl
@[simp] theorem raise_csize (k : ErrorKind) (s : State) : (raise k s).csize = s.csize := rfl
@[simp] theorem raise_cnt (k : ErrorKind) (s : State) : (raise k s).cnt = s.cnt := rfl
@[simp] theorem raise_dist (k : ErrorKind) (s : State) : (raise k s).dist = s.dist := rfl
@[simp] theorem raise_fw (k : ErrorKind) (s : State) : (raise k s).fw = s.fw := rfl
@[simp] theorem raise_fcnt (k : ErrorKind) (s : State) : (raise k s).fcnt = s.fcnt := rfl
@[simp] theorem raise_ctrl (k : ErrorKind) (s : State) : (raise k s).ctrl = s.ctrl := rfl
@[simp] theorem raise_status (k : ErrorKind) (s : State) : (raise k s).status = errorCode k := rfl
@[simp] theorem raise_phase (k : ErrorKind) (s : State) : (raise k s).phase = .done := rfl
@[simp] theorem raise_outLen (k : ErrorKind) (s : State) : (raise k s).outLen = 0#32 := rfl
@[simp] theorem raise_out (k : ErrorKind) (s : State) : (raise k s).out = s.out := rfl
@[simp] theorem raise_inp (k : ErrorKind) (s : State) : (raise k s).inp = s.inp := rfl
@[simp] theorem raise_inLen (k : ErrorKind) (s : State) : (raise k s).inLen = s.inLen := rfl
@[simp] theorem raise_allocOk (k : ErrorKind) (s : State) : (raise k s).allocOk = s.allocOk := rfl
@[simp] theorem raise_cmd (k : ErrorKind) (s : State) : (raise k s).cmd = s.cmd := rfl

/-! ## `succeed`: the end of a successful call -/

@[simp] theorem succeed_rd (n : BitVec 32) (s : State) : (succeed n s).rd = s.rd := rfl
@[simp] theorem succeed_wr (n : BitVec 32) (s : State) : (succeed n s).wr = s.wr := rfl
@[simp] theorem succeed_dsize (n : BitVec 32) (s : State) : (succeed n s).dsize = s.dsize := rfl
@[simp] theorem succeed_hlen (n : BitVec 32) (s : State) : (succeed n s).hlen = s.hlen := rfl
@[simp] theorem succeed_plen (n : BitVec 32) (s : State) : (succeed n s).plen = s.plen := rfl
@[simp] theorem succeed_csize (n : BitVec 32) (s : State) : (succeed n s).csize = s.csize := rfl
@[simp] theorem succeed_cnt (n : BitVec 32) (s : State) : (succeed n s).cnt = s.cnt := rfl
@[simp] theorem succeed_dist (n : BitVec 32) (s : State) : (succeed n s).dist = s.dist := rfl
@[simp] theorem succeed_fw (n : BitVec 32) (s : State) : (succeed n s).fw = s.fw := rfl
@[simp] theorem succeed_fcnt (n : BitVec 32) (s : State) : (succeed n s).fcnt = s.fcnt := rfl
@[simp] theorem succeed_ctrl (n : BitVec 32) (s : State) : (succeed n s).ctrl = s.ctrl := rfl
@[simp] theorem succeed_status (n : BitVec 32) (s : State) : (succeed n s).status = statusOk := rfl
@[simp] theorem succeed_phase (n : BitVec 32) (s : State) : (succeed n s).phase = .done := rfl
@[simp] theorem succeed_outLen (n : BitVec 32) (s : State) : (succeed n s).outLen = n := rfl
@[simp] theorem succeed_out (n : BitVec 32) (s : State) : (succeed n s).out = s.out := rfl
@[simp] theorem succeed_inp (n : BitVec 32) (s : State) : (succeed n s).inp = s.inp := rfl
@[simp] theorem succeed_inLen (n : BitVec 32) (s : State) : (succeed n s).inLen = s.inLen := rfl
@[simp] theorem succeed_allocOk (n : BitVec 32) (s : State) : (succeed n s).allocOk = s.allocOk := rfl
@[simp] theorem succeed_cmd (n : BitVec 32) (s : State) : (succeed n s).cmd = s.cmd := rfl

/-! ## `acknowledge`: `ack` -/

@[simp] theorem acknowledge_rd (s : State) : (acknowledge s).rd = s.rd := rfl
@[simp] theorem acknowledge_wr (s : State) : (acknowledge s).wr = s.wr := rfl
@[simp] theorem acknowledge_dsize (s : State) : (acknowledge s).dsize = s.dsize := rfl
@[simp] theorem acknowledge_hlen (s : State) : (acknowledge s).hlen = s.hlen := rfl
@[simp] theorem acknowledge_plen (s : State) : (acknowledge s).plen = s.plen := rfl
@[simp] theorem acknowledge_csize (s : State) : (acknowledge s).csize = s.csize := rfl
@[simp] theorem acknowledge_cnt (s : State) : (acknowledge s).cnt = s.cnt := rfl
@[simp] theorem acknowledge_dist (s : State) : (acknowledge s).dist = s.dist := rfl
@[simp] theorem acknowledge_fw (s : State) : (acknowledge s).fw = s.fw := rfl
@[simp] theorem acknowledge_fcnt (s : State) : (acknowledge s).fcnt = s.fcnt := rfl
@[simp] theorem acknowledge_ctrl (s : State) : (acknowledge s).ctrl = s.ctrl := rfl
@[simp] theorem acknowledge_status (s : State) : (acknowledge s).status = s.status := rfl
@[simp] theorem acknowledge_phase (s : State) : (acknowledge s).phase = .idle := rfl
@[simp] theorem acknowledge_outLen (s : State) : (acknowledge s).outLen = s.outLen := rfl
@[simp] theorem acknowledge_out (s : State) : (acknowledge s).out = none := rfl
@[simp] theorem acknowledge_inp (s : State) : (acknowledge s).inp = s.inp := rfl
@[simp] theorem acknowledge_inLen (s : State) : (acknowledge s).inLen = s.inLen := rfl
@[simp] theorem acknowledge_allocOk (s : State) : (acknowledge s).allocOk = s.allocOk := rfl
@[simp] theorem acknowledge_cmd (s : State) : (acknowledge s).cmd = none := rfl

/-! ## `setDist`: the distance -/

@[simp] theorem setDist_rd (d : BitVec 17) (s : State) : (setDist d s).rd = s.rd := rfl
@[simp] theorem setDist_wr (d : BitVec 17) (s : State) : (setDist d s).wr = s.wr := rfl
@[simp] theorem setDist_dsize (d : BitVec 17) (s : State) : (setDist d s).dsize = s.dsize := rfl
@[simp] theorem setDist_hlen (d : BitVec 17) (s : State) : (setDist d s).hlen = s.hlen := rfl
@[simp] theorem setDist_plen (d : BitVec 17) (s : State) : (setDist d s).plen = s.plen := rfl
@[simp] theorem setDist_csize (d : BitVec 17) (s : State) : (setDist d s).csize = s.csize := rfl
@[simp] theorem setDist_cnt (d : BitVec 17) (s : State) : (setDist d s).cnt = s.cnt := rfl
@[simp] theorem setDist_dist (d : BitVec 17) (s : State) : (setDist d s).dist = d := rfl
@[simp] theorem setDist_fw (d : BitVec 17) (s : State) : (setDist d s).fw = s.fw := rfl
@[simp] theorem setDist_fcnt (d : BitVec 17) (s : State) : (setDist d s).fcnt = s.fcnt := rfl
@[simp] theorem setDist_ctrl (d : BitVec 17) (s : State) : (setDist d s).ctrl = s.ctrl := rfl
@[simp] theorem setDist_status (d : BitVec 17) (s : State) : (setDist d s).status = s.status := rfl
@[simp] theorem setDist_phase (d : BitVec 17) (s : State) : (setDist d s).phase = s.phase := rfl
@[simp] theorem setDist_outLen (d : BitVec 17) (s : State) : (setDist d s).outLen = s.outLen := rfl
@[simp] theorem setDist_out (d : BitVec 17) (s : State) : (setDist d s).out = s.out := rfl
@[simp] theorem setDist_inp (d : BitVec 17) (s : State) : (setDist d s).inp = s.inp := rfl
@[simp] theorem setDist_inLen (d : BitVec 17) (s : State) : (setDist d s).inLen = s.inLen := rfl
@[simp] theorem setDist_allocOk (d : BitVec 17) (s : State) : (setDist d s).allocOk = s.allocOk := rfl
@[simp] theorem setDist_cmd (d : BitVec 17) (s : State) : (setDist d s).cmd = s.cmd := rfl

/-! ## `refillFlags`: the flag-word refill -/

@[simp] theorem refillFlags_rd (w : BitVec 32) (s : State) : (refillFlags w s).rd = s.rd + 4#32 := rfl
@[simp] theorem refillFlags_wr (w : BitVec 32) (s : State) : (refillFlags w s).wr = s.wr := rfl
@[simp] theorem refillFlags_dsize (w : BitVec 32) (s : State) : (refillFlags w s).dsize = s.dsize := rfl
@[simp] theorem refillFlags_hlen (w : BitVec 32) (s : State) : (refillFlags w s).hlen = s.hlen := rfl
@[simp] theorem refillFlags_plen (w : BitVec 32) (s : State) : (refillFlags w s).plen = s.plen := rfl
@[simp] theorem refillFlags_csize (w : BitVec 32) (s : State) : (refillFlags w s).csize = s.csize := rfl
@[simp] theorem refillFlags_cnt (w : BitVec 32) (s : State) : (refillFlags w s).cnt = s.cnt := rfl
@[simp] theorem refillFlags_dist (w : BitVec 32) (s : State) : (refillFlags w s).dist = s.dist := rfl
@[simp] theorem refillFlags_fw (w : BitVec 32) (s : State) : (refillFlags w s).fw = w := rfl
@[simp] theorem refillFlags_fcnt (w : BitVec 32) (s : State) : (refillFlags w s).fcnt = 32#6 := rfl
@[simp] theorem refillFlags_ctrl (w : BitVec 32) (s : State) : (refillFlags w s).ctrl = s.ctrl := rfl
@[simp] theorem refillFlags_status (w : BitVec 32) (s : State) : (refillFlags w s).status = s.status := rfl
@[simp] theorem refillFlags_phase (w : BitVec 32) (s : State) : (refillFlags w s).phase = s.phase := rfl
@[simp] theorem refillFlags_outLen (w : BitVec 32) (s : State) : (refillFlags w s).outLen = s.outLen := rfl
@[simp] theorem refillFlags_out (w : BitVec 32) (s : State) : (refillFlags w s).out = s.out := rfl
@[simp] theorem refillFlags_inp (w : BitVec 32) (s : State) : (refillFlags w s).inp = s.inp := rfl
@[simp] theorem refillFlags_inLen (w : BitVec 32) (s : State) : (refillFlags w s).inLen = s.inLen := rfl
@[simp] theorem refillFlags_allocOk (w : BitVec 32) (s : State) : (refillFlags w s).allocOk = s.allocOk := rfl
@[simp] theorem refillFlags_cmd (w : BitVec 32) (s : State) : (refillFlags w s).cmd = s.cmd := rfl

/-! ## `consumeFlag`: one flag bit -/

@[simp] theorem consumeFlag_rd (s : State) : (consumeFlag s).rd = s.rd := rfl
@[simp] theorem consumeFlag_wr (s : State) : (consumeFlag s).wr = s.wr := rfl
@[simp] theorem consumeFlag_dsize (s : State) : (consumeFlag s).dsize = s.dsize := rfl
@[simp] theorem consumeFlag_hlen (s : State) : (consumeFlag s).hlen = s.hlen := rfl
@[simp] theorem consumeFlag_plen (s : State) : (consumeFlag s).plen = s.plen := rfl
@[simp] theorem consumeFlag_csize (s : State) : (consumeFlag s).csize = s.csize := rfl
@[simp] theorem consumeFlag_cnt (s : State) : (consumeFlag s).cnt = s.cnt := rfl
@[simp] theorem consumeFlag_dist (s : State) : (consumeFlag s).dist = s.dist := rfl
@[simp] theorem consumeFlag_fw (s : State) : (consumeFlag s).fw = s.fw >>> 1 := rfl
@[simp] theorem consumeFlag_fcnt (s : State) : (consumeFlag s).fcnt = s.fcnt - 1#6 := rfl
@[simp] theorem consumeFlag_ctrl (s : State) : (consumeFlag s).ctrl = s.ctrl := rfl
@[simp] theorem consumeFlag_status (s : State) : (consumeFlag s).status = s.status := rfl
@[simp] theorem consumeFlag_phase (s : State) : (consumeFlag s).phase = flagPhase (s.fw.getLsbD 0) := rfl
@[simp] theorem consumeFlag_outLen (s : State) : (consumeFlag s).outLen = s.outLen := rfl
@[simp] theorem consumeFlag_out (s : State) : (consumeFlag s).out = s.out := rfl
@[simp] theorem consumeFlag_inp (s : State) : (consumeFlag s).inp = s.inp := rfl
@[simp] theorem consumeFlag_inLen (s : State) : (consumeFlag s).inLen = s.inLen := rfl
@[simp] theorem consumeFlag_allocOk (s : State) : (consumeFlag s).allocOk = s.allocOk := rfl
@[simp] theorem consumeFlag_cmd (s : State) : (consumeFlag s).cmd = s.cmd := rfl

/-! ## `loadHeader`: the header fields -/

@[simp] theorem loadHeader_rd (c : BitVec 8) (h : BitVec 4) (d p : BitVec 32) (s : State) : (loadHeader c h d p s).rd = s.rd := rfl
@[simp] theorem loadHeader_wr (c : BitVec 8) (h : BitVec 4) (d p : BitVec 32) (s : State) : (loadHeader c h d p s).wr = s.wr := rfl
@[simp] theorem loadHeader_dsize (c : BitVec 8) (h : BitVec 4) (d p : BitVec 32) (s : State) : (loadHeader c h d p s).dsize = d := rfl
@[simp] theorem loadHeader_hlen (c : BitVec 8) (h : BitVec 4) (d p : BitVec 32) (s : State) : (loadHeader c h d p s).hlen = h := rfl
@[simp] theorem loadHeader_plen (c : BitVec 8) (h : BitVec 4) (d p : BitVec 32) (s : State) : (loadHeader c h d p s).plen = p := rfl
@[simp] theorem loadHeader_csize (c : BitVec 8) (h : BitVec 4) (d p : BitVec 32) (s : State) : (loadHeader c h d p s).csize = h.setWidth 33 + p.setWidth 33 := rfl
@[simp] theorem loadHeader_cnt (c : BitVec 8) (h : BitVec 4) (d p : BitVec 32) (s : State) : (loadHeader c h d p s).cnt = s.cnt := rfl
@[simp] theorem loadHeader_dist (c : BitVec 8) (h : BitVec 4) (d p : BitVec 32) (s : State) : (loadHeader c h d p s).dist = s.dist := rfl
@[simp] theorem loadHeader_fw (c : BitVec 8) (h : BitVec 4) (d p : BitVec 32) (s : State) : (loadHeader c h d p s).fw = s.fw := rfl
@[simp] theorem loadHeader_fcnt (c : BitVec 8) (h : BitVec 4) (d p : BitVec 32) (s : State) : (loadHeader c h d p s).fcnt = s.fcnt := rfl
@[simp] theorem loadHeader_ctrl (c : BitVec 8) (h : BitVec 4) (d p : BitVec 32) (s : State) : (loadHeader c h d p s).ctrl = c := rfl
@[simp] theorem loadHeader_status (c : BitVec 8) (h : BitVec 4) (d p : BitVec 32) (s : State) : (loadHeader c h d p s).status = s.status := rfl
@[simp] theorem loadHeader_phase (c : BitVec 8) (h : BitVec 4) (d p : BitVec 32) (s : State) : (loadHeader c h d p s).phase = .sizechk := rfl
@[simp] theorem loadHeader_outLen (c : BitVec 8) (h : BitVec 4) (d p : BitVec 32) (s : State) : (loadHeader c h d p s).outLen = s.outLen := rfl
@[simp] theorem loadHeader_out (c : BitVec 8) (h : BitVec 4) (d p : BitVec 32) (s : State) : (loadHeader c h d p s).out = s.out := rfl
@[simp] theorem loadHeader_inp (c : BitVec 8) (h : BitVec 4) (d p : BitVec 32) (s : State) : (loadHeader c h d p s).inp = s.inp := rfl
@[simp] theorem loadHeader_inLen (c : BitVec 8) (h : BitVec 4) (d p : BitVec 32) (s : State) : (loadHeader c h d p s).inLen = s.inLen := rfl
@[simp] theorem loadHeader_allocOk (c : BitVec 8) (h : BitVec 4) (d p : BitVec 32) (s : State) : (loadHeader c h d p s).allocOk = s.allocOk := rfl
@[simp] theorem loadHeader_cmd (c : BitVec 8) (h : BitVec 4) (d p : BitVec 32) (s : State) : (loadHeader c h d p s).cmd = s.cmd := rfl

/-! ## `byteDone`: one output byte -/

@[simp] theorem byteDone_rd (m : Memory) (s : State) : (byteDone m s).rd = s.rd := rfl
@[simp] theorem byteDone_wr (m : Memory) (s : State) : (byteDone m s).wr = s.wr + 1#32 := rfl
@[simp] theorem byteDone_dsize (m : Memory) (s : State) : (byteDone m s).dsize = s.dsize := rfl
@[simp] theorem byteDone_hlen (m : Memory) (s : State) : (byteDone m s).hlen = s.hlen := rfl
@[simp] theorem byteDone_plen (m : Memory) (s : State) : (byteDone m s).plen = s.plen := rfl
@[simp] theorem byteDone_csize (m : Memory) (s : State) : (byteDone m s).csize = s.csize := rfl
@[simp] theorem byteDone_cnt (m : Memory) (s : State) : (byteDone m s).cnt = s.cnt - 1#32 := rfl
@[simp] theorem byteDone_dist (m : Memory) (s : State) : (byteDone m s).dist = s.dist := rfl
@[simp] theorem byteDone_fw (m : Memory) (s : State) : (byteDone m s).fw = s.fw := rfl
@[simp] theorem byteDone_fcnt (m : Memory) (s : State) : (byteDone m s).fcnt = s.fcnt := rfl
@[simp] theorem byteDone_ctrl (m : Memory) (s : State) : (byteDone m s).ctrl = s.ctrl := rfl
@[simp] theorem byteDone_status (m : Memory) (s : State) : (byteDone m s).status = s.status := rfl
@[simp] theorem byteDone_phase (m : Memory) (s : State) : (byteDone m s).phase = if s.cnt - 1#32 = 0#32 then .loop else s.phase := rfl
@[simp] theorem byteDone_outLen (m : Memory) (s : State) : (byteDone m s).outLen = s.outLen := rfl
@[simp] theorem byteDone_out (m : Memory) (s : State) : (byteDone m s).out = some m := rfl
@[simp] theorem byteDone_inp (m : Memory) (s : State) : (byteDone m s).inp = s.inp := rfl
@[simp] theorem byteDone_inLen (m : Memory) (s : State) : (byteDone m s).inLen = s.inLen := rfl
@[simp] theorem byteDone_allocOk (m : Memory) (s : State) : (byteDone m s).allocOk = s.allocOk := rfl
@[simp] theorem byteDone_cmd (m : Memory) (s : State) : (byteDone m s).cmd = s.cmd := rfl

/-! ## `beginCall`: `start` -/

@[simp] theorem beginCall_rd (s : State) : (beginCall s).rd = s.rd := rfl
@[simp] theorem beginCall_wr (s : State) : (beginCall s).wr = s.wr := rfl
@[simp] theorem beginCall_dsize (s : State) : (beginCall s).dsize = s.dsize := rfl
@[simp] theorem beginCall_hlen (s : State) : (beginCall s).hlen = s.hlen := rfl
@[simp] theorem beginCall_plen (s : State) : (beginCall s).plen = s.plen := rfl
@[simp] theorem beginCall_csize (s : State) : (beginCall s).csize = s.csize := rfl
@[simp] theorem beginCall_cnt (s : State) : (beginCall s).cnt = s.cnt := rfl
@[simp] theorem beginCall_dist (s : State) : (beginCall s).dist = s.dist := rfl
@[simp] theorem beginCall_fw (s : State) : (beginCall s).fw = s.fw := rfl
@[simp] theorem beginCall_fcnt (s : State) : (beginCall s).fcnt = s.fcnt := rfl
@[simp] theorem beginCall_ctrl (s : State) : (beginCall s).ctrl = s.ctrl := rfl
@[simp] theorem beginCall_status (s : State) : (beginCall s).status = s.status := rfl
@[simp] theorem beginCall_phase (s : State) : (beginCall s).phase = .header := rfl
@[simp] theorem beginCall_outLen (s : State) : (beginCall s).outLen = s.outLen := rfl
@[simp] theorem beginCall_out (s : State) : (beginCall s).out = s.out := rfl
@[simp] theorem beginCall_inp (s : State) : (beginCall s).inp = s.inp := rfl
@[simp] theorem beginCall_inLen (s : State) : (beginCall s).inLen = s.inLen := rfl
@[simp] theorem beginCall_allocOk (s : State) : (beginCall s).allocOk = s.allocOk := rfl
@[simp] theorem beginCall_cmd (s : State) : (beginCall s).cmd = none := rfl

/-! ## `createOutput`: the allocation -/

@[simp] theorem createOutput_rd (s : State) : (createOutput s).rd = s.rd := rfl
@[simp] theorem createOutput_wr (s : State) : (createOutput s).wr = s.wr := rfl
@[simp] theorem createOutput_dsize (s : State) : (createOutput s).dsize = s.dsize := rfl
@[simp] theorem createOutput_hlen (s : State) : (createOutput s).hlen = s.hlen := rfl
@[simp] theorem createOutput_plen (s : State) : (createOutput s).plen = s.plen := rfl
@[simp] theorem createOutput_csize (s : State) : (createOutput s).csize = s.csize := rfl
@[simp] theorem createOutput_cnt (s : State) : (createOutput s).cnt = s.cnt := rfl
@[simp] theorem createOutput_dist (s : State) : (createOutput s).dist = s.dist := rfl
@[simp] theorem createOutput_fw (s : State) : (createOutput s).fw = s.fw := rfl
@[simp] theorem createOutput_fcnt (s : State) : (createOutput s).fcnt = s.fcnt := rfl
@[simp] theorem createOutput_ctrl (s : State) : (createOutput s).ctrl = s.ctrl := rfl
@[simp] theorem createOutput_status (s : State) : (createOutput s).status = s.status := rfl
@[simp] theorem createOutput_phase (s : State) : (createOutput s).phase = s.phase := rfl
@[simp] theorem createOutput_outLen (s : State) : (createOutput s).outLen = s.outLen := rfl
@[simp] theorem createOutput_out (s : State) : (createOutput s).out = some [] := rfl
@[simp] theorem createOutput_inp (s : State) : (createOutput s).inp = s.inp := rfl
@[simp] theorem createOutput_inLen (s : State) : (createOutput s).inLen = s.inLen := rfl
@[simp] theorem createOutput_allocOk (s : State) : (createOutput s).allocOk = s.allocOk := rfl
@[simp] theorem createOutput_cmd (s : State) : (createOutput s).cmd = s.cmd := rfl

/-! ## `enterLoop`: entry to the token loop -/

@[simp] theorem enterLoop_rd (s : State) : (enterLoop s).rd = s.hlen.setWidth 32 := rfl
@[simp] theorem enterLoop_wr (s : State) : (enterLoop s).wr = 0#32 := rfl
@[simp] theorem enterLoop_dsize (s : State) : (enterLoop s).dsize = s.dsize := rfl
@[simp] theorem enterLoop_hlen (s : State) : (enterLoop s).hlen = s.hlen := rfl
@[simp] theorem enterLoop_plen (s : State) : (enterLoop s).plen = s.plen := rfl
@[simp] theorem enterLoop_csize (s : State) : (enterLoop s).csize = s.csize := rfl
@[simp] theorem enterLoop_cnt (s : State) : (enterLoop s).cnt = s.cnt := rfl
@[simp] theorem enterLoop_dist (s : State) : (enterLoop s).dist = s.dist := rfl
@[simp] theorem enterLoop_fw (s : State) : (enterLoop s).fw = s.fw := rfl
@[simp] theorem enterLoop_fcnt (s : State) : (enterLoop s).fcnt = 0#6 := rfl
@[simp] theorem enterLoop_ctrl (s : State) : (enterLoop s).ctrl = s.ctrl := rfl
@[simp] theorem enterLoop_status (s : State) : (enterLoop s).status = s.status := rfl
@[simp] theorem enterLoop_phase (s : State) : (enterLoop s).phase = .loop := rfl
@[simp] theorem enterLoop_outLen (s : State) : (enterLoop s).outLen = s.outLen := rfl
@[simp] theorem enterLoop_out (s : State) : (enterLoop s).out = s.out := rfl
@[simp] theorem enterLoop_inp (s : State) : (enterLoop s).inp = s.inp := rfl
@[simp] theorem enterLoop_inLen (s : State) : (enterLoop s).inLen = s.inLen := rfl
@[simp] theorem enterLoop_allocOk (s : State) : (enterLoop s).allocOk = s.allocOk := rfl
@[simp] theorem enterLoop_cmd (s : State) : (enterLoop s).cmd = s.cmd := rfl

end Sys2Proof.Laws
end

