-- ==== Sys2Proof/Laws/Ops.lean ====
section
/-!
SUPPORT. One lemma per shared operation that says everything it can do; later proofs cite these and unfold nothing.
-/

namespace Sys2Proof.Laws

open Sys2Proof.Machine

/-! ## Reading `IN` -/

/-- A byte of `IN` exists below `in_len` only. -/
theorem readIn_lt {s : State} {a : Nat} {b : Byte} (h : readIn s a = some b) : a < s.inLen.toNat := by
  unfold readIn at h
  split at h
  · assumption
  · cases h

/-- Where the host presented every byte, each index below `in_len` reads. -/
theorem readIn_of_filled {s : State} (h : s.inp.filled s.inLen.toNat) {a : Nat} (ha : a < s.inLen.toNat) :
    ∃ b, readIn s a = some b := by
  rw [readIn, if_pos ha]
  exact Option.isSome_iff_exists.1 ((filled_isSome_iff h a).2 ha)

/-- A run of `IN` has the asked length, and byte `k` of it is `IN[a + k]`. -/
theorem readInRun_spec {s : State} {n a : Nat} {bs : List Byte} (h : readInRun s a n = some bs) :
    bs.length = n ∧ ∀ k, k < n → readIn s (a + k) = bs[k]? := by
  induction n generalizing a bs with
  | zero => cases h; simp
  | succ n ih =>
    rw [readInRun] at h
    cases hb : readIn s a with
    | none => rw [hb] at h; cases h
    | some b =>
      rw [hb] at h
      obtain ⟨tl, htl, rfl⟩ := Option.map_eq_some_iff.1 h
      obtain ⟨hlen, hget⟩ := ih htl
      refine ⟨by simp [hlen], fun k hk => ?_⟩
      cases k with
      | zero => simpa using hb
      | succ k =>
        rw [List.getElem?_cons_succ, ← hget k (by omega), Nat.add_assoc, Nat.add_comm 1 k]

/-- A run that exists begins with the byte at its first index. -/
theorem readInRun_head {s : State} {n a : Nat} {b : Byte} {bs : List Byte} (h : readInRun s a (n + 1) = some bs)
    (hb : readIn s a = some b) : ∃ tl, bs = b :: tl ∧ tl.length = n := by
  rw [readInRun, hb] at h
  obtain ⟨tl, htl, rfl⟩ := Option.map_eq_some_iff.1 h
  exact ⟨tl, rfl, (readInRun_spec htl).1⟩

/-- Where the host presented every byte, a run within `in_len` exists. -/
theorem readInRun_of_filled {s : State} (h : s.inp.filled s.inLen.toNat) {n a : Nat} (ha : a + n ≤ s.inLen.toNat) :
    ∃ bs, readInRun s a n = some bs := by
  induction n generalizing a with
  | zero => exact ⟨[], rfl⟩
  | succ n ih =>
    obtain ⟨b, hb⟩ := readIn_of_filled h (show a < s.inLen.toNat by omega)
    obtain ⟨tl, htl⟩ := ih (show a + 1 + n ≤ s.inLen.toNat by omega)
    exact ⟨b :: tl, by rw [readInRun, hb]; simp [htl]⟩

/-! ## Token checks -/

theorem inputShort_iff (k : Nat) (s : State) : inputShort k s = true ↔ s.csize.toNat < s.rd.toNat + k := by
  simp [inputShort]

/-- R152: the run starts if it fits both buffers, and raises otherwise. -/
theorem startLiteral_cases (n : BitVec 32) (s : State) :
    (n.toNat ≤ outputLeft s ∧ n.toNat ≤ inputLeft s ∧ startLiteral n s = beginCopy n .litcopy s) ∨
    ((outputLeft s < n.toNat ∨ inputLeft s < n.toNat) ∧ startLiteral n s = raise .streamCorruption s) := by
  unfold startLiteral
  split
  · exact .inr ⟨.inl ‹_›, rfl⟩
  · split
    · exact .inr ⟨.inr ‹_›, rfl⟩
    · exact .inl ⟨not_lt.1 ‹_›, not_lt.1 ‹_›, rfl⟩

/-- R170, R171: the match starts if its source is written output and its length fits, and raises otherwise. -/
theorem startMatch_cases (len : BitVec 32) (s : State) :
    (s.dist ≠ 0#17 ∧ s.dist.toNat ≤ s.wr.toNat ∧ len.toNat ≤ outputLeft s ∧
      startMatch len s = beginCopy len .matchcopy s) ∨
    ((s.dist = 0#17 ∨ s.wr.toNat < s.dist.toNat ∨ outputLeft s < len.toNat) ∧
      startMatch len s = raise .streamCorruption s) := by
  unfold startMatch
  split
  · exact .inr ⟨.inl ‹_›, rfl⟩
  · split
    · exact .inr ⟨.inr (.inl ‹_›), rfl⟩
    · split
      · exact .inr ⟨.inr (.inr ‹_›), rfl⟩
      · exact .inl ⟨‹_›, not_lt.1 ‹_›, not_lt.1 ‹_›, rfl⟩

/-- R165, then R170 and R171: a match token of `w` bytes. -/
theorem matchToken_cases (w : Nat) (d : BitVec 17) (len : BitVec 32) (s : State) :
    (s.rd.toNat + w ≤ s.csize.toNat ∧ d ≠ 0#17 ∧ d.toNat ≤ s.wr.toNat ∧ len.toNat ≤ outputLeft s ∧
      matchToken w d len s = beginCopy len .matchcopy (advance w (setDist d s))) ∨
    (s.csize.toNat < s.rd.toNat + w ∧ matchToken w d len s = raise .streamCorruption s) ∨
    (s.rd.toNat + w ≤ s.csize.toNat ∧ (d = 0#17 ∨ s.wr.toNat < d.toNat ∨ outputLeft s < len.toNat) ∧
      matchToken w d len s = raise .streamCorruption (advance w (setDist d s))) := by
  unfold matchToken
  split
  · exact .inr (.inl ⟨(inputShort_iff w s).1 ‹_›, rfl⟩)
  · rename_i hn
    have hw : s.rd.toNat + w ≤ s.csize.toNat := not_lt.1 (fun h => hn ((inputShort_iff w s).2 h))
    rcases startMatch_cases len (advance w (setDist d s)) with ⟨h1, h2, h3, h4⟩ | ⟨h1, h2⟩
    · exact .inl ⟨hw, h1, h2, h3, h4⟩
    · exact .inr (.inr ⟨hw, h1, h2⟩)

/-! ## Byte moves -/

/-- A byte put is a write of `OUT[WR]`, with `OUT` there and `WR` below `DSIZE`. -/
theorem putByte_next {b : Byte} {s t : State} (h : putByte b s = .next t) :
    ∃ m, s.out = some m ∧ s.wr.toNat < s.dsize.toNat ∧ t = byteDone (memWrite m s.wr.toNat b) s := by
  unfold putByte at h
  split at h
  · cases h
  · rename_i m hm
    split at h
    · injection h with h
      exact ⟨m, hm, ‹_›, h.symm⟩
    · cases h

/-- One literal copy step (R153). -/
theorem literalCopyStep_next {s t : State} (h : literalCopyStep s = .next t) :
    s.cnt ≠ 0#32 ∧ ∃ b m, readIn s s.rd.toNat = some b ∧ s.out = some m ∧ s.wr.toNat < s.dsize.toNat ∧
      t = byteDone (memWrite m s.wr.toNat b) (advance 1 s) := by
  unfold literalCopyStep at h
  split at h
  · cases h
  · split at h
    · cases h
    · rename_i hc _ b hb
      obtain ⟨m, hm, hw, rfl⟩ := putByte_next h
      exact ⟨hc, b, m, hb, hm, hw, rfl⟩

/-- One match copy step (R186). -/
theorem matchCopyStep_next {s t : State} (h : matchCopyStep s = .next t) :
    s.cnt ≠ 0#32 ∧ s.dist.toNat ≤ s.wr.toNat ∧ ∃ b m, readOut s (s.wr.toNat - s.dist.toNat) = some b ∧
      s.out = some m ∧ s.wr.toNat < s.dsize.toNat ∧ t = byteDone (memWrite m s.wr.toNat b) s := by
  unfold matchCopyStep at h
  split at h
  · cases h
  · split at h
    · cases h
    · rename_i hc hd
      split at h
      · cases h
      · cases h
      · rename_i b _ hb
        obtain ⟨m, hm, hw, rfl⟩ := putByte_next h
        exact ⟨hc, not_lt.1 hd, b, m, hb, hm, hw, rfl⟩

/-! ## The fetch -/

/-- What the fetch of a family can answer: the family's error where the item is cut short, the item that its bytes
decode to, or a fault where `IN` has no byte that the limit promises. -/
theorem fetch_cases (c : Context) (s : State) :
    (readLimit c s < itemStart c s + firstWidth c ∧ fetch c s = .answer (.next (raise (cutKind c) s))) ∨
    (∃ b0, readIn s (itemStart c s) = some b0 ∧ readLimit c s < itemStart c s + itemWidth c b0 ∧
      fetch c s = .answer (.next (raise (cutKind c) s))) ∨
    (∃ b0 tl i, readIn s (itemStart c s) = some b0 ∧ itemStart c s + itemWidth c b0 ≤ readLimit c s ∧
      readInRun s (itemStart c s) (itemWidth c b0) = some (b0 :: tl) ∧ decode c (b0 :: tl) = .ok (i, []) ∧
      i.WellFormed = true ∧ contextOf i = c ∧ fetch c s = .run i) ∨
    (itemStart c s + firstWidth c ≤ readLimit c s ∧ fetch c s = .answer (.fault .inputByteAbsent)) := by
  unfold fetch
  split
  · exact .inl ⟨‹_›, rfl⟩
  · rename_i hf
    have hf' := not_lt.1 hf
    split
    · exact .inr (.inr (.inr ⟨hf', rfl⟩))
    · rename_i b0 hb
      split
      · exact .inr (.inl ⟨b0, hb, ‹_›, rfl⟩)
      · rename_i hw
        split
        · exact .inr (.inr (.inr ⟨hf', rfl⟩))
        · rename_i bs hbs
          obtain ⟨n, hn⟩ := Nat.exists_eq_succ_of_ne_zero (itemWidth_pos c b0).ne'
          obtain ⟨tl, rfl, htl⟩ := readInRun_head (hn ▸ hbs) hb
          obtain ⟨i, hi, hwf, hc⟩ := decode_of_width (c := c) (b0 := b0) (tl := tl) (by simp [htl, hn])
          exact .inr (.inr (.inl ⟨b0, tl, i, hb, not_lt.1 hw, hbs, hi, hwf, hc, by simp [decodeWhole, hi]⟩))

end Sys2Proof.Laws
end

