-- ==== Sys2Proof/Laws/PerInstr.lean ====
section
/-!
SUPPORT. Statements about every item as syntax, one lemma per constructor.
-/

namespace Sys2Proof.Laws

/-- The bytes of an item of each form, less a run's data (R80, R86, R87, R97). -/
def formBytes : Instr → Nat
  | .hdrC _ _ _ => 3
  | .hdrX _ _ _ => 9
  | .flagw _ => 4
  | .litS _ => 1
  | .litL _ => 5
  | .m1 _ => 1
  | .m2a _ => 2
  | .m2b _ _ => 2
  | .m3Rsvd _ => 3
  | .m3 _ _ => 3

/-- A well-formed item is encoded in the bytes its form has (R80). -/
def EncodedLength.Statement (i : Instr) : Prop := i.WellFormed = true → (encode i).length = formBytes i

theorem EncodedLength.hdrC (ctrl dlen plen : BitVec 8) : EncodedLength.Statement (.hdrC ctrl dlen plen) := fun _ => rfl
theorem EncodedLength.hdrX (ctrl : BitVec 8) (dlen plen : BitVec 32) :
    EncodedLength.Statement (.hdrX ctrl dlen plen) := fun _ => rfl
theorem EncodedLength.flagw (flags : BitVec 32) : EncodedLength.Statement (.flagw flags) := fun _ => rfl
theorem EncodedLength.litS (n : BitVec 8) : EncodedLength.Statement (.litS n) := fun _ => rfl
theorem EncodedLength.litL (n : BitVec 32) : EncodedLength.Statement (.litL n) := fun _ => rfl
theorem EncodedLength.m1 (d : BitVec 6) : EncodedLength.Statement (.m1 d) := fun _ => rfl
theorem EncodedLength.m2a (d : BitVec 14) : EncodedLength.Statement (.m2a d) := fun _ => rfl
theorem EncodedLength.m2b (l : BitVec 4) (d : BitVec 10) : EncodedLength.Statement (.m2b l d) := fun _ => rfl
theorem EncodedLength.m3Rsvd (d : BitVec 17) : EncodedLength.Statement (.m3Rsvd d) := fun _ => rfl
theorem EncodedLength.m3 (l : BitVec 5) (d : BitVec 17) : EncodedLength.Statement (.m3 l d) := fun _ => rfl

end Sys2Proof.Laws
end

