-- ==== Sys2Proof/Laws/Step.lean ====
section
/-!
SUPPORT. What a step can do, said once: every meaning answers a next state, and the inversion of one step.
-/

namespace Sys2Proof.Laws

open Sys2Proof.Machine

/-- No meaning stops: every item answers a next state, an error being one (R211: "it is total"). -/
theorem exec_next (i : Instr) (s : State) : ∃ t, exec i s = .next t := by
  cases i <;> simp only [exec, execHdrC, execHdrX, execFlagw, execLitS, execLitL, execM1, execM2a, execM2b,
    execM3Rsvd, execM3] <;> (try split_ifs) <;> exact ⟨_, rfl⟩

/-- With no command pending, a step is the phase's own move. -/
theorem step_of_no_command {s : State} (h : s.cmd = none) :
    step s = match phaseAction s with
      | .run i => exec i s
      | .answer o => o := by
  cases hp : phaseAction s <;> simp only [step, action, h, hp]

/-! ## The host's moves -/

/-- Everything a launch can do: when it answers, and the state it answers. -/
theorem launch_eq_some_iff {bytes : List Byte} {granted : Bool} {s t : State} :
    launch bytes granted s = some t ↔
      (s.phase = .idle ∧ s.cmd = none ∧ bytes.length < Config.inputLimit) ∧
      t = { s with
        inp := memOfBytes 0 bytes
        inLen := BitVec.ofNat 32 bytes.length
        allocOk := granted
        cmd := some .start } := by
  unfold launch
  split <;> simp_all [eq_comm]

/-- Everything an acknowledgement can do: when the host can issue it, and the state that leaves. -/
theorem issueAck_eq_some_iff {s t : State} :
    issueAck s = some t ↔ (s.phase = .done ∧ s.cmd = none) ∧ t = { s with cmd := some .ack } := by
  unfold issueAck
  split <;> simp_all [eq_comm]

/-! ## The step with and without a command -/

/-- With a command pending, a step takes it. -/
theorem step_of_command {s : State} {c : Command} (h : s.cmd = some c) : step s = hostCommand c s := by
  simp only [step, action, h]

/-- A command that has its effect. -/
theorem hostCommand_next {c : Command} {s t : State} (h : hostCommand c s = .next t) :
    (c = .start ∧ s.phase = .idle ∧ t = beginCall s) ∨ (c = .ack ∧ s.phase = .done ∧ t = acknowledge s) := by
  cases c with
  | start =>
    simp only [hostCommand] at h
    split at h
    · injection h with h
      exact .inl ⟨rfl, ‹_›, h.symm⟩
    · cases h
  | ack =>
    simp only [hostCommand] at h
    split at h
    · injection h with h
      exact .inr ⟨rfl, ‹_›, h.symm⟩
    · cases h

/-- A step in a phase where an item of family `c` is due. -/
theorem step_due {c : Context} {s : State} (hc : s.cmd = none) (hp : s.phase = duePhase c)
    (hf : c = .flagWord → s.fcnt = 0#6) :
    step s = match fetch c s with
      | .run i => exec i s
      | .answer o => o := by
  rw [step_of_no_command hc, phaseAction, hp]
  cases c with
  | flagWord => simp only [duePhase, hf rfl, if_true]
  | header => rfl
  | literal => rfl
  | backref => rfl

/-- An item that is due: its step runs it or raises its family's error. -/
inductive ItemStep (s t : State) : Prop where
  /-- the item is cut short -/
  | cut (c : Context) (hp : s.phase = duePhase c) (hf : c = .flagWord → s.fcnt = 0#6)
      (ht : t = raise (cutKind c) s)
  /-- the item is whole and runs -/
  | ran (c : Context) (i : Instr) (hp : s.phase = duePhase c) (hf : c = .flagWord → s.fcnt = 0#6)
      (hi : fetch c s = .run i) (ht : exec i s = .next t)

/-- Everything a step that answers a next state can have been. -/
theorem step_cases {s t : State} (h : step s = .next t) :
    (s.cmd = some .start ∧ s.phase = .idle ∧ t = beginCall s) ∨
    (s.cmd = some .ack ∧ s.phase = .done ∧ t = acknowledge s) ∨
    (s.cmd = none ∧ (
      ((s.phase = .idle ∨ s.phase = .done) ∧ t = s) ∨
      (s.phase = .sizechk ∧ t = sizeCheck s) ∨
      (s.phase = .alloc ∧ t = allocate s) ∨
      (s.phase = .loop ∧ t = loopTest s) ∨
      (s.phase = .flag ∧ s.fcnt ≠ 0#6 ∧ t = consumeFlag s) ∨
      (s.phase = .litcopy ∧ literalCopyStep s = .next t) ∨
      (s.phase = .matchcopy ∧ matchCopyStep s = .next t) ∨
      (s.phase = .final ∧ t = finalCheck s) ∨
      ItemStep s t)) := by
  cases hc : s.cmd with
  | some c =>
    rw [step_of_command hc] at h
    rcases hostCommand_next h with ⟨rfl, hp, ht⟩ | ⟨rfl, hp, ht⟩
    · exact .inl ⟨rfl, hp, ht⟩
    · exact .inr (.inl ⟨rfl, hp, ht⟩)
  | none =>
    refine .inr (.inr ⟨rfl, ?_⟩)
    have item : ∀ c : Context, s.phase = duePhase c → (c = .flagWord → s.fcnt = 0#6) → ItemStep s t := by
      intro c hp hf
      rw [step_due hc hp hf] at h
      rcases fetch_cases c s with ⟨_, hx⟩ | ⟨_, _, _, hx⟩ | ⟨_, _, i, _, _, _, _, _, _, hx⟩ | ⟨_, hx⟩ <;>
        simp only [hx] at h
      · injection h with h
        exact .cut c hp hf h.symm
      · injection h with h
        exact .cut c hp hf h.symm
      · exact .ran c i hp hf hx h
      · cases h
    have h' := h
    rw [step_of_no_command hc, phaseAction] at h'
    cases hp : s.phase <;> simp only [hp] at h'
    case header => simpa [hp] using item .header hp (by simp)
    case litdec => simpa [hp] using item .literal hp (by simp)
    case matchdec => simpa [hp] using item .backref hp (by simp)
    case flag =>
      by_cases hz : s.fcnt = 0#6
      · simpa [hp, hz] using item .flagWord hp (fun _ => hz)
      · rw [if_neg hz] at h'
        injection h' with h'
        simp [hz, h'.symm]
    case litcopy => simp [h']
    case matchcopy => simp [h']
    all_goals
      injection h' with h'
      simp [h'.symm]

end Sys2Proof.Laws
end

