-- ==== Sys2Proof/Tests/Slice0.lean ====
section
/-!
SUPPORT. The model's own tests. Expected values come from 95_test_vectors.md (ids S, VH, VL, VM, VC, P) and from the
examples of the rules; the witnesses show that the hypotheses of each statement can be met.
-/

namespace Sys2Proof.Tests

open Sys2Proof.Machine

/-! ## Well-formedness: an ill-formed term for each check -/

theorem test_wf_hdrC_ext_set : (Instr.hdrC 0x02 0 0).WellFormed = false := by decide
theorem test_wf_hdrC : (Instr.hdrC 0xFD 0 0).WellFormed = true := by decide
theorem test_wf_hdrX_ext_clear : (Instr.hdrX 0x01 0 0).WellFormed = false := by decide
theorem test_wf_hdrX : (Instr.hdrX 0xFF 0 0).WellFormed = true := by decide
theorem test_wf_litS_zero : (Instr.litS 0).WellFormed = false := by decide
theorem test_wf_litS : (Instr.litS 255).WellFormed = true := by decide
theorem test_wf_m3_length_zero : (Instr.m3 0 1).WellFormed = false := by decide
theorem test_wf_m3 : (Instr.m3 31 131071).WellFormed = true := by decide

/-! ## Decoding, each word written out from the encoding tables -/

/-- R82: `ccccc c0c DDDDDDDD PPPPPPPP`, S11. -/
theorem test_decode_hdrC : decode .header [0b11111101, 0xFF, 0xFF] = .ok (.hdrC 0xFD 255 255, []) := by rfl
/-- R83, S11: `DLEN = 0x00011191`, `PLEN = 0x0001117C`. -/
theorem test_decode_hdrX :
    decode .header [0b00000010, 0x91, 0x11, 0x01, 0x00, 0x7C, 0x11, 0x01, 0x00] =
      .ok (.hdrX 0x02 70033 70012, []) := by rfl
/-- R84: the first byte holds the flags of tokens 0 to 7. -/
theorem test_decode_flagw : decode .flagWord [0xFE, 0xFF, 0xFF, 0x7F] = .ok (.flagw 0x7FFFFFFE, []) := by rfl
/-- R86: any first byte but the sentinel; the data bytes are left over. -/
theorem test_decode_litS : decode .literal [0xC8, 0x07] = .ok (.litS 200, [0x07]) := by rfl
/-- R87, R151: `00 2C 01 00 00` gives 300. -/
theorem test_decode_litL : decode .literal [0x00, 0x2C, 0x01, 0x00, 0x00] = .ok (.litL 300, []) := by rfl
/-- R88: `DDDDDD00` with `D = 0b000011`, R166. -/
theorem test_decode_m1 : decode .backref [0b00001100] = .ok (.m1 3, []) := by rfl
/-- R89: first byte `D[5:0] 01`, second byte `D[13:6]`. -/
theorem test_decode_m2a : decode .backref [0b11111101, 0xFF] = .ok (.m2a 16383, []) := by rfl
/-- R90: first byte `D[1:0] LLLL 10`, second byte `D[9:2]`; `D = 2`, `L = 15` (VM2Ba). -/
theorem test_decode_m2b : decode .backref [0b10111110, 0x00] = .ok (.m2b 15 2, []) := by rfl
/-- R91: first byte `D[0] LLLLL 11`; VM table: `7F B8 88` is distance 70000, length 33. -/
theorem test_decode_m3 : decode .backref [0b01111111, 0xB8, 0x88] = .ok (.m3 31 70000, []) := by rfl
/-- R94: `0x03` and `0x83` are reserved. -/
theorem test_decode_m3Rsvd : decode .backref [0b00000011, 0x00, 0x00] = .ok (.m3Rsvd 0, []) := by rfl
/-- R165: the second byte of an `M2A` is missing (VM2Ad). -/
theorem test_decode_cut : decode .backref [0x05] = .error .matchCut := by rfl

/-- R97 listings: the encoder gives the bytes of P2's tokens. -/
theorem test_encode_program2 :
    encode (.m1 5) = [0x14] ∧ encode (.m2b 3 3) = [0xCE, 0x00] ∧ encode (.m2a 16) = [0x41, 0x00] ∧
    encode (.m3 3 2) = [0x0F, 0x01, 0x00] ∧ encode (.litL 2) = [0x00, 0x02, 0x00, 0x00, 0x00] := by decide

/-- R97: `MATCH` takes the first form that can express the pair; S8's match, VM1c's, VM2Aa's and VM3a's. -/
theorem test_pseudo_match :
    matchItem 1 10 = some (.m2b 7 1) ∧ matchItem 63 3 = some (.m1 63) ∧ matchItem 100 3 = some (.m2a 100) ∧
    matchItem 5 33 = some (.m3 31 5) ∧ matchItem 0 3 = none ∧ litItem 255 = some (.litS 255) ∧
    litItem 256 = some (.litL 256) := by decide

/-! ## Table words -/

theorem test_table_hdrC : decodeTableWord 24 0 = some (.hdrC 0 0 0) := by rfl
theorem test_table_hdrX : decodeTableWord 72 2 = some (.hdrX 2 0 0) := by rfl
theorem test_table_flagw : decodeTableWord 32 0 = some (.flagw 0) := by rfl
theorem test_table_litL : decodeTableWord 40 0 = some (.litL 0) := by rfl
theorem test_table_m1 : decodeTableWord 8 0 = some (.m1 0) := by rfl
theorem test_table_m2a : decodeTableWord 16 1 = some (.m2a 0) := by rfl
theorem test_table_m2b : decodeTableWord 16 2 = some (.m2b 0 0) := by rfl
theorem test_table_m3Rsvd : decodeTableWord 24 3 = some (.m3Rsvd 0) := by rfl
theorem test_table_m3 : decodeTableWord 24 7 = some (.m3 1 0) := by rfl

/-! ## States of program P1 (95_test_vectors.md, Part 3) -/

/-- The state a step leaves, if it leaves one. -/
def after (o : Host.Outcome State Fault Refusal) : Option State :=
  match o with
  | .next t => some t
  | .fault _ => none
  | .refused _ => none

/-- `IN` of S8 and P1. -/
def bytesP1 : List Byte := [0x00, 0x0B, 0x08, 0x02, 0x00, 0x00, 0x00, 0x01, 0x41, 0x5E, 0x00]

/-- P1 presented, before its header is read. -/
def atHeader : State :=
  { State.reset with inp := memOfBytes 0 bytesP1, inLen := 11, allocOk := true, phase := .header }

/-- P1 after step 2. -/
def atSizechk : State := { atHeader with hlen := 3, dsize := 11, plen := 8, csize := 11, phase := .sizechk }

/-- P1 after step 3. -/
def atAlloc : State := { atSizechk with phase := .alloc }

/-- P1 after step 4. -/
def atLoop : State := { atAlloc with rd := 3, out := some [], phase := .loop }

/-- P1 after step 5: a flag word is due. -/
def atFlagWord : State := { atLoop with phase := .flag }

/-- P1 after step 6: the first flag bit is due. -/
def atFlagBit : State := { atFlagWord with rd := 7, fw := 2, fcnt := 32 }

/-- P1 after step 7. -/
def atLiteral : State := { atFlagBit with fw := 1, fcnt := 31, phase := .litdec }

/-- P1 after step 8. -/
def atLiteralCopy : State := { atLiteral with rd := 8, cnt := 1, phase := .litcopy }

/-- P1 after step 11. -/
def atMatch : State :=
  { atLiteralCopy with rd := 9, wr := 1, cnt := 0, fw := 0, fcnt := 30, out := some [(0, 0x41)], phase := .matchdec }

/-- P1 after step 12. -/
def atMatchCopy : State := { atMatch with rd := 11, cnt := 10, dist := 1, phase := .matchcopy }

/-- P1 after step 23. -/
def atFinal : State :=
  { atMatchCopy with wr := 11, cnt := 0, out := some (memOfBytes 0 (List.replicate 11 0x41)), phase := .final }

/-- P1 after step 24. -/
def atDone : State := { atFinal with status := 0, outLen := 11, phase := .done }

/-! ## One step each (P1's rows, and the vectors named) -/

theorem test_step_start :
    (after (step { atHeader with phase := .idle, cmd := some .start })).map (·.phase) = some .header := by decide
theorem test_step_header :
    (after (step atHeader)).map (fun t => (t.hlen, t.dsize, t.plen, t.csize)) = some (3, 11, 8, 11) := by decide
theorem test_step_sizechk : (after (step atSizechk)).map (·.phase) = some .alloc := by decide
/-- S4: one byte too many. -/
theorem test_step_size_mismatch : (after (step { atSizechk with csize := 10 })).map (·.status) = some 2 := by decide
theorem test_step_alloc : (after (step atAlloc)).map (fun t => (t.phase, t.rd, t.wr)) = some (.loop, 3, 0) := by decide
/-- VH8: the environment refuses 11 bytes. -/
theorem test_step_alloc_refused :
    (after (step { atAlloc with allocOk := false })).map (·.status) = some 4 := by decide
theorem test_step_loop : (after (step atLoop)).map (·.phase) = some .flag := by decide
/-- R131: the loop test comes before any refill. -/
theorem test_step_loop_exit : (after (step { atFinal with phase := .loop })).map (·.phase) = some .final := by decide
theorem test_step_flagw :
    (after (step atFlagWord)).map (fun t => (t.fw, t.rd, t.fcnt)) = some (2, 7, 32) := by decide
/-- VF6: three bytes cannot hold a flag word. -/
theorem test_step_flagw_cut : (after (step { atFlagWord with csize := 6 })).map (·.status) = some 3 := by decide
theorem test_step_flag_bit :
    (after (step atFlagBit)).map (fun t => (t.phase, t.fw, t.fcnt)) = some (.litdec, 1, 31) := by decide
theorem test_step_litS :
    (after (step atLiteral)).map (fun t => (t.phase, t.rd, t.cnt)) = some (.litcopy, 8, 1) := by decide
theorem test_step_litcopy :
    (after (step atLiteralCopy)).map (fun t => (t.out, t.rd, t.wr, t.phase)) =
      some (some [(0, 0x41)], 9, 1, .loop) := by decide
theorem test_step_m2b :
    (after (step atMatch)).map (fun t => (t.phase, t.rd, t.cnt, t.dist)) = some (.matchcopy, 11, 10, 1) := by decide
/-- P1 step 13: the first byte of the overlapping copy. -/
theorem test_step_matchcopy :
    (after (step atMatchCopy)).map (fun t => (t.out, t.wr, t.cnt)) =
      some (some [(0, 0x41), (1, 0x41)], 2, 9) := by decide
/-- P1 step 14: the second byte reads what the first step wrote. -/
theorem test_step_matchcopy_overlap :
    (after (step { atMatchCopy with wr := 2, cnt := 9, out := some [(0, 0x40), (1, 0x42)] })).map (·.out) =
      some (some [(0, 0x40), (1, 0x42), (2, 0x42)]) := by decide
theorem test_step_final : (after (step atFinal)).map (fun t => (t.status, t.outLen)) = some (0, 11) := by decide
/-- VE1: one payload byte left over. -/
theorem test_step_final_left_over : (after (step { atFinal with csize := 12 })).map (·.status) = some 3 := by decide
theorem test_host_output : hostOutput atDone = some (List.replicate 11 0x41) := by decide
theorem test_step_ack : (after (step { atDone with cmd := some .ack })).map (·.phase) = some .idle := by decide

/-! ## The other meanings, one step each -/

/-- VH4: `CSIZE = 9 + 0xFFFFFFFF` is kept in 33 bits. -/
theorem test_exec_hdrX_no_wrap :
    (after (exec (.hdrX 2 0 0xFFFFFFFF) { atHeader with inLen := 9 })).map (·.csize.toNat) = some 4294967304 := by
  decide
/-- VH2: an extended header needs 9 bytes. -/
theorem test_exec_hdrX_cut : (after (exec (.hdrX 2 0 0) { atHeader with inLen := 8 })).map (·.status) = some 1 := by
  decide
theorem test_exec_hdrC :
    (after (exec (.hdrC 0xFD 255 255) atHeader)).map (fun t => (t.ctrl, t.csize)) = some (0xFD, 258) := by decide
/-- VL11: a count of `2^32 - 1` cannot wrap the comparison. -/
theorem test_exec_litL_huge : (after (exec (.litL 0xFFFFFFFF) atLoop)).map (·.status) = some 3 := by decide
/-- VL5: a long count of 0. -/
theorem test_exec_litL_zero : (after (exec (.litL 0) atLoop)).map (·.status) = some 3 := by decide
/-- VL7: a count of 3 with 2 bytes of output left. -/
theorem test_exec_litS_over : (after (exec (.litS 3) { atLiteral with dsize := 2 })).map (·.status) = some 3 := by decide
/-- VM1a: `DIST = WR` and `len = DSIZE - WR` are legal. -/
theorem test_exec_m1 :
    (after (exec (.m1 3) { atMatch with wr := 3, dsize := 6 })).map (fun t => (t.phase, t.dist, t.cnt)) =
      some (.matchcopy, 3, 3) := by decide
/-- VM1d: distance 0. -/
theorem test_exec_m1_zero : (after (exec (.m1 0) atMatch)).map (·.status) = some 3 := by decide
/-- P2: `M2A d=16` with `WR = 16`. -/
theorem test_exec_m2a :
    (after (exec (.m2a 16) { atMatch with wr := 16, dsize := 24 })).map (fun t => (t.dist, t.cnt, t.rd)) =
      some (16, 3, 11) := by decide
/-- VMx2: `DIST = WR + 1`. -/
theorem test_exec_m2b_before_start : (after (exec (.m2b 0 2) atMatch)).map (·.status) = some 3 := by decide
/-- P2: `M3 d=2, l=5`. -/
theorem test_exec_m3 :
    (after (exec (.m3 3 2) { atMatch with rd := 8, wr := 19, dsize := 24 })).map (fun t => (t.dist, t.cnt, t.rd)) =
      some (2, 5, 11) := by decide
/-- VM3e: a three-byte form with two bytes. -/
theorem test_exec_m3_cut : (after (exec (.m3 1 1) atMatch)).map (fun t => (t.status, t.rd)) = some (3, 9) := by decide
/-- VM3d. -/
theorem test_exec_m3Rsvd : (after (exec (.m3Rsvd 1) atMatch)).map (·.status) = some 3 := by decide

/-- The step runs a table word as the first item of a call. -/
theorem test_fetch_word_m3 : step (State.reset.withFetchWord 24 7) = exec (.m3 1 0) (State.reset.withFetchWord 24 7) := by
  rfl

/-- The whole call (R210): S8, and VM1a. -/
theorem test_decode_call_s8 : decodeCall bytesP1 (fun _ => true) = some (.ok (List.replicate 11 0x41)) := by rfl

/-! ## Witnesses: the hypotheses of each statement can be met -/

theorem callInv_atHeader : CallInv atHeader :=
  ⟨by decide, by decide, by decide, by decide, by decide, by decide, by decide⟩
theorem callInv_atLiteral : CallInv atLiteral :=
  ⟨by decide, by decide, by decide, by decide, by decide, by decide, by decide⟩
theorem callInv_atLiteralCopy : CallInv atLiteralCopy :=
  ⟨by decide, by decide, by decide, by decide, by decide, by decide, by decide⟩
theorem callInv_atMatchCopy : CallInv atMatchCopy :=
  ⟨by decide, by decide, by decide, by decide, by decide, by decide, by decide⟩
theorem callInv_atDone : CallInv atDone :=
  ⟨by decide, by decide, by decide, by decide, by decide, by decide, by decide⟩
theorem callInv_reset : CallInv State.reset :=
  ⟨by decide, by decide, by decide, by decide, by decide, by decide, by decide⟩

theorem witness_DecodeOfEncode : (Instr.m3 31 131071).WellFormed = true := by decide
theorem witness_EncodeOfDecode : decode .backref [0x83, 0x00, 0x00, 0x07] = .ok (.m3Rsvd 1, [0x07]) := by rfl
theorem witness_HeaderFieldsLittleEndian :
    (0xFD : Byte).getLsbD 1 = false ∧ (0x02 : Byte).getLsbD 1 = true := by decide
theorem witness_TokenFieldsLittleEndian :
    (0x00 : Byte) = 0#8 ∧ (0x01 : Byte) ≠ 0#8 ∧ (0xFF : Byte) ≠ 0#8 ∧ (0xFC : Byte).toNat % 4 = 0 ∧
    (0xFD : Byte).toNat % 4 = 1 ∧ (0xFE : Byte).toNat % 4 = 2 ∧
    (0x07 : Byte).toNat % 4 = 3 ∧ (0x07 : Byte).toNat / 4 % 32 ≠ 0 ∧
    (0x83 : Byte).toNat % 4 = 3 ∧ (0x83 : Byte).toNat / 4 % 32 = 0 := by decide
theorem witness_MatchFormRanges :
    (Instr.m3 31 131071).WellFormed = true ∧ matchForm (.m3 31 131071) = some (3, 131071, 33) ∧
    (Instr.m1 63).WellFormed = true ∧ matchForm (.m1 63) = some (1, 63, 3) ∧
    (Instr.m2b 15 1023).WellFormed = true ∧ matchForm (.m2b 15 1023) = some (2, 1023, 18) := by decide
theorem witness_StepRunsDecodedItem :
    atMatch.cmd = none ∧ (Instr.m2b 7 1).WellFormed = true ∧ atMatch.phase = duePhase (contextOf (.m2b 7 1)) ∧
    (contextOf (.m2b 7 1) = .flagWord → atMatch.fcnt = 0#6) ∧
    readInRun atMatch (itemStart (contextOf (.m2b 7 1)) atMatch) (encode (.m2b 7 1)).length =
      some (encode (.m2b 7 1)) ∧
    itemStart (contextOf (.m2b 7 1)) atMatch + (encode (.m2b 7 1)).length ≤
      readLimit (contextOf (.m2b 7 1)) atMatch := by decide
theorem witness_StepRunsDecodedItem_flagWord :
    atFlagWord.cmd = none ∧ atFlagWord.phase = duePhase (contextOf (.flagw 2)) ∧ atFlagWord.fcnt = 0#6 ∧
    readInRun atFlagWord (itemStart .flagWord atFlagWord) (encode (.flagw 2)).length = some (encode (.flagw 2)) ∧
    itemStart .flagWord atFlagWord + (encode (.flagw 2)).length ≤ readLimit .flagWord atFlagWord := by decide
theorem witness_CutItemRaises_flagWord :
    { atFlagWord with rd := 8 }.cmd = none ∧ { atFlagWord with rd := 8 }.phase = .flag ∧
    { atFlagWord with rd := 8 }.fcnt = 0#6 ∧
    { atFlagWord with rd := 8 }.rd.toNat + 4 > { atFlagWord with rd := 8 }.csize.toNat := by decide
theorem witness_CutItemRaises_literal :
    { atLiteral with rd := 11 }.cmd = none ∧ { atLiteral with rd := 11 }.phase = .litdec ∧
    { atLiteral with rd := 11 }.rd.toNat + 1 > { atLiteral with rd := 11 }.csize.toNat := by decide
theorem witness_CutItemRaises_longCount :
    { atLiteral with rd := 10 }.cmd = none ∧ { atLiteral with rd := 10 }.phase = .litdec ∧
    readIn { atLiteral with rd := 10 } { atLiteral with rd := 10 }.rd.toNat = some 0#8 ∧
    { atLiteral with rd := 10 }.rd.toNat + 5 > { atLiteral with rd := 10 }.csize.toNat := by decide
theorem witness_CutItemRaises_match :
    { atMatch with rd := 11 }.cmd = none ∧ { atMatch with rd := 11 }.phase = .matchdec ∧
    { atMatch with rd := 11 }.rd.toNat + 1 > { atMatch with rd := 11 }.csize.toNat := by decide
theorem witness_CutItemRaises_matchCut :
    { atMatch with csize := 10 }.cmd = none ∧ { atMatch with csize := 10 }.phase = .matchdec ∧
    ∃ b0, readIn { atMatch with csize := 10 } { atMatch with csize := 10 }.rd.toNat = some b0 ∧
      { atMatch with csize := 10 }.rd.toNat + matchWidth b0.toNat > { atMatch with csize := 10 }.csize.toNat :=
  ⟨by decide, by decide, 0x5E, by decide, by decide⟩
theorem witness_ItemsStoreNothing : exec (.m3Rsvd 0) atMatch = .next (raise .streamCorruption atMatch) := by rfl
theorem witness_CompactHeaderLoads :
    3 ≤ { atHeader with inLen := 3 }.inLen.toNat ∧ { atHeader with inLen := 2 }.inLen.toNat < 3 := by decide
theorem witness_CompactHeaderLoads_step :
    atHeader.cmd = none ∧ atHeader.phase = .header ∧ 3 ≤ atHeader.inLen.toNat ∧ readIn atHeader 0 = some 0x00 ∧
    readIn atHeader 1 = some 0x0B ∧ readIn atHeader 2 = some 0x08 ∧ (0x00 : Byte).getLsbD 1 = false := by decide
theorem witness_ExtendedHeaderLoads :
    9 ≤ { atHeader with inLen := 9 }.inLen.toNat ∧ { atHeader with inLen := 8 }.inLen.toNat < 9 := by decide
/-- The header of S10x. -/
theorem witness_ExtendedHeaderLoads_step :
    let s := { atHeader with inp := memOfBytes 0 [0x02, 0x0B, 0, 0, 0, 0x08, 0, 0, 0], inLen := 9 }
    s.cmd = none ∧ s.phase = .header ∧ 9 ≤ s.inLen.toNat ∧ readIn s 0 = some 0x02 ∧
      inValue s 1 4 = some (11 : BitVec 32).toNat ∧ inValue s 5 4 = some (8 : BitVec 32).toNat ∧
      (0x02 : Byte).getLsbD 1 = true := by decide
/-- `IN = 02 00 00`, VH1, and the empty input, S1. -/
theorem witness_MalformedHeaderExactly_raises :
    let s := { atHeader with inp := memOfBytes 0 [0x02, 0x00, 0x00], inLen := 3 }
    s.cmd = none ∧ s.phase = .header ∧ s.inp.filled s.inLen.toNat ∧ s.inLen.toNat < 9 ∧
      ∃ b0, readIn s 0 = some b0 ∧ b0.getLsbD 1 = true :=
  ⟨by decide, by decide, by decide, by decide, 0x02, by decide, by decide⟩
theorem witness_MalformedHeaderExactly_empty :
    let s := { atHeader with inp := [], inLen := 0 }
    s.cmd = none ∧ s.phase = .header ∧ s.inp.filled s.inLen.toNat ∧ s.inLen.toNat < 3 := by decide
theorem witness_MalformedHeaderExactly_passes :
    let s := { atHeader with inp := memOfBytes 0 [0xFD, 0x00, 0x00], inLen := 3 }
    s.cmd = none ∧ s.phase = .header ∧ s.inp.filled s.inLen.toNat ∧
      ¬(s.inLen.toNat < 3 ∨ (s.inLen.toNat < 9 ∧ ∃ b0, readIn s 0 = some b0 ∧ b0.getLsbD 1 = true)) :=
  ⟨by decide, by decide, by decide, by
    rintro (h | ⟨_, b0, h0, h1⟩)
    · exact absurd h (by decide)
    · obtain rfl : b0 = 0xFD := Option.some.inj (h0.symm.trans rfl)
      exact absurd h1 (by decide)⟩
theorem witness_HeaderStepIsInspector :
    atHeader.cmd = none ∧ atHeader.phase = .header ∧ atHeader.inp = memOfBytes 0 bytesP1 ∧
    atHeader.inLen.toNat = bytesP1.length := by decide
theorem witness_InspectorReadsHeaderOnly :
    [(0x00 : Byte), 0x0B, 0x08].head? = some 0x00 ∧ [(0x00 : Byte), 0x0B, 0x08].length = itemWidth .header 0x00 := by
  decide
theorem witness_OtherControlBitsIgnored : (0xFD : Byte).getLsbD 1 = (0x00 : Byte).getLsbD 1 := by decide
theorem witness_LoopTestDecides :
    atLoop.cmd = none ∧ atLoop.phase = .loop ∧ atLoop.wr ≠ atLoop.dsize ∧
    { atFinal with phase := .loop }.wr = { atFinal with phase := .loop }.dsize := by decide
theorem witness_FlagWordRefills :
    atFlagWord.csize.toNat = atFlagWord.inLen.toNat ∧ { atFlagWord with rd := 7 }.rd.toNat + 4 ≤ atFlagWord.csize.toNat ∧
    { atFlagWord with rd := 8 }.rd.toNat + 4 > atFlagWord.csize.toNat := by decide
theorem witness_FlagWordRefills_step :
    atFlagWord.cmd = none ∧ atFlagWord.phase = .flag ∧ atFlagWord.fcnt = 0#6 ∧
    atFlagWord.rd.toNat + 4 ≤ atFlagWord.csize.toNat ∧
    inValue atFlagWord atFlagWord.rd.toNat 4 = some (2 : BitVec 32).toNat ∧ inLoop atFlagWord.phase = true ∧
    step atFlagWord = .next atFlagBit ∧ atFlagWord.fcnt.toNat < atFlagBit.fcnt.toNat :=
  ⟨by decide, by decide, by decide, by decide, by decide, by decide, rfl, by decide⟩
theorem witness_FlagBitDispatches :
    atFlagBit.cmd = none ∧ atFlagBit.phase = .flag ∧ 0 < atFlagBit.fcnt.toNat ∧ atFlagBit.fw.toNat % 2 = 0 ∧
    { atFlagBit with fw := 1 }.fw.toNat % 2 = 1 := by decide
theorem witness_FlagsConsumedFromBitZero : (31 : Nat) < 32 := by decide
/-- The whole rest of the output and of the input: 11 bytes with 11 left on each side. -/
theorem witness_ShortLiteralStarts :
    let s := { atLiteral with csize := 19, inLen := 19 }
    s.csize.toNat = s.inLen.toNat ∧ s.rd.toNat + 1 ≤ s.csize.toNat ∧ (11 : BitVec 8).toNat ≠ 0 ∧
      (11 : BitVec 8).toNat ≤ s.dsize.toNat - s.wr.toNat ∧
      (11 : BitVec 8).toNat ≤ s.csize.toNat - (s.rd.toNat + 1) := by decide
theorem witness_ShortLiteralStarts_raises :
    let s := { atLiteral with rd := 11 }
    s.csize.toNat = s.inLen.toNat ∧ (1 : BitVec 8).toNat ≠ 0 ∧ s.rd.toNat + 1 > s.csize.toNat := by decide
theorem witness_ShortLiteralStarts_step :
    atLiteral.csize.toNat = atLiteral.inLen.toNat ∧ (1 : BitVec 8).toNat ≠ 0 ∧ atLiteral.cmd = none ∧
    atLiteral.phase = .litdec ∧ atLiteral.rd.toNat + 1 ≤ atLiteral.csize.toNat ∧
    readIn atLiteral atLiteral.rd.toNat = some 1 := by decide
theorem witness_LongLiteralStarts :
    let s := { atLiteral with csize := 23, inLen := 23 }
    s.csize.toNat = s.inLen.toNat ∧ s.rd.toNat + 5 ≤ s.csize.toNat ∧ (11 : BitVec 32).toNat ≠ 0 ∧
      (11 : BitVec 32).toNat ≤ s.dsize.toNat - s.wr.toNat ∧
      (11 : BitVec 32).toNat ≤ s.csize.toNat - (s.rd.toNat + 5) := by decide
theorem witness_LongLiteralStarts_raises :
    atLiteral.csize.toNat = atLiteral.inLen.toNat ∧ atLiteral.rd.toNat + 5 > atLiteral.csize.toNat ∧
    (0 : BitVec 32).toNat = 0 := by decide
/-- The bytes of VL4's run: `00 03 00 00 00 78 79 7A` at `RD = 7`. -/
theorem witness_LongLiteralStarts_step :
    let s := { atLiteral with
      inp := memOfBytes 0 [0, 3, 0x0C, 0, 0, 0, 0, 0, 3, 0, 0, 0, 0x78, 0x79, 0x7A], inLen := 15, csize := 15 }
    s.csize.toNat = s.inLen.toNat ∧ s.cmd = none ∧ s.phase = .litdec ∧ s.rd.toNat + 5 ≤ s.csize.toNat ∧
      readIn s s.rd.toNat = some 0#8 ∧ inValue s (s.rd.toNat + 1) 4 = some (3 : BitVec 32).toNat := by decide
theorem witness_LiteralChecksDecide_starts :
    let s := { atLiteral with csize := 19, inLen := 19 }
    literalForm (.litS 11) = some (1, 11) ∧ (11 : Nat) ≠ 0 ∧ s.csize.toNat = s.inLen.toNat ∧
      s.rd.toNat + 1 ≤ s.csize.toNat ∧ 11 ≤ s.dsize.toNat - s.wr.toNat ∧ 11 ≤ s.csize.toNat - (s.rd.toNat + 1) := by
  decide

theorem witness_LiteralChecksDecide_output :
    literalForm (.litS 12) = some (1, 12) ∧ (12 : Nat) ≠ 0 ∧ atLiteral.csize.toNat = atLiteral.inLen.toNat ∧
    atLiteral.rd.toNat + 1 ≤ atLiteral.csize.toNat ∧ 12 > atLiteral.dsize.toNat - atLiteral.wr.toNat := by decide
theorem witness_LiteralChecksDecide_input :
    literalForm (.litS 4) = some (1, 4) ∧ (4 : Nat) ≠ 0 ∧ atLiteral.csize.toNat = atLiteral.inLen.toNat ∧
    atLiteral.rd.toNat + 1 ≤ atLiteral.csize.toNat ∧ 4 > atLiteral.csize.toNat - (atLiteral.rd.toNat + 1) := by decide
theorem witness_LiteralCopyMovesOneByte :
    atLiteralCopy.cmd = none ∧ atLiteralCopy.phase = .litcopy ∧ atLiteralCopy.out.isSome = true ∧
    1 ≤ atLiteralCopy.cnt.toNat ∧ readIn atLiteralCopy atLiteralCopy.rd.toNat = some 0x41 ∧
    atLiteralCopy.wr.toNat < atLiteralCopy.dsize.toNat ∧ atLiteralCopy.cnt.toNat = 1 ∧
    { atLiteralCopy with cnt := 2 }.cnt.toNat ≠ 1 := by decide
theorem witness_LiteralRunCopies : CallInv atLiteralCopy ∧ atLiteralCopy.cmd = none ∧ atLiteralCopy.phase = .litcopy :=
  ⟨callInv_atLiteralCopy, rfl, rfl⟩
theorem witness_M1Starts :
    let s := { atMatch with wr := 3, dsize := 6 }
    s.csize.toNat = s.inLen.toNat ∧ s.rd.toNat + 1 ≤ s.csize.toNat ∧ 1 ≤ (3 : BitVec 6).toNat ∧
      (3 : BitVec 6).toNat ≤ s.wr.toNat ∧ 3 ≤ s.dsize.toNat - s.wr.toNat := by decide
theorem witness_M2aStarts :
    let s := { atMatch with wr := 16383, dsize := 16386 }
    s.csize.toNat = s.inLen.toNat ∧ s.rd.toNat + 2 ≤ s.csize.toNat ∧ 1 ≤ (16383 : BitVec 14).toNat ∧
      (16383 : BitVec 14).toNat ≤ s.wr.toNat ∧ 3 ≤ s.dsize.toNat - s.wr.toNat := by decide
theorem witness_M2bStarts :
    let s := { atMatch with wr := 1023, dsize := 1041 }
    s.csize.toNat = s.inLen.toNat ∧ s.rd.toNat + 2 ≤ s.csize.toNat ∧ 1 ≤ (1023 : BitVec 10).toNat ∧
      (1023 : BitVec 10).toNat ≤ s.wr.toNat ∧ (15 : BitVec 4).toNat + 3 ≤ s.dsize.toNat - s.wr.toNat := by decide
/-- Step clauses of the match forms: the token's bytes at `RD = 9` (VM fields: `FC`, `91 01`, `5E 00`). -/
theorem witness_M1Starts_step :
    let s := { atMatch with inp := memOfBytes 0 (bytesP1.take 9 ++ [0xFC, 0]) }
    s.csize.toNat = s.inLen.toNat ∧ s.rd.toNat + 1 ≤ s.csize.toNat ∧ s.cmd = none ∧ s.phase = .matchdec ∧
      inValue s s.rd.toNat 1 = some 0xFC ∧ 0xFC % 4 = 0 ∧ (63 : BitVec 6).toNat = 0xFC / 4 := by decide
theorem witness_M2aStarts_step :
    let s := { atMatch with inp := memOfBytes 0 (bytesP1.take 9 ++ [0x91, 0x01]) }
    s.csize.toNat = s.inLen.toNat ∧ s.rd.toNat + 2 ≤ s.csize.toNat ∧ s.cmd = none ∧ s.phase = .matchdec ∧
      inValue s s.rd.toNat 2 = some 0x0191 ∧ 0x0191 % 4 = 1 ∧ (100 : BitVec 14).toNat = 0x0191 / 4 := by decide
theorem witness_M2bStarts_step :
    atMatch.csize.toNat = atMatch.inLen.toNat ∧ atMatch.rd.toNat + 2 ≤ atMatch.csize.toNat ∧ atMatch.cmd = none ∧
    atMatch.phase = .matchdec ∧ inValue atMatch atMatch.rd.toNat 2 = some 0x5E ∧ 0x5E % 4 = 2 ∧
    (7 : BitVec 4).toNat = 0x5E / 4 % 16 ∧ (1 : BitVec 10).toNat = 0x5E / 64 := by decide
theorem witness_M3Starts_step :
    let s := { atMatch with inp := memOfBytes 0 (bytesP1.take 8 ++ [0xA3, 0xF4, 0x01]), rd := 8 }
    s.csize.toNat = s.inLen.toNat ∧ s.rd.toNat + 3 ≤ s.csize.toNat ∧ (8 : BitVec 5).toNat ≠ 0 ∧ s.cmd = none ∧
      s.phase = .matchdec ∧ inValue s s.rd.toNat 3 = some 0x01F4A3 ∧ 0x01F4A3 % 4 = 3 ∧
      (8 : BitVec 5).toNat = 0x01F4A3 / 4 % 32 ∧ (1001 : BitVec 17).toNat = 0x01F4A3 / 128 := by decide
theorem witness_M3Starts :
    let s := { atMatch with rd := 8, wr := 131071, dsize := 131104 }
    s.csize.toNat = s.inLen.toNat ∧ s.rd.toNat + 3 ≤ s.csize.toNat ∧ (31 : BitVec 5).toNat ≠ 0 ∧
      1 ≤ (131071 : BitVec 17).toNat ∧ (131071 : BitVec 17).toNat ≤ s.wr.toNat ∧
      (31 : BitVec 5).toNat + 2 ≤ s.dsize.toNat - s.wr.toNat := by decide
theorem witness_MatchChecksDecide_starts :
    (Instr.m2b 7 1).WellFormed = true ∧ matchForm (.m2b 7 1) = some (2, 1, 10) ∧ atMatch.csize.toNat = atMatch.inLen.toNat ∧
    atMatch.rd.toNat + 2 ≤ atMatch.csize.toNat ∧ 1 ≤ 1 ∧ 1 ≤ atMatch.wr.toNat ∧
    10 ≤ atMatch.dsize.toNat - atMatch.wr.toNat := by decide
theorem witness_MatchChecksDecide_cut :
    (Instr.m3 1 1).WellFormed = true ∧ matchForm (.m3 1 1) = some (3, 1, 3) ∧ atMatch.csize.toNat = atMatch.inLen.toNat ∧
    atMatch.rd.toNat + 3 > atMatch.csize.toNat := by decide
theorem witness_MatchChecksDecide_zero :
    (Instr.m1 0).WellFormed = true ∧ matchForm (.m1 0) = some (1, 0, 3) ∧ atMatch.csize.toNat = atMatch.inLen.toNat := by decide
theorem witness_MatchChecksDecide_distance :
    (Instr.m2a 2).WellFormed = true ∧ matchForm (.m2a 2) = some (2, 2, 3) ∧ atMatch.csize.toNat = atMatch.inLen.toNat ∧ 2 > atMatch.wr.toNat := by decide
theorem witness_MatchChecksDecide_length :
    (Instr.m2b 8 1).WellFormed = true ∧ matchForm (.m2b 8 1) = some (2, 1, 11) ∧ atMatch.csize.toNat = atMatch.inLen.toNat ∧
    11 > atMatch.dsize.toNat - atMatch.wr.toNat := by decide
/-- VM3c's reserved byte at `RD`. -/
theorem witness_ReservedPatternRaises_step :
    let s := { atMatch with inp := memOfBytes 0 (bytesP1.take 9 ++ [0x83, 0]) }
    s.cmd = none ∧ s.phase = .matchdec ∧ s.csize.toNat = s.inLen.toNat ∧ s.inp.filled s.inLen.toNat ∧
      readIn s s.rd.toNat = some 0x83#8 := by decide
theorem witness_MatchCopyMovesOneByte :
    atMatchCopy.cmd = none ∧ atMatchCopy.phase = .matchcopy ∧ 1 ≤ atMatchCopy.cnt.toNat ∧
    atMatchCopy.dist.toNat ≤ atMatchCopy.wr.toNat ∧
    readOut atMatchCopy (atMatchCopy.wr.toNat - atMatchCopy.dist.toNat) = some 0x41 ∧
    atMatchCopy.wr.toNat < atMatchCopy.dsize.toNat ∧ atMatchCopy.cnt.toNat ≠ 1 ∧
    { atMatchCopy with cnt := 1 }.cnt.toNat = 1 := by decide
theorem witness_MatchCopyRepeatsPattern : CallInv atMatchCopy ∧ atMatchCopy.cmd = none ∧ atMatchCopy.phase = .matchcopy :=
  ⟨callInv_atMatchCopy, rfl, rfl⟩
theorem witness_LaunchPresentsInput :
    State.reset.phase = .idle ∧ State.reset.cmd = none ∧ CallInv State.reset ∧ bytesP1.length < 2 ^ 32 ∧
    ([] : List Byte).length < 2 ^ 32 ∧ (List.replicate (2 ^ 32 - 1) (0 : Byte)).length < 2 ^ 32 :=
  ⟨rfl, rfl, callInv_reset, by decide, by decide, by rw [List.length_replicate]; decide⟩
/-- Each reason for which there is no launch. -/
theorem witness_LaunchPresentsInput_none :
    atLoop.phase ≠ .idle ∧ { State.reset with cmd := some .start }.cmd ≠ none ∧
    2 ^ 32 ≤ (List.replicate (2 ^ 32) (0 : Byte)).length :=
  ⟨by decide, by decide, by rw [List.length_replicate]⟩
theorem witness_StartBeginsCall :
    { State.reset with cmd := some .start }.cmd = some .start ∧ { State.reset with cmd := some .start }.phase = .idle := by
  decide
theorem witness_AckReturnsToIdle :
    { atDone with cmd := some .ack }.cmd = some .ack ∧ { atDone with cmd := some .ack }.phase = .done := by decide
/-- After a success, after an error, and where the host cannot acknowledge. -/
theorem witness_NextCallFollowsDone :
    atDone.phase = .done ∧ atDone.cmd = none ∧ (raise .sizeMismatch atSizechk).phase = .done ∧
    (raise .sizeMismatch atSizechk).cmd = none ∧ bytesP1.length < 2 ^ 32 ∧
    atLoop.phase ≠ .done ∧ { atDone with cmd := some .ack }.cmd ≠ none := by decide
theorem witness_RefusesOnlyMisplacedCommands :
    step { atDone with cmd := some .start } = .refused .startOutsideIdle ∧
    step { atLoop with cmd := some .ack } = .refused .ackOutsideDone := ⟨rfl, rfl⟩
theorem witness_SizeCheckDecides :
    atSizechk.cmd = none ∧ atSizechk.phase = .sizechk ∧ atSizechk.csize.toNat = atSizechk.inLen.toNat ∧
    { atSizechk with csize := 12 }.csize.toNat ≠ { atSizechk with csize := 12 }.inLen.toNat := by decide
theorem witness_AllocationDecides :
    atAlloc.cmd = none ∧ atAlloc.phase = .alloc ∧ atAlloc.dsize.toNat ≠ 0 ∧ atAlloc.allocOk = true ∧
    { atAlloc with allocOk := false }.allocOk = false ∧ { atAlloc with dsize := 0 }.dsize.toNat = 0 := by decide
theorem witness_FinalCheckDecides :
    atFinal.cmd = none ∧ atFinal.phase = .final ∧ atFinal.rd.toNat = atFinal.csize.toNat ∧
    { atFinal with csize := 12 }.rd.toNat ≠ { atFinal with csize := 12 }.csize.toNat := by decide
/-- The last clause of `MalformedHeaderExactly`: VH1's step. -/
theorem witness_MalformedHeaderExactly_phase :
    let s := { atHeader with inp := memOfBytes 0 [0x02, 0x00, 0x00], inLen := 3 }
    step s = .next (raise .malformedHeader s) ∧ s.phase ≠ .done ∧ (raise .malformedHeader s).phase = .done ∧
      (raise .malformedHeader s).status = 1#3 := ⟨rfl, by decide, rfl, rfl⟩
theorem witness_EachCodeFromItsPhases :
    step atFinal = .next atDone ∧ atFinal.phase ≠ .done ∧ atDone.phase = .done := ⟨rfl, by decide, rfl⟩
theorem witness_StreamCorruptionExactly : CallInv atLiteral ∧ calling atLiteral :=
  ⟨callInv_atLiteral, rfl, by decide, by decide⟩
theorem witness_StepKeepsCallInv : CallInv atLiteral ∧ step atLiteral = .next atLiteralCopy :=
  ⟨callInv_atLiteral, rfl⟩
theorem witness_NoFaultWithinInvariant : CallInv atMatchCopy := callInv_atMatchCopy
theorem witness_SpacesStayCanonical : SpacesWf atFinal ∧ step atFinal = .next atDone :=
  ⟨⟨by decide, by decide⟩, rfl⟩
theorem witness_StepNeverWritesInput : step atFinal = .next atDone := rfl
theorem witness_HeaderRegistersConstant : step atFinal = .next atDone ∧ atFinal.phase ≠ .header := ⟨rfl, by decide⟩
theorem witness_OutputWrittenAtWriteCursor :
    (after (step atMatchCopy)).isSome = true ∧ inLoop atMatchCopy.phase = true ∧ 0 ≠ atMatchCopy.wr.toNat := by decide
theorem witness_CursorsOnlyAdvance :
    CallInv atMatchCopy ∧ (after (step atMatchCopy)).isSome = true ∧ inLoop atMatchCopy.phase = true :=
  ⟨callInv_atMatchCopy, by decide, by decide⟩
theorem witness_EveryCallEnds : CallInv atHeader ∧ calling atHeader := ⟨callInv_atHeader, rfl, by decide, by decide⟩
theorem witness_SuccessHandsOverWholeOutput : CallInv atDone ∧ atDone.phase = .done ∧ atDone.status = 0#3 :=
  ⟨callInv_atDone, rfl, rfl⟩
theorem witness_OutputHasDeclaredLength :
    decodeCall bytesP1 (fun _ => true) = some (.ok (List.replicate 11 0x41)) := rfl
theorem witness_StepMachineComputesDecode :
    (fun _ : Nat => true) 0 = true ∧ (∀ d, decompressedSize bytesP1 = some d → true = (fun _ : Nat => true) d) ∧
    CallInv State.reset ∧ (launch bytesP1 true State.reset).isSome = true :=
  ⟨rfl, fun _ _ => rfl, callInv_reset, by decide⟩
theorem witness_CallsForgetThePast :
    CallInv State.reset ∧ CallInv { State.reset with rd := 7, fw := 5 } ∧
    (launch bytesP1 true State.reset).isSome = true ∧
    (launch bytesP1 true { State.reset with rd := 7, fw := 5 }).isSome = true :=
  ⟨callInv_reset, ⟨by decide, by decide, by decide, by decide, by decide, by decide, by decide⟩, by decide, by decide⟩
theorem witness_HeaderShapeDoesNotMatter : (0x00 : Byte).getLsbD 1 = false ∧ (0x02 : Byte).getLsbD 1 = true := by decide

end Sys2Proof.Tests
end

section
/-!
PROOFS of the family `00_scope.md`: the ranges of the match forms (R12, R93) and the host's launch (R7, R200, R270).
-/

namespace Sys2Proof.Proofs

open Sys2Proof.Machine Sys2Proof.Laws

/-! ## The match forms -/

/-- The four items that are match forms, with the naturals each stands for. -/
theorem matchForm_cases {i : Instr} {w d l : Nat} (h : matchForm i = some (w, d, l)) :
    (∃ x, i = .m1 x ∧ w = 1 ∧ d = x.toNat ∧ l = 3) ∨
    (∃ x, i = .m2a x ∧ w = 2 ∧ d = x.toNat ∧ l = 3) ∨
    (∃ y x, i = .m2b y x ∧ w = 2 ∧ d = x.toNat ∧ l = y.toNat + 3) ∨
    (∃ y x, i = .m3 y x ∧ w = 3 ∧ d = x.toNat ∧ l = y.toNat + 2) := by
  cases i with
  | m1 x => cases h; exact .inl ⟨x, rfl, rfl, rfl, rfl⟩
  | m2a x => cases h; exact .inr (.inl ⟨x, rfl, rfl, rfl, rfl⟩)
  | m2b y x => cases h; exact .inr (.inr (.inl ⟨y, x, rfl, rfl, rfl, rfl⟩))
  | m3 y x => cases h; exact .inr (.inr (.inr ⟨y, x, rfl, rfl, rfl, rfl⟩))
  | hdrC | hdrX | flagw | litS | litL | m3Rsvd => cases h

/-- The width of a match form is the number of bytes it is encoded in. -/
theorem encode_length_of_matchForm {i : Instr} {w d l : Nat} (hw : i.WellFormed = true)
    (h : matchForm i = some (w, d, l)) : (encode i).length = w := by
  obtain ⟨x, rfl, rfl, -⟩ | ⟨x, rfl, rfl, -⟩ | ⟨y, x, rfl, rfl, -⟩ | ⟨y, x, rfl, rfl, -⟩ := matchForm_cases h
  · exact EncodedLength.m1 x hw
  · exact EncodedLength.m2a x hw
  · exact EncodedLength.m2b y x hw
  · exact EncodedLength.m3 y x hw

/-- The length field of a well-formed `M3` is not 0 (R91), so its length is at least 3. -/
theorem m3_wellFormed_iff (l : BitVec 5) (d : BitVec 17) : (Instr.m3 l d).WellFormed = true ↔ 0 < l.toNat := by
  simp [Instr.WellFormed, Nat.pos_iff_ne_zero, BitVec.toNat_eq]

/-- Settles O8, by the four match forms: each range is the width of the form's fields. -/
theorem matchFormRanges : Obligations.MatchFormRanges := by
  intro i w d l hwf h
  refine ⟨(encode_length_of_matchForm hwf h).symm, ?_⟩
  simp only [Config.minMatch, Config.maxMatch, Config.maxDistance]
  obtain ⟨x, -, rfl, rfl, rfl⟩ | ⟨x, -, rfl, rfl, rfl⟩ | ⟨y, x, -, rfl, rfl, rfl⟩ | ⟨y, x, rfl, rfl, rfl, rfl⟩ :=
    matchForm_cases h
  · have hx := x.isLt
    omega
  · have hx := x.isLt
    omega
  · have hx := x.isLt
    have hy := y.isLt
    omega
  · have hx := x.isLt
    have hy := y.isLt
    have hpos := (m3_wellFormed_iff y x).1 hwf
    omega

/-! ## The launch -/

section
variable {bytes : List Byte} {granted : Bool} {s t : State}

/-- When the host cannot launch (R7, R273). -/
theorem launch_eq_none_iff :
    launch bytes granted s = none ↔ s.phase ≠ .idle ∨ s.cmd ≠ none ∨ Config.inputLimit ≤ bytes.length := by
  unfold launch
  split
  · rename_i h
    obtain ⟨hp, hc, hl⟩ := h
    simp [hp, hc, hl]
  · rename_i h
    simpa [imp_iff_not_or] using h

/-- `in_len` after a launch is the number of bytes presented. -/
theorem inLen_of_launch (h : launch bytes granted s = some t) : t.inLen.toNat = bytes.length := by
  obtain ⟨⟨-, -, hl⟩, rfl⟩ := launch_eq_some_iff.1 h
  exact (BitVec.toNat_ofNat ..).trans (Nat.mod_eq_of_lt hl)

/-- `IN` after a launch is the list of bytes presented (R36, R270). -/
theorem readIn_of_launch (h : launch bytes granted s = some t) (a : Nat) : readIn t a = bytes[a]? := by
  have hinp : memRead t.inp a = bytes[a]? := by
    obtain ⟨-, rfl⟩ := launch_eq_some_iff.1 h
    simp [memRead_memOfBytes]
  rw [readIn, inLen_of_launch h, hinp]
  split
  · rfl
  · rename_i ha
    exact (List.getElem?_eq_none (not_lt.1 ha)).symm

/-- In phase `IDLE` the invariant says that `IN` is presented whole and that `OUT` does not exist (R41). -/
theorem callInv_idle_iff (hp : s.phase = .idle) : CallInv s ↔ s.inp.filled s.inLen.toNat ∧ s.out = none := by
  constructor
  · rintro ⟨hin, -, hout, -⟩
    exact ⟨hin, hout (.inl hp)⟩
  · rintro ⟨hin, hout⟩
    exact ⟨hin, by simp [hout], fun _ => hout, by simp [hp, headerLoaded], by simp [hp], by simp [hp, inLoop],
      by simp [hp]⟩

/-- A launch keeps the invariant: it presents all of `IN` and leaves `OUT` and the phase as they are. -/
theorem callInv_of_launch (h : launch bytes granted s = some t) (hs : CallInv s) : CallInv t := by
  obtain ⟨⟨hp, -, -⟩, ht⟩ := launch_eq_some_iff.1 h
  obtain ⟨-, hout⟩ := (callInv_idle_iff hp).1 hs
  have hp' : t.phase = .idle := by rw [ht]; exact hp
  refine (callInv_idle_iff hp').2 ⟨?_, by rw [ht]; exact hout⟩
  rw [inLen_of_launch h, ht]
  exact memOfBytes_filled bytes

end

/-- Settles O35: the state is the one `launch_eq_some_iff` gives, and its reads are those of the buffer. -/
theorem launchPresentsInput : Obligations.LaunchPresentsInput := by
  intro bytes granted s
  refine ⟨fun hp hc hl => ?_, launch_eq_none_iff.2⟩
  have h := launch_eq_some_iff (granted := granted).2 ⟨⟨hp, hc, hl⟩, rfl⟩
  exact ⟨_, h, inLen_of_launch h, readIn_of_launch h, rfl, rfl, rfl, callInv_of_launch h⟩

end Sys2Proof.Proofs
end

section
/-!
PROOFS of the family `10_state.md`, the state and its moves: what an item can do, and what a step can do, said once.
-/

namespace Sys2Proof.Proofs

open Sys2Proof.Machine Sys2Proof.Laws

/-! ## What an item can do -/

/-- `r` is `RD` where a token that fails has left it: where it stood, or past bytes that `CSIZE` covers (log entry 9). -/
def readAhead (s : State) (r : BitVec 32) : Prop :=
  r = s.rd ∨ ∃ w : Nat, s.rd.toNat + w ≤ s.csize.toNat ∧ r = s.rd + BitVec.ofNat 32 w

/-- Everything an item of family `c` can do. `wf` says whether the item is well formed: only the ill-formed `LIT.S` with
0 starts an empty run (log entry 14). -/
inductive ItemEffect (c : Context) (wf : Bool) (s t : State) : Prop where
  /-- the item raises its family's error (R113, R132, R150 to R152, R165, R170 to R172) -/
  | raised (r : BitVec 32) (d : BitVec 17) (hr : readAhead s r)
      (ht : t = raise (cutKind c) { s with rd := r, dist := d })
  /-- a header is loaded (R110 to R112) -/
  | loaded (ctrl : BitVec 8) (h : BitVec 4) (dsize plen : BitVec 32) (hc : c = .header) (hh : h = 3#4 ∨ h = 9#4)
      (hin : h.toNat ≤ s.inLen.toNat) (ht : t = loadHeader ctrl h dsize plen s)
  /-- the flag register is refilled (R132) -/
  | refilled (w : BitVec 32) (hc : c = .flagWord) (hin : s.rd.toNat + 4 ≤ s.csize.toNat) (ht : t = refillFlags w s)
  /-- a literal run starts (R152) -/
  | literal (w : Nat) (n : BitVec 32) (hc : c = .literal) (hw : 0 < w) (hin : s.rd.toNat + w ≤ s.csize.toNat)
      (hn : wf = true → n ≠ 0#32) (hout : n.toNat ≤ outputLeft s) (hleft : n.toNat ≤ inputLeft (advance w s))
      (ht : t = beginCopy n .litcopy (advance w s))
  /-- a match copy starts (R170, R171) -/
  | backref (w : Nat) (d : BitVec 17) (n : BitVec 32) (hc : c = .backref) (hw : 0 < w)
      (hin : s.rd.toNat + w ≤ s.csize.toNat) (hn : n ≠ 0#32) (hout : n.toNat ≤ outputLeft s) (hd : d ≠ 0#17)
      (hsrc : d.toNat ≤ s.wr.toNat) (ht : t = beginCopy n .matchcopy (advance w (setDist d s)))

section
variable {s t : State}

/-- An item that raises before it writes anything. -/
theorem ItemEffect.raise_untouched {c : Context} {wf : Bool} {k : ErrorKind} (hk : k = cutKind c) :
    ItemEffect c wf s (raise k s) :=
  .raised s.rd s.dist (.inl rfl) (by rw [hk])

theorem not_inputShort {w : Nat} (h : ¬ inputShort w s = true) : s.rd.toNat + w ≤ s.csize.toNat :=
  not_lt.1 (fun hlt => h ((inputShort_iff w s).2 hlt))

/-- R152, with `RD` past a count field of `w` bytes. -/
theorem startLiteral_effect {wf : Bool} {w : Nat} {n : BitVec 32} (hw : 0 < w)
    (hin : s.rd.toNat + w ≤ s.csize.toNat) (hn : wf = true → n ≠ 0#32) :
    ItemEffect .literal wf s (startLiteral n (advance w s)) := by
  rcases startLiteral_cases n (advance w s) with ⟨hout, hleft, ht⟩ | ⟨-, ht⟩
  · exact .literal w n rfl hw hin hn hout hleft ht
  · exact .raised _ s.dist (.inr ⟨w, hin, rfl⟩) ht

/-- R165, then R170 and R171. -/
theorem matchToken_effect {wf : Bool} {w : Nat} (d : BitVec 17) {n : BitVec 32} (hw : 0 < w) (hn : n ≠ 0#32) :
    ItemEffect .backref wf s (matchToken w d n s) := by
  rcases matchToken_cases w d n s with ⟨hin, hd, hsrc, hout, ht⟩ | ⟨-, ht⟩ | ⟨hin, -, ht⟩
  · exact .backref w d n rfl hw hin hn hout hd hsrc ht
  · rw [ht]
    exact .raise_untouched rfl
  · exact .raised _ d (.inr ⟨w, hin, rfl⟩) ht

theorem shortCount_ne_zero {n : BitVec 8} (h : n ≠ 0#8) : shortCount n ≠ 0#32 := by
  intro h0
  exact h (by simpa [shortCount] using congrArg (BitVec.setWidth 8) h0)

theorem m2bLength_ne_zero (l : BitVec 4) : m2bLength l ≠ 0#32 := by
  unfold m2bLength
  bv_omega

theorem m3Length_ne_zero (l : BitVec 5) : m3Length l ≠ 0#32 := by
  unfold m3Length
  bv_omega

/-- Everything an item can do. -/
theorem exec_effect {i : Instr} (h : exec i s = .next t) : ItemEffect (contextOf i) i.WellFormed s t := by
  cases i <;> simp only [exec, contextOf] at h ⊢
  case hdrC ctrl dlen plen =>
    unfold execHdrC at h
    split at h <;> injection h with h <;> subst h
    · exact .raise_untouched rfl
    · exact .loaded ctrl _ _ _ rfl (.inl rfl) (not_lt.1 ‹_›) rfl
  case hdrX ctrl dlen plen =>
    unfold execHdrX at h
    split at h <;> injection h with h <;> subst h
    · exact .raise_untouched rfl
    · exact .loaded ctrl _ _ _ rfl (.inr rfl) (not_lt.1 ‹_›) rfl
  case flagw flags =>
    unfold execFlagw at h
    split at h <;> injection h with h <;> subst h
    · exact .raise_untouched rfl
    · exact .refilled flags rfl (not_inputShort ‹_›) rfl
  case litS n =>
    unfold execLitS at h
    split at h <;> injection h with h <;> subst h
    · exact .raise_untouched rfl
    · refine startLiteral_effect Nat.one_pos (not_inputShort ‹_›) (fun hwf => shortCount_ne_zero ?_)
      simpa [Instr.WellFormed] using hwf
  case litL n =>
    unfold execLitL at h
    split at h
    · injection h with h
      subst h
      exact .raise_untouched rfl
    · split at h <;> injection h with h <;> subst h
      · exact .raised _ s.dist (.inr ⟨5, not_inputShort ‹_›, rfl⟩) rfl
      · exact startLiteral_effect (by decide) (not_inputShort ‹_›) (fun _ => ‹_›)
  case m1 d =>
    injection h with h
    subst h
    exact matchToken_effect _ (by decide) (by decide)
  case m2a d =>
    injection h with h
    subst h
    exact matchToken_effect _ (by decide) (by decide)
  case m2b l d =>
    injection h with h
    subst h
    exact matchToken_effect _ (by decide) (m2bLength_ne_zero l)
  case m3Rsvd d =>
    injection h with h
    subst h
    exact .raise_untouched rfl
  case m3 l d =>
    unfold execM3 at h
    split at h <;> injection h with h <;> subst h
    · exact .raise_untouched rfl
    · exact matchToken_effect _ (by decide) (m3Length_ne_zero l)

end

/-- Settles O11: whatever an item does, it writes neither space, nor `WR`, nor a parameter of the call. -/
theorem itemsStoreNothing : Obligations.ItemsStoreNothing := by
  intro i s t h
  obtain ⟨r, d, -, rfl⟩ | ⟨ctrl, h, dsize, plen, -, -, -, rfl⟩ | ⟨w, -, -, rfl⟩ | ⟨w, n, -, -, -, -, -, -, rfl⟩ |
    ⟨w, d, n, -, -, -, -, -, -, -, rfl⟩ := exec_effect h
  all_goals exact ⟨⟨fun _ => rfl, fun _ => rfl, rfl⟩, rfl, rfl, rfl, rfl⟩

/-! ## What a step can do -/

/-- The phases of the rules that raise each kind (R221 to R224, R231). -/
def raisesIn : ErrorKind → Phase → Prop
  | .malformedHeader, p => p = .header
  | .sizeMismatch, p => p = .sizechk
  | .streamCorruption, p => p = .flag ∨ p = .litdec ∨ p = .matchdec ∨ p = .final
  | .allocationFailure, p => p = .alloc

/-- Everything a step that answers a next state can do, each with the rule that does it and the phase it does it in. -/
inductive Move (s t : State) : Prop where
  /-- `start` is taken (R200) -/
  | begun (hcmd : s.cmd = some .start) (hp : s.phase = .idle) (ht : t = beginCall s)
  /-- `ack` is taken (R208) -/
  | acknowledged (hcmd : s.cmd = some .ack) (hp : s.phase = .done) (ht : t = acknowledge s)
  /-- the block waits for the host (log entry 6) -/
  | waited (hcmd : s.cmd = none) (hp : s.phase = .idle ∨ s.phase = .done) (ht : t = s)
  /-- an error ends the call (R240) -/
  | raised (hcmd : s.cmd = none) (k : ErrorKind) (r : BitVec 32) (d : BitVec 17) (hp : raisesIn k s.phase)
      (hr : readAhead s r) (ht : t = raise k { s with rd := r, dist := d })
  /-- the header is loaded (R110 to R112) -/
  | loaded (hcmd : s.cmd = none) (hp : s.phase = .header) (ctrl : BitVec 8) (h : BitVec 4) (dsize plen : BitVec 32)
      (hh : h = 3#4 ∨ h = 9#4) (hin : h.toNat ≤ s.inLen.toNat) (ht : t = loadHeader ctrl h dsize plen s)
  /-- the size check passes (R202) -/
  | sized (hcmd : s.cmd = none) (hp : s.phase = .sizechk) (hsize : s.csize.toNat = s.inLen.toNat)
      (ht : t = setPhase .alloc s)
  /-- the zero-length short-circuit (R203) -/
  | emptied (hcmd : s.cmd = none) (hp : s.phase = .alloc) (hd : s.dsize = 0#32)
      (ht : t = succeed 0#32 (createOutput s))
  /-- entry to the token loop (R204) -/
  | entered (hcmd : s.cmd = none) (hp : s.phase = .alloc) (hd : s.dsize ≠ 0#32)
      (ht : t = enterLoop (createOutput s))
  /-- the output is complete (R131) -/
  | filled (hcmd : s.cmd = none) (hp : s.phase = .loop) (hw : s.wr = s.dsize) (ht : t = setPhase .final s)
  /-- a token is due (R131) -/
  | continued (hcmd : s.cmd = none) (hp : s.phase = .loop) (hw : s.wr ≠ s.dsize) (ht : t = setPhase .flag s)
  /-- the flag register is refilled (R132) -/
  | refilled (hcmd : s.cmd = none) (hp : s.phase = .flag) (hf : s.fcnt = 0#6) (w : BitVec 32)
      (hin : s.rd.toNat + 4 ≤ s.csize.toNat) (ht : t = refillFlags w s)
  /-- a flag bit is consumed (R133) -/
  | consumed (hcmd : s.cmd = none) (hp : s.phase = .flag) (hf : s.fcnt ≠ 0#6) (ht : t = consumeFlag s)
  /-- a literal run starts (R152) -/
  | literalStarted (hcmd : s.cmd = none) (hp : s.phase = .litdec) (w : Nat) (n : BitVec 32) (hw : 0 < w)
      (hin : s.rd.toNat + w ≤ s.csize.toNat) (hn : n ≠ 0#32) (hout : n.toNat ≤ outputLeft s)
      (hleft : n.toNat ≤ inputLeft (advance w s)) (ht : t = beginCopy n .litcopy (advance w s))
  /-- a match copy starts (R171) -/
  | matchStarted (hcmd : s.cmd = none) (hp : s.phase = .matchdec) (w : Nat) (d : BitVec 17) (n : BitVec 32)
      (hw : 0 < w) (hin : s.rd.toNat + w ≤ s.csize.toNat) (hn : n ≠ 0#32) (hout : n.toNat ≤ outputLeft s)
      (hd : d ≠ 0#17) (hsrc : d.toNat ≤ s.wr.toNat)
      (ht : t = beginCopy n .matchcopy (advance w (setDist d s)))
  /-- one byte of a literal run is copied (R153) -/
  | literalCopied (hcmd : s.cmd = none) (hp : s.phase = .litcopy) (b : Byte) (m : Memory) (hout : s.out = some m)
      (hw : s.wr.toNat < s.dsize.toNat) (ht : t = byteDone (memWrite m s.wr.toNat b) (advance 1 s))
  /-- one byte of a match is copied (R186) -/
  | matchCopied (hcmd : s.cmd = none) (hp : s.phase = .matchcopy) (b : Byte) (m : Memory) (hout : s.out = some m)
      (hw : s.wr.toNat < s.dsize.toNat) (ht : t = byteDone (memWrite m s.wr.toNat b) s)
  /-- the call succeeds (R207) -/
  | succeeded (hcmd : s.cmd = none) (hp : s.phase = .final) (hr : s.rd.toNat = s.csize.toNat)
      (ht : t = succeed s.dsize s)

section
variable {s t : State}

/-- An error that no token raises leaves `RD` and `DIST` alone. -/
theorem Move.raised_untouched {k : ErrorKind} (hcmd : s.cmd = none) (hp : raisesIn k s.phase) : Move s (raise k s) :=
  .raised hcmd k s.rd s.dist hp (.inl rfl) rfl

/-- The size check (R202). -/
theorem sizeCheck_move (hcmd : s.cmd = none) (hp : s.phase = .sizechk) : Move s (sizeCheck s) := by
  unfold sizeCheck
  split
  · exact .sized hcmd hp ‹_› rfl
  · exact .raised_untouched hcmd hp

/-- The allocation (R203, R204). -/
theorem allocate_move (hcmd : s.cmd = none) (hp : s.phase = .alloc) : Move s (allocate s) := by
  unfold allocate
  split
  · split
    · exact .emptied hcmd hp ‹_› rfl
    · exact .entered hcmd hp ‹_› rfl
  · exact .raised_untouched hcmd hp

/-- The loop test (R131). -/
theorem loopTest_move (hcmd : s.cmd = none) (hp : s.phase = .loop) : Move s (loopTest s) := by
  unfold loopTest
  split
  · exact .filled hcmd hp ‹_› rfl
  · exact .continued hcmd hp ‹_› rfl

/-- The final check (R206, R207). -/
theorem finalCheck_move (hcmd : s.cmd = none) (hp : s.phase = .final) : Move s (finalCheck s) := by
  unfold finalCheck
  split
  · exact .succeeded hcmd hp ‹_› rfl
  · exact .raised_untouched hcmd (.inr (.inr (.inr hp)))

/-- Where an item of a family is due, its family's error may be raised. -/
theorem raisesIn_duePhase (c : Context) : raisesIn (cutKind c) (duePhase c) := by
  cases c <;> simp [raisesIn, cutKind, duePhase]

/-- The item a fetch finds is well formed and of the family asked for (R81, R94). -/
theorem fetch_run {c : Context} {i : Instr} (h : fetch c s = .run i) : i.WellFormed = true ∧ contextOf i = c := by
  obtain ⟨-, hx⟩ | ⟨_, -, -, hx⟩ | ⟨_, _, j, -, -, -, -, hwf, hc, hx⟩ | ⟨-, hx⟩ := fetch_cases c s
  case inr.inr.inl =>
    obtain rfl : i = j := by simpa [h] using hx
    exact ⟨hwf, hc⟩
  all_goals
    rw [h] at hx
    cases hx

/-- A step at an item that is due does what a well-formed item of the family can do. -/
theorem itemStep_effect (h : ItemStep s t) :
    ∃ c, s.phase = duePhase c ∧ (c = .flagWord → s.fcnt = 0#6) ∧ ItemEffect c true s t := by
  obtain ⟨c, hp, hf, rfl⟩ | ⟨c, i, hp, hf, hi, ht⟩ := h
  · exact ⟨c, hp, hf, .raise_untouched rfl⟩
  · obtain ⟨hwf, hc⟩ := fetch_run hi
    exact ⟨c, hp, hf, hc ▸ hwf ▸ exec_effect ht⟩

/-- A step at an item that is due. -/
theorem itemStep_move (hcmd : s.cmd = none) (h : ItemStep s t) : Move s t := by
  obtain ⟨c, hp, hf, he⟩ := itemStep_effect h
  cases he with
  | raised r d hr ht => exact .raised hcmd _ r d (hp ▸ raisesIn_duePhase c) hr ht
  | loaded ctrl h dsize plen hc hh hin ht =>
    subst hc
    exact .loaded hcmd hp ctrl h dsize plen hh hin ht
  | refilled w hc hin ht =>
    subst hc
    exact .refilled hcmd hp (hf rfl) w hin ht
  | literal w n hc hw hin hn hout hleft ht =>
    subst hc
    exact .literalStarted hcmd hp w n hw hin (hn rfl) hout hleft ht
  | backref w d n hc hw hin hn hout hd hsrc ht =>
    subst hc
    exact .matchStarted hcmd hp w d n hw hin hn hout hd hsrc ht

/-- Everything a step that answers a next state can have been. -/
theorem step_move (h : step s = .next t) : Move s t := by
  obtain ⟨hc, hp, ht⟩ | ⟨hc, hp, ht⟩ | ⟨hc, ⟨hp, ht⟩ | ⟨hp, rfl⟩ | ⟨hp, rfl⟩ | ⟨hp, rfl⟩ | ⟨hp, hf, ht⟩ | ⟨hp, hstep⟩ |
    ⟨hp, hstep⟩ | ⟨hp, rfl⟩ | hitem⟩ := step_cases h
  · exact .begun hc hp ht
  · exact .acknowledged hc hp ht
  · exact .waited hc hp ht
  · exact sizeCheck_move hc hp
  · exact allocate_move hc hp
  · exact loopTest_move hc hp
  · exact .consumed hc hp hf ht
  · obtain ⟨-, b, m, -, hm, hw, ht⟩ := literalCopyStep_next hstep
    exact .literalCopied hc hp b m hm hw ht
  · obtain ⟨-, -, b, m, -, hm, hw, ht⟩ := matchCopyStep_next hstep
    exact .matchCopied hc hp b m hm hw ht
  · exact finalCheck_move hc hp
  · exact itemStep_move hc hitem

end

end Sys2Proof.Proofs
end

section
/-!
PROOFS of the family `10_state.md`: what every step leaves alone (R20, R23, R24, R30, R36, R37), and the codes a call
ends with (R31).
-/

namespace Sys2Proof.Proofs

open Sys2Proof.Machine Sys2Proof.Laws

/-- Settles O49: no move writes a parameter of the call. -/
theorem stepNeverWritesInput : Obligations.StepNeverWritesInput := by
  intro s t h
  cases step_move h <;> subst t <;> exact ⟨rfl, rfl, rfl⟩

/-- Settles O50: only the move that loads the header writes a header register, and it is made in phase `HEADER`. -/
theorem headerRegistersConstant : Obligations.HeaderRegistersConstant := by
  intro s t h hp
  cases step_move h
  case loaded => contradiction
  all_goals
    subst t
    exact ⟨rfl, rfl, rfl, rfl, rfl⟩

/-- What a step of the phases `LOOP` to `FINAL` does to `OUT` and `WR`: it leaves both alone, or writes one byte of
`OUT` at `WR` and moves `WR` on (R153, R186). -/
theorem step_output {s t : State} (h : step s = .next t) (hp : inLoop s.phase = true) :
    (t.out = s.out ∧ t.wr = s.wr) ∨
    ∃ m b, s.out = some m ∧ s.wr.toNat < s.dsize.toNat ∧ t.out = some (memWrite m s.wr.toNat b) ∧
      t.wr = s.wr + 1#32 := by
  cases step_move h
  case literalCopied b m hm hw ht =>
    subst ht
    exact .inr ⟨m, b, hm, hw, rfl, rfl⟩
  case matchCopied b m hm hw ht =>
    subst ht
    exact .inr ⟨m, b, hm, hw, rfl, rfl⟩
  case acknowledged hq _ | emptied hq _ _ | entered hq _ _ => simp [hq, inLoop] at hp
  all_goals
    subst t
    exact .inl ⟨rfl, rfl⟩

theorem outByte_of_out_eq {s t : State} (h : t.out = s.out) (a : Nat) : outByte t a = outByte s a := by
  simp only [outByte, h]

/-- Settles O51: the one byte a step of the loop may write stands at `WR`. -/
theorem outputWrittenAtWriteCursor : Obligations.OutputWrittenAtWriteCursor := by
  intro s t a h hp ha
  obtain ⟨hout, -⟩ | ⟨m, b, hm, -, hout, -⟩ := step_output h hp
  · exact outByte_of_out_eq hout a
  · simpa only [outByte, hout, hm] using memRead_memWrite_other m b ha

/-- A byte put in a canonical `OUT` leaves it canonical. -/
theorem memWrite_wf_of_out {s : State} {m : Memory} (hwf : ∀ m ∈ s.out, m.wf) (hm : s.out = some m) (a : Nat)
    (b : Byte) : ∀ m' ∈ some (memWrite m a b), m'.wf := by
  rintro _ ⟨⟩
  exact memWrite_wf (hwf m hm) a b

/-- Settles O48: `IN` is never written, and `OUT` is left alone, given up, made empty, or written through `memWrite`. -/
theorem spacesStayCanonical : Obligations.SpacesStayCanonical := by
  rintro s t ⟨hin, hout⟩ h
  refine ⟨(stepNeverWritesInput s t h).1 ▸ hin, ?_⟩
  cases step_move h
  case acknowledged ht => simp [ht]
  case emptied ht | entered ht => simp [ht, nil_wf]
  case literalCopied b m hm _ ht | matchCopied b m hm _ ht =>
    subst ht
    exact memWrite_wf_of_out hout hm _ b
  all_goals
    subst t
    exact hout

/-- The code of each kind, with the phases of the rules that raise it. -/
theorem errorCode_of_raisesIn {k : ErrorKind} {p : Phase} (h : raisesIn k p) :
    (errorCode k = 1#3 ∧ p = .header) ∨ (errorCode k = 2#3 ∧ p = .sizechk) ∨
    (errorCode k = 3#3 ∧ (p = .flag ∨ p = .litdec ∨ p = .matchdec ∨ p = .final)) ∨
    (errorCode k = 4#3 ∧ p = .alloc) := by
  cases k with
  | malformedHeader => exact .inl ⟨rfl, h⟩
  | sizeMismatch => exact .inr (.inl ⟨rfl, h⟩)
  | streamCorruption => exact .inr (.inr (.inl ⟨rfl, h⟩))
  | allocationFailure => exact .inr (.inr (.inr ⟨rfl, h⟩))

/-- A phase other than `DONE` that a byte copy leaves is not `DONE`. -/
theorem byteDone_phase_ne_done {m : Memory} {s : State} (h : s.phase ≠ .done) : (byteDone m s).phase ≠ .done := by
  rw [byteDone_phase]
  split
  · decide
  · exact h

theorem flagPhase_ne_done (f : Bool) : flagPhase f ≠ .done := by
  cases f <;> decide

/-- Settles O43: a call ends by an error, with its kind's code, or by one of the two successes, with code 0. -/
theorem eachCodeFromItsPhases : Obligations.EachCodeFromItsPhases := by
  intro s t h hs ht
  cases step_move h
  case raised k r d hp _ hx =>
    rw [hx]
    exact .inr (errorCode_of_raisesIn hp)
  case emptied hp _ hx =>
    rw [hx]
    exact .inl ⟨rfl, .inl hp⟩
  case succeeded hp _ hx =>
    rw [hx]
    exact .inl ⟨rfl, .inr hp⟩
  case acknowledged hp _ => contradiction
  case waited hx | refilled hx =>
    rw [hx] at ht
    exact absurd ht hs
  case consumed hx =>
    rw [hx] at ht
    exact absurd ht (flagPhase_ne_done _)
  case literalCopied hx | matchCopied hx =>
    rw [hx] at ht
    exact absurd ht (byteDone_phase_ne_done hs)
  all_goals
    subst t
    cases ht

end Sys2Proof.Proofs
end

section
/-!
PROOFS of the family `10_state.md`: the invariant of a call (R42), phase by phase, and that every step keeps it.
-/

namespace Sys2Proof.Proofs

open Sys2Proof.Machine Sys2Proof.Laws

/-! ## The invariant, phase by phase -/

/-- What R42 says of the cursors and of `OUT` in every phase from `LOOP` to `FINAL`. -/
structure CursorInv (s : State) : Prop where
  csize : s.csize.toNat = s.inLen.toNat
  hlen_le_rd : s.hlen.toNat ≤ s.rd.toNat
  rd_le_csize : s.rd.toNat ≤ s.csize.toNat
  dsize_pos : 0 < s.dsize.toNat
  wr_le_dsize : s.wr.toNat ≤ s.dsize.toNat
  fcnt_le : s.fcnt.toNat ≤ 32
  out_filled : outFilled s s.wr.toNat

/-- What R42 adds in one phase `p` of the loop. -/
def PhaseInv (p : Phase) (s : State) : Prop :=
  match p with
  | .flag | .litdec | .matchdec => s.wr.toNat < s.dsize.toNat
  | .litcopy =>
    1 ≤ s.cnt.toNat ∧ s.cnt.toNat ≤ s.dsize.toNat - s.wr.toNat ∧ s.cnt.toNat ≤ s.csize.toNat - s.rd.toNat
  | .matchcopy =>
    1 ≤ s.cnt.toNat ∧ s.cnt.toNat ≤ s.dsize.toNat - s.wr.toNat ∧ 1 ≤ s.dist.toNat ∧ s.dist.toNat ≤ s.wr.toNat
  | .final => s.wr = s.dsize
  | .idle | .header | .sizechk | .alloc | .loop | .done => True

section
variable {s t : State}

/-- R42's two parts. -/
theorem loopInv_iff : LoopInv s ↔ CursorInv s ∧ PhaseInv s.phase s := by
  constructor
  · rintro ⟨h1, h2, h3, h4, h5, h6, h7, hdec, hlit, hmatch, hfinal⟩
    refine ⟨⟨h1, h2, h3, h4, h5, h6, h7⟩, ?_⟩
    cases hp : s.phase with
    | flag => exact hdec (.inl hp)
    | litdec => exact hdec (.inr (.inl hp))
    | matchdec => exact hdec (.inr (.inr hp))
    | litcopy => exact hlit hp
    | matchcopy => exact hmatch hp
    | final => exact hfinal hp
    | idle | header | sizechk | alloc | loop | done => trivial
  · rintro ⟨⟨h1, h2, h3, h4, h5, h6, h7⟩, h⟩
    refine ⟨h1, h2, h3, h4, h5, h6, h7, ?_, ?_, ?_, ?_⟩
    · rintro (hp | hp | hp) <;> rw [hp] at h <;> exact h
    all_goals
      intro hp
      rw [hp] at h
      exact h

/-- In phase `HEADER` the invariant says what it says in `IDLE` (R41, R200). -/
theorem callInv_header_iff (hp : s.phase = .header) : CallInv s ↔ s.inp.filled s.inLen.toNat ∧ s.out = none := by
  constructor
  · rintro ⟨hin, -, hout, -⟩
    exact ⟨hin, hout (.inr (.inl hp))⟩
  · rintro ⟨hin, hout⟩
    exact ⟨hin, by simp [hout], fun _ => hout, by simp [hp, headerLoaded], by simp [hp], by simp [hp, inLoop],
      by simp [hp]⟩

/-- In phase `SIZECHK` it adds what the header left. -/
theorem callInv_sizechk_iff (hp : s.phase = .sizechk) :
    CallInv s ↔ s.inp.filled s.inLen.toNat ∧ s.out = none ∧ HeaderInv s := by
  constructor
  · rintro ⟨hin, -, hout, hhdr, -⟩
    exact ⟨hin, hout (.inr (.inr (.inl hp))), hhdr (by rw [hp]; rfl)⟩
  · rintro ⟨hin, hout, hhdr⟩
    exact ⟨hin, by simp [hout], fun _ => hout, fun _ => hhdr, by simp [hp], by simp [hp, inLoop], by simp [hp]⟩

/-- In phase `ALLOC` it adds what the size check found (R202). -/
theorem callInv_alloc_iff (hp : s.phase = .alloc) :
    CallInv s ↔
      s.inp.filled s.inLen.toNat ∧ s.out = none ∧ HeaderInv s ∧ s.csize.toNat = s.inLen.toNat := by
  constructor
  · rintro ⟨hin, -, hout, hhdr, hsize, -⟩
    exact ⟨hin, hout (.inr (.inr (.inr hp))), hhdr (by rw [hp]; rfl), hsize hp⟩
  · rintro ⟨hin, hout, hhdr, hsize⟩
    exact ⟨hin, by simp [hout], fun _ => hout, fun _ => hhdr, fun _ => hsize, by simp [hp, inLoop], by simp [hp]⟩

/-- `OUT` as a space filled from index 0. -/
theorem outFilled_iff {n : Nat} : outFilled s n ↔ ∃ m, s.out = some m ∧ m.filled n :=
  Option.map_eq_some_iff

/-- An output filled from index 0 is in canonical form. -/
theorem wf_of_outFilled {n : Nat} (h : outFilled s n) : ∀ m ∈ s.out, m.wf := by
  obtain ⟨m, hm, hfilled⟩ := outFilled_iff.1 h
  simpa [hm] using filled_wf hfilled

/-- In the phases `LOOP` to `FINAL` it is R42. -/
theorem callInv_loop_iff {p : Phase} (hp : s.phase = p) (hl : inLoop p = true) :
    CallInv s ↔ s.inp.filled s.inLen.toNat ∧ HeaderInv s ∧ CursorInv s ∧ PhaseInv p s := by
  subst hp
  have hloaded : headerLoaded s.phase = true := by
    revert hl
    cases s.phase <;> decide
  constructor
  · rintro ⟨hin, -, -, hhdr, -, hloop, -⟩
    exact ⟨hin, hhdr hloaded, loopInv_iff.1 (hloop hl)⟩
  · rintro ⟨hin, hhdr, hcur, hph⟩
    refine ⟨hin, wf_of_outFilled hcur.out_filled, ?_, fun _ => hhdr, fun _ => hcur.csize,
      fun _ => loopInv_iff.2 ⟨hcur, hph⟩, ?_⟩
    · rintro (h | h | h | h) <;> simp [h, inLoop] at hl
    · intro h
      simp [h, inLoop] at hl

/-- In phase `DONE` it says what the call left (R31, R33, R207). -/
theorem callInv_done_iff (hp : s.phase = .done) :
    CallInv s ↔ s.inp.filled s.inLen.toNat ∧ (∀ m ∈ s.out, m.wf) ∧ DoneInv s := by
  constructor
  · rintro ⟨hin, hwf, -, -, -, -, hdone⟩
    exact ⟨hin, hwf, hdone hp⟩
  · rintro ⟨hin, hwf, hdone⟩
    exact ⟨hin, hwf, by simp [hp], by simp [hp, headerLoaded], by simp [hp], by simp [hp, inLoop], fun _ => hdone⟩

/-! ## What the moves of the loop do to it -/

/-- Bytes that `CSIZE` covers do not take `RD` beyond 32 bits (R212). -/
theorem CursorInv.rd_add (h : CursorInv s) {w : Nat} (hw : s.rd.toNat + w ≤ s.csize.toNat) :
    (s.rd + BitVec.ofNat 32 w).toNat = s.rd.toNat + w := by
  have hlt := s.inLen.isLt
  have hc := h.csize
  rw [BitVec.toNat_add, BitVec.toNat_ofNat, Nat.add_mod_mod, Nat.mod_eq_of_lt (by omega)]

/-- Moving `RD` over bytes that `CSIZE` covers keeps the cursors' facts. -/
theorem CursorInv.advanced (h : CursorInv s) {w : Nat} (hw : s.rd.toNat + w ≤ s.csize.toNat) :
    CursorInv (advance w s) where
  csize := h.csize
  hlen_le_rd := by
    rw [advance_rd, h.rd_add hw]
    exact Nat.le_add_right_of_le h.hlen_le_rd
  rd_le_csize := by
    rw [advance_rd, h.rd_add hw]
    exact hw
  dsize_pos := h.dsize_pos
  wr_le_dsize := h.wr_le_dsize
  fcnt_le := h.fcnt_le
  out_filled := h.out_filled

/-- A move of the phase, of `DIST` or of `CNT` is none of the cursors' business. -/
theorem CursorInv.congr (h : CursorInv s) (hx : t = { s with
    phase := t.phase, cnt := t.cnt, dist := t.dist, fw := t.fw, fcnt := t.fcnt }) (hf : t.fcnt.toNat ≤ 32) :
    CursorInv t := by
  rw [hx]
  exact ⟨h.csize, h.hlen_le_rd, h.rd_le_csize, h.dsize_pos, h.wr_le_dsize, hf, h.out_filled⟩

/-- `WR + 1` does not wrap below `DSIZE` (R212). -/
theorem wr_succ (hw : s.wr.toNat < s.dsize.toNat) : (s.wr + 1#32).toNat = s.wr.toNat + 1 := by
  bv_omega

/-- One output byte at `WR` keeps the cursors' facts (R153, R186). -/
theorem CursorInv.bytePut (h : CursorInv s) {m : Memory} (hm : s.out = some m) (hw : s.wr.toNat < s.dsize.toNat)
    (b : Byte) : CursorInv (byteDone (memWrite m s.wr.toNat b) s) where
  csize := h.csize
  hlen_le_rd := h.hlen_le_rd
  rd_le_csize := h.rd_le_csize
  dsize_pos := h.dsize_pos
  wr_le_dsize := by
    rw [byteDone_wr, wr_succ hw]
    exact hw
  fcnt_le := h.fcnt_le
  out_filled := by
    obtain ⟨m', hm', hfilled⟩ := outFilled_iff.1 h.out_filled
    obtain rfl : m = m' := Option.some.inj (hm.symm.trans hm')
    rw [byteDone_wr, wr_succ hw]
    exact outFilled_iff.2 ⟨_, rfl, memWrite_filled hfilled b⟩

/-! ## Every step keeps it -/

/-- What an error leaves satisfies `DONE`'s part (R31, R240). -/
theorem doneInv_raise (k : ErrorKind) (s : State) : DoneInv (raise k s) := by
  have hcode : (errorCode k).toNat ≤ 4 ∧ errorCode k ≠ statusOk := by cases k <;> decide
  exact ⟨hcode.1, fun _ => rfl, fun h => absurd h hcode.2⟩

/-- An error keeps the invariant, whatever it leaves in `RD` and `DIST`. -/
theorem callInv_raise (hs : CallInv s) (k : ErrorKind) (r : BitVec 32) (d : BitVec 17) :
    CallInv (raise k { s with rd := r, dist := d }) := by
  obtain ⟨hin, hwf, -⟩ := hs
  exact (callInv_done_iff rfl).2 ⟨hin, hwf, doneInv_raise k _⟩

/-- A success with `n` bytes keeps the invariant where `n` is `DSIZE` and `OUT` holds them (R203, R207). -/
theorem callInv_succeed {n : BitVec 32} (hin : s.inp.filled s.inLen.toNat) (hn : n = s.dsize)
    (hout : outFilled s n.toNat) : CallInv (succeed n s) :=
  (callInv_done_iff rfl).2 ⟨hin, wf_of_outFilled hout, by simp [statusOk], fun h => absurd rfl h, fun _ => ⟨hn, hout⟩⟩

/-- What the header rules load (R24, R111, R112). -/
theorem headerInv_loadHeader {h : BitVec 4} (ctrl : BitVec 8) (dsize plen : BitVec 32) (hh : h = 3#4 ∨ h = 9#4)
    (hin : h.toNat ≤ s.inLen.toNat) : HeaderInv (loadHeader ctrl h dsize plen s) := by
  refine ⟨hh, hin, ?_⟩
  simp only [loadHeader_csize, loadHeader_hlen, loadHeader_plen]
  bv_omega

theorem one_le_toNat {n : Nat} {v : BitVec n} (h : v ≠ 0#n) : 1 ≤ v.toNat :=
  Nat.pos_of_ne_zero (fun h0 => h (BitVec.eq_of_toNat_eq (by simpa using h0)))

/-- Entry to the loop (R204). -/
theorem cursorInv_enterLoop (hhdr : HeaderInv s) (hsize : s.csize.toNat = s.inLen.toNat) (hd : s.dsize ≠ 0#32) :
    CursorInv (enterLoop (createOutput s)) := by
  obtain ⟨-, hle, -⟩ := hhdr
  have hrd : (s.hlen.setWidth 32).toNat = s.hlen.toNat := by simp; omega
  exact ⟨hsize, hrd.ge, hrd.le.trans (hle.trans hsize.ge), one_le_toNat hd, Nat.zero_le _, Nat.zero_le _, rfl⟩

/-- `CNT - 1` does not wrap in a copy phase. -/
theorem cnt_pred (hc : 1 ≤ s.cnt.toNat) : (s.cnt - 1#32).toNat = s.cnt.toNat - 1 := by
  bv_omega

/-- One output byte keeps the invariant (R153, R186): the copy is complete, or it goes on in its phase with what that
phase asks. -/
theorem callInv_byteDone {p : Phase} (hp : s.phase = p) (hl : inLoop p = true) (hin : s.inp.filled s.inLen.toNat)
    (hhdr : HeaderInv s) (hcur : CursorInv s) {m : Memory} (hm : s.out = some m) (hw : s.wr.toNat < s.dsize.toNat)
    (hc : 1 ≤ s.cnt.toNat) (b : Byte)
    (hph : 1 ≤ s.cnt.toNat - 1 → PhaseInv p (byteDone (memWrite m s.wr.toNat b) s)) :
    CallInv (byteDone (memWrite m s.wr.toNat b) s) := by
  have hcur' := hcur.bytePut hm hw b
  by_cases hlast : s.cnt - 1#32 = 0#32
  · have hp' : (byteDone (memWrite m s.wr.toNat b) s).phase = .loop := by simp [hlast]
    exact (callInv_loop_iff hp' rfl).2 ⟨hin, hhdr, hcur', trivial⟩
  · have hp' : (byteDone (memWrite m s.wr.toNat b) s).phase = p := by simp [hlast, hp]
    have hne : s.cnt.toNat - 1 ≠ 0 := fun h => hlast (BitVec.eq_of_toNat_eq ((cnt_pred hc).trans h))
    exact (callInv_loop_iff hp' hl).2 ⟨hin, hhdr, hcur', hph (Nat.pos_of_ne_zero hne)⟩

/-- One byte of a literal run (R153): one byte less to copy, one byte less of room on either side. -/
theorem callInv_literalCopied (hs : CallInv s) (hp : s.phase = .litcopy) {m : Memory} (hm : s.out = some m)
    (hw : s.wr.toNat < s.dsize.toNat) (b : Byte) :
    CallInv (byteDone (memWrite m s.wr.toNat b) (advance 1 s)) := by
  obtain ⟨hin, hhdr, hcur, hcnt, hroom, hleft⟩ := (callInv_loop_iff hp rfl).1 hs
  have hle : s.rd.toNat + 1 ≤ s.csize.toNat := by omega
  refine callInv_byteDone (s := advance 1 s) hp rfl hin hhdr (hcur.advanced hle) hm hw hcnt b (fun hgo => ?_)
  simp only [PhaseInv, byteDone_cnt, byteDone_dsize, byteDone_wr, byteDone_csize, byteDone_rd, advance_cnt,
    advance_dsize, advance_wr, advance_csize, advance_rd, cnt_pred hcnt, wr_succ hw, hcur.rd_add hle]
  rw [advance_cnt] at hgo
  omega

/-- One byte of a match (R186): one byte less to copy, one byte less of room, and a longer output behind the source. -/
theorem callInv_matchCopied (hs : CallInv s) (hp : s.phase = .matchcopy) {m : Memory} (hm : s.out = some m)
    (hw : s.wr.toNat < s.dsize.toNat) (b : Byte) : CallInv (byteDone (memWrite m s.wr.toNat b) s) := by
  obtain ⟨hin, hhdr, hcur, hcnt, hroom, hdist, hsrc⟩ := (callInv_loop_iff hp rfl).1 hs
  refine callInv_byteDone hp rfl hin hhdr hcur hm hw hcnt b (fun hgo => ?_)
  simp only [PhaseInv, byteDone_cnt, byteDone_dsize, byteDone_wr, byteDone_dist, cnt_pred hcnt, wr_succ hw]
  omega

/-- A flag bit selects one of the two decode phases (R85, R133). -/
theorem flagPhase_cases (f : Bool) : flagPhase f = .litdec ∨ flagPhase f = .matchdec := by
  cases f
  · exact .inl rfl
  · exact .inr rfl

/-- A consumed flag leaves `FCNT` in its range (R26). -/
theorem fcnt_pred_le (hf : s.fcnt ≠ 0#6) (hle : s.fcnt.toNat ≤ 32) : (s.fcnt - 1#6).toNat ≤ 32 := by
  bv_omega

end

/-- Settles O46: each move leaves what the invariant asks of the phase it goes to. -/
theorem stepKeepsCallInv : Obligations.StepKeepsCallInv := by
  intro s t hs h
  cases step_move h with
  | begun _ hp ht =>
    subst ht
    exact (callInv_header_iff rfl).2 ((callInv_idle_iff hp).1 hs)
  | acknowledged _ hp ht =>
    subst ht
    obtain ⟨hin, -, -⟩ := (callInv_done_iff hp).1 hs
    exact (callInv_idle_iff rfl).2 ⟨hin, rfl⟩
  | waited _ _ ht =>
    subst ht
    exact hs
  | raised _ k r d _ _ ht =>
    subst ht
    exact callInv_raise hs k r d
  | loaded _ hp ctrl h dsize plen hh hlen ht =>
    subst ht
    obtain ⟨hin, hout⟩ := (callInv_header_iff hp).1 hs
    exact (callInv_sizechk_iff rfl).2 ⟨hin, hout, headerInv_loadHeader ctrl dsize plen hh hlen⟩
  | sized _ hp hsize ht =>
    subst ht
    obtain ⟨hin, hout, hhdr⟩ := (callInv_sizechk_iff hp).1 hs
    exact (callInv_alloc_iff rfl).2 ⟨hin, hout, hhdr, hsize⟩
  | emptied _ hp hd ht =>
    subst ht
    obtain ⟨hin, -⟩ := (callInv_alloc_iff hp).1 hs
    exact callInv_succeed hin hd.symm rfl
  | entered _ hp hd ht =>
    subst ht
    obtain ⟨hin, -, hhdr, hsize⟩ := (callInv_alloc_iff hp).1 hs
    exact (callInv_loop_iff rfl rfl).2 ⟨hin, hhdr, cursorInv_enterLoop hhdr hsize hd, trivial⟩
  | filled _ hp hw ht =>
    subst ht
    obtain ⟨hin, hhdr, hcur, -⟩ := (callInv_loop_iff hp rfl).1 hs
    exact (callInv_loop_iff rfl rfl).2 ⟨hin, hhdr, hcur.congr rfl hcur.fcnt_le, hw⟩
  | continued _ hp hw ht =>
    subst ht
    obtain ⟨hin, hhdr, hcur, -⟩ := (callInv_loop_iff hp rfl).1 hs
    have hlt : s.wr.toNat < s.dsize.toNat :=
      lt_of_le_of_ne hcur.wr_le_dsize (fun h => hw (BitVec.eq_of_toNat_eq h))
    exact (callInv_loop_iff rfl rfl).2 ⟨hin, hhdr, hcur.congr rfl hcur.fcnt_le, hlt⟩
  | refilled _ hp _ w hle ht =>
    subst ht
    obtain ⟨hin, hhdr, hcur, hlt⟩ := (callInv_loop_iff hp rfl).1 hs
    have hcur' : CursorInv (refillFlags w s) := (hcur.advanced hle).congr rfl (by simp)
    exact (callInv_loop_iff (s := refillFlags w s) hp rfl).2 ⟨hin, hhdr, hcur', hlt⟩
  | consumed _ hp hf ht =>
    subst ht
    obtain ⟨hin, hhdr, hcur, hlt⟩ := (callInv_loop_iff hp rfl).1 hs
    have hcur' : CursorInv (consumeFlag s) := hcur.congr rfl (fcnt_pred_le hf hcur.fcnt_le)
    rcases flagPhase_cases (s.fw.getLsbD 0) with hp' | hp'
    · exact (callInv_loop_iff hp' rfl).2 ⟨hin, hhdr, hcur', hlt⟩
    · exact (callInv_loop_iff hp' rfl).2 ⟨hin, hhdr, hcur', hlt⟩
  | literalStarted _ hp w n _ hle hn hout hleft ht =>
    subst ht
    obtain ⟨hin, hhdr, hcur, -⟩ := (callInv_loop_iff hp rfl).1 hs
    exact (callInv_loop_iff rfl rfl).2
      ⟨hin, hhdr, (hcur.advanced hle).congr rfl hcur.fcnt_le, one_le_toNat hn, hout, hleft⟩
  | matchStarted _ hp w d n _ hle hn hout hd hsrc ht =>
    subst ht
    obtain ⟨hin, hhdr, hcur, -⟩ := (callInv_loop_iff hp rfl).1 hs
    exact (callInv_loop_iff rfl rfl).2
      ⟨hin, hhdr, (hcur.advanced hle).congr rfl hcur.fcnt_le, one_le_toNat hn, hout, one_le_toNat hd, hsrc⟩
  | literalCopied _ hp b m hm hw ht =>
    subst ht
    exact callInv_literalCopied hs hp hm hw b
  | matchCopied _ hp b m hm hw ht =>
    subst ht
    exact callInv_matchCopied hs hp hm hw b
  | succeeded _ hp _ ht =>
    subst ht
    obtain ⟨hin, -, hcur, hwr⟩ := (callInv_loop_iff hp rfl).1 hs
    exact callInv_succeed hin rfl (hwr ▸ hcur.out_filled)

end Sys2Proof.Proofs
end

section
/-!
PROOFS of the family `10_state.md`: the reset state, and the cursors within the invariant (R21, R22, R41, R134).
-/

namespace Sys2Proof.Proofs

open Sys2Proof.Machine Sys2Proof.Laws

/-- Settles O45: in phase `IDLE` the invariant asks for an `IN` presented whole and for no `OUT`. -/
theorem resetIsIdle : Obligations.ResetIsIdle :=
  ⟨rfl, rfl, rfl, (callInv_idle_iff rfl).2 ⟨rfl, rfl⟩⟩

section
variable {s t : State}

/-- Where `RD` moves at all, it moves on over bytes that `CSIZE` covers (R21, R134). -/
theorem CursorInv.readAhead_le (h : CursorInv s) {r : BitVec 32} (hr : readAhead s r) :
    s.rd.toNat ≤ r.toNat ∧ r.toNat ≤ s.csize.toNat := by
  obtain rfl | ⟨w, hw, rfl⟩ := hr
  · exact ⟨le_rfl, h.rd_le_csize⟩
  · rw [h.rd_add hw]
    exact ⟨Nat.le_add_right _ _, hw⟩

/-- In the loop, every step leaves `RD` where it stood or moves it over bytes that `CSIZE` covers. -/
theorem step_readAhead (hs : CallInv s) (h : step s = .next t) (hp : inLoop s.phase = true) : readAhead s t.rd := by
  cases step_move h
  case raised r d _ hr ht =>
    subst ht
    exact hr
  case refilled w hin ht =>
    subst ht
    exact .inr ⟨4, hin, rfl⟩
  case literalStarted w n _ hin _ _ _ ht =>
    subst ht
    exact .inr ⟨w, hin, rfl⟩
  case matchStarted w d n _ hin _ _ _ _ ht =>
    subst ht
    exact .inr ⟨w, hin, rfl⟩
  case literalCopied hq b m _ _ ht =>
    subst ht
    obtain ⟨-, -, -, hcnt, -, hleft⟩ := (callInv_loop_iff hq rfl).1 hs
    exact .inr ⟨1, by omega, rfl⟩
  case entered hq _ _ => simp [hq, inLoop] at hp
  all_goals
    subst t
    exact .inl rfl

end

/-- Settles O52: `RD` by `step_readAhead`, `WR` by `step_output`. -/
theorem cursorsOnlyAdvance : Obligations.CursorsOnlyAdvance := by
  intro s t hs h hp
  obtain ⟨-, -, hcur, -⟩ := (callInv_loop_iff rfl hp).1 hs
  obtain ⟨hle, hlimit⟩ := hcur.readAhead_le (step_readAhead hs h hp)
  have hne : s.phase ≠ .header := by
    intro hq
    simp [hq, inLoop] at hp
  obtain ⟨-, -, -, -, hcsize⟩ := headerRegistersConstant s t h hne
  refine ⟨hle, hcsize ▸ hlimit, ?_⟩
  obtain ⟨hout, hwr⟩ | ⟨m, b, -, hw, hout, hwr⟩ := step_output h hp
  · exact .inr ⟨hwr, hout⟩
  · refine .inl ⟨by rw [hwr, wr_succ hw], ?_⟩
    simp [outByte, hout, memRead_memWrite_same]

end Sys2Proof.Proofs
end

section
/-!
PROOFS of the family `10_state.md`: a call goes on until it is `DONE` (R38, R57, R135): from a state of the invariant no
step of a call stops, and each one makes `stepsLeft` smaller.
-/

namespace Sys2Proof.Proofs

open Sys2Proof.Machine Sys2Proof.Laws

/-! ## No step of a call stops -/

section
variable {s t : State}

/-- Where the host presented every byte that may be read, the fetch answers no fault (R57). -/
theorem fetch_ne_fault {c : Context} (hin : s.inp.filled s.inLen.toNat) (hlimit : readLimit c s ≤ s.inLen.toNat)
    (f : Fault) : fetch c s ≠ .answer (.fault f) := by
  have hw := itemWidth_pos c
  unfold fetch
  split
  · exact fun h => by cases h
  · rename_i hfirst
    have hpos : 0 < firstWidth c := by cases c <;> decide
    obtain ⟨b0, hb⟩ := readIn_of_filled hin (show itemStart c s < s.inLen.toNat by omega)
    simp only [hb]
    split
    · exact fun h => by cases h
    · rename_i hwhole
      obtain ⟨bs, hbs⟩ :=
        readInRun_of_filled hin (show itemStart c s + itemWidth c b0 ≤ s.inLen.toNat by omega)
      simp only [hbs, decodeWhole]
      split <;> exact fun h => by cases h

/-- A step at an item that is due answers a next state. -/
theorem step_due_next {c : Context} (hc : s.cmd = none) (hp : s.phase = duePhase c) (hf : c = .flagWord → s.fcnt = 0#6)
    (hin : s.inp.filled s.inLen.toNat) (hlimit : readLimit c s ≤ s.inLen.toNat) : ∃ t, step s = .next t := by
  have hnf := fetch_ne_fault hin hlimit .inputByteAbsent
  rw [step_due hc hp hf]
  obtain ⟨-, hx⟩ | ⟨_, -, -, hx⟩ | ⟨_, _, i, -, -, -, -, -, -, hx⟩ | ⟨-, hx⟩ := fetch_cases c s
  · rw [hx]
    exact ⟨_, rfl⟩
  · rw [hx]
    exact ⟨_, rfl⟩
  · rw [hx]
    exact exec_next i s
  · exact absurd hx hnf

theorem cnt_ne_zero (h : 1 ≤ s.cnt.toNat) : s.cnt ≠ 0#32 := by
  intro h0
  simp [h0] at h

/-- A byte can be put where `OUT` exists and has room. -/
theorem putByte_eq {m : Memory} (hm : s.out = some m) (hw : s.wr.toNat < s.dsize.toNat) (b : Byte) :
    putByte b s = .next (byteDone (memWrite m s.wr.toNat b) s) := by
  simp [putByte, hm, hw]

/-- The literal copy step has its byte of `IN` and its place in `OUT` (R153). -/
theorem literalCopyStep_answers (hs : CallInv s) (hp : s.phase = .litcopy) : ∃ t, literalCopyStep s = .next t := by
  obtain ⟨hin, -, hcur, hcnt, hroom, hleft⟩ := (callInv_loop_iff hp rfl).1 hs
  have hsize := hcur.csize
  obtain ⟨m, hm, -⟩ := outFilled_iff.1 hcur.out_filled
  obtain ⟨b, hb⟩ := readIn_of_filled hin (show s.rd.toNat < s.inLen.toNat by omega)
  have hput := putByte_eq (s := advance 1 s) hm (by rw [advance_wr, advance_dsize]; omega) b
  exact ⟨_, by simpa only [literalCopyStep, if_neg (cnt_ne_zero hcnt), hb] using hput⟩

/-- The match copy step has its source among the written bytes, and its place in `OUT` (R38, R186). -/
theorem matchCopyStep_answers (hs : CallInv s) (hp : s.phase = .matchcopy) : ∃ t, matchCopyStep s = .next t := by
  obtain ⟨-, -, hcur, hcnt, hroom, hdist, hsrc⟩ := (callInv_loop_iff hp rfl).1 hs
  obtain ⟨m, hm, hfilled⟩ := outFilled_iff.1 hcur.out_filled
  have hlt : s.wr.toNat - s.dist.toNat < s.wr.toNat := by omega
  obtain ⟨b, hb⟩ := Option.isSome_iff_exists.1 ((filled_isSome_iff hfilled _).2 hlt)
  have hread : readOut s (s.wr.toNat - s.dist.toNat) = some b := by simp only [readOut, hm, if_pos hlt, hb]
  have hput := putByte_eq hm (by omega) b
  exact ⟨_, by simpa only [matchCopyStep, if_neg (cnt_ne_zero hcnt), if_neg (not_lt.2 hsrc), hread, hm] using hput⟩

/-- `CSIZE` covers no byte beyond `in_len` in the loop (R42, R202). -/
theorem csize_le_inLen {p : Phase} (hs : CallInv s) (hp : s.phase = p) (hl : inLoop p = true) :
    s.csize.toNat ≤ s.inLen.toNat := by
  obtain ⟨-, -, hcur, -⟩ := (callInv_loop_iff hp hl).1 hs
  exact hcur.csize.le

/-- R57, R38: from a state of the invariant, a step of a call answers a next state. -/
theorem calling_step_next (hs : CallInv s) (hcall : calling s) : ∃ t, step s = .next t := by
  obtain ⟨hc, hidle, hdone⟩ := hcall
  obtain ⟨hin, -⟩ := id hs
  cases hp : s.phase with
  | idle | done => contradiction
  | header => exact step_due_next (c := .header) hc hp (by simp) hin le_rfl
  | litdec => exact step_due_next (c := .literal) hc hp (by simp) hin (csize_le_inLen hs hp rfl)
  | matchdec => exact step_due_next (c := .backref) hc hp (by simp) hin (csize_le_inLen hs hp rfl)
  | flag =>
    by_cases hf : s.fcnt = 0#6
    · exact step_due_next (c := .flagWord) hc hp (fun _ => hf) hin (csize_le_inLen hs hp rfl)
    · rw [step_of_no_command hc, phaseAction, hp]
      exact ⟨consumeFlag s, by simp only [if_neg hf]⟩
  | litcopy =>
    rw [step_of_no_command hc, phaseAction, hp]
    exact literalCopyStep_answers hs hp
  | matchcopy =>
    rw [step_of_no_command hc, phaseAction, hp]
    exact matchCopyStep_answers hs hp
  | sizechk | alloc | loop | final => exact ⟨_, by rw [step_of_no_command hc, phaseAction, hp]⟩

/-! ## Each step of a call makes `stepsLeft` smaller -/

/-- A bound on the steps a call in phase `p` still takes: three for each byte of `IN` not yet passed (loop test, flag bit,
token), one for each byte of `OUT` not yet written, and those of the phases around them. A refill is paid by its own four
bytes. -/
def stepsLeftIn (p : Phase) (s : State) : Nat :=
  match p with
  | .idle | .done => 0
  | .header => 3 * s.inLen.toNat + 2 ^ 32 + 2
  | .sizechk => 3 * s.inLen.toNat + 2 ^ 32 + 1
  | .alloc => 3 * s.inLen.toNat + 2 ^ 32
  | .loop | .litcopy | .matchcopy => 3 * inputLeft s + outputLeft s + 4
  | .flag => 3 * inputLeft s + outputLeft s + 3
  | .litdec | .matchdec => 3 * inputLeft s + outputLeft s + 2
  | .final => 1

/-- A bound on the steps a call still takes. -/
def stepsLeft (s : State) : Nat := stepsLeftIn s.phase s

theorem stepsLeft_eq {p : Phase} (hp : s.phase = p) : stepsLeft s = stepsLeftIn p s := by
  rw [stepsLeft, hp]

/-- To compare the measure of two states, compare it in their phases. -/
theorem stepsLeft_lt {p q : Phase} (hp : s.phase = p) (hq : t.phase = q) (h : stepsLeftIn q t < stepsLeftIn p s) :
    stepsLeft t < stepsLeft s := by
  rwa [stepsLeft_eq hp, stepsLeft_eq hq]

/-- A call that is not over takes at least one more step. -/
theorem stepsLeft_pos (h : calling s) : 0 < stepsLeft s := by
  obtain ⟨-, hidle, hdone⟩ := h
  cases hp : s.phase with
  | idle | done => contradiction
  | header | sizechk | alloc | loop | flag | litdec | litcopy | matchdec | matchcopy | final =>
    rw [stepsLeft_eq hp]
    exact Nat.succ_pos _

/-- The end of the call is below every state of it. -/
theorem stepsLeft_lt_of_done (h : calling s) (ht : t.phase = .done) : stepsLeft t < stepsLeft s := by
  rw [stepsLeft_eq ht]
  exact stepsLeft_pos h

/-- What is left of `IN` after `RD` moved over bytes that `CSIZE` covers. -/
theorem CursorInv.inputLeft_advance (h : CursorInv s) {w : Nat} (hw : s.rd.toNat + w ≤ s.csize.toNat) :
    inputLeft (advance w s) + w = inputLeft s := by
  simp only [inputLeft, advance_csize, advance_rd, h.rd_add hw]
  omega

/-- What is left of `OUT` after one output byte. -/
theorem outputLeft_byteDone (m : Memory) (hw : s.wr.toNat < s.dsize.toNat) :
    outputLeft (byteDone m s) + 1 = outputLeft s := by
  simp only [outputLeft, byteDone_dsize, byteDone_wr, wr_succ hw]
  omega

/-- The loop is entered with a whole header passed (R24, R204), so its measure is below that of phase `ALLOC`. -/
theorem stepsLeft_entered (hs : CallInv s) (hp : s.phase = .alloc) :
    stepsLeft (enterLoop (createOutput s)) < stepsLeft s := by
  obtain ⟨-, -, ⟨hh, hle, -⟩, hsize⟩ := (callInv_alloc_iff hp).1 hs
  have hlen : 3 ≤ s.hlen.toNat := by rcases hh with h | h <;> rw [h] <;> decide
  have hd := s.dsize.isLt
  have hrd : (s.hlen.setWidth 32).toNat = s.hlen.toNat := by simp; omega
  refine stepsLeft_lt hp rfl ?_
  show 3 * (s.csize.toNat - (s.hlen.setWidth 32).toNat) + s.dsize.toNat + 4 < 3 * s.inLen.toNat + 2 ^ 32
  omega

/-- A token starts its copy past its own bytes, at least one. -/
theorem stepsLeft_started (hcur : CursorInv s) {p q : Phase} (hp : s.phase = p) (hq : t.phase = q)
    (hdec : p = .litdec ∨ p = .matchdec) (hcopy : q = .litcopy ∨ q = .matchcopy) {w : Nat} (hw : 0 < w)
    (hin : s.rd.toNat + w ≤ s.csize.toNat) (hil : inputLeft t = inputLeft (advance w s))
    (hol : outputLeft t = outputLeft s) : stepsLeft t < stepsLeft s := by
  have hleft := hcur.inputLeft_advance hin
  have hs : stepsLeftIn p s = 3 * inputLeft s + outputLeft s + 2 := by rcases hdec with rfl | rfl <;> rfl
  have ht : stepsLeftIn q t = 3 * inputLeft t + outputLeft t + 4 := by rcases hcopy with rfl | rfl <;> rfl
  refine stepsLeft_lt hp hq ?_
  omega

/-- A byte copied leaves one byte less to write, and no more to read, in the copy phase or back in the loop. -/
theorem stepsLeft_copied {u : State} {p : Phase} {m : Memory} (hp : s.phase = p) (hu : u.phase = p)
    (hcopy : p = .litcopy ∨ p = .matchcopy) (hw : u.wr.toNat < u.dsize.toNat)
    (hil : inputLeft u ≤ inputLeft s) (hol : outputLeft u = outputLeft s) :
    stepsLeft (byteDone m u) < stepsLeft s := by
  have hleft := outputLeft_byteDone m hw
  have hin : inputLeft (byteDone m u) = inputLeft u := rfl
  have hs : stepsLeftIn p s = 3 * inputLeft s + outputLeft s + 4 := by rcases hcopy with rfl | rfl <;> rfl
  have ht : stepsLeft (byteDone m u) = 3 * inputLeft (byteDone m u) + outputLeft (byteDone m u) + 4 := by
    rw [stepsLeft, byteDone_phase, hu]
    split
    · rfl
    · rcases hcopy with rfl | rfl <;> rfl
  rw [stepsLeft_eq hp]
  omega

/-- Every step of a call makes the measure smaller. -/
theorem stepsLeft_step (hs : CallInv s) (hcall : calling s) (h : step s = .next t) : stepsLeft t < stepsLeft s := by
  obtain ⟨-, hidle, hdone⟩ := id hcall
  cases step_move h with
  | begun _ hp _ => contradiction
  | acknowledged _ hp _ => contradiction
  | waited _ hp _ => exact absurd hp (not_or.2 ⟨hidle, hdone⟩)
  | raised _ _ _ _ _ _ ht => exact stepsLeft_lt_of_done hcall (by rw [ht]; rfl)
  | emptied _ _ _ ht => exact stepsLeft_lt_of_done hcall (by rw [ht]; rfl)
  | succeeded _ _ _ ht => exact stepsLeft_lt_of_done hcall (by rw [ht]; rfl)
  | loaded _ hp _ _ _ _ _ _ ht =>
    subst ht
    exact stepsLeft_lt hp rfl (Nat.lt_succ_self _)
  | sized _ hp _ ht =>
    subst ht
    exact stepsLeft_lt hp rfl (Nat.lt_succ_self _)
  | entered _ hp _ ht =>
    subst ht
    exact stepsLeft_entered hs hp
  | filled _ hp _ ht =>
    subst ht
    refine stepsLeft_lt hp rfl ?_
    show 1 < 3 * inputLeft s + outputLeft s + 4
    omega
  | continued _ hp _ ht =>
    subst ht
    exact stepsLeft_lt hp rfl (Nat.lt_succ_self _)
  | refilled _ hp _ w hin ht =>
    subst ht
    obtain ⟨-, -, hcur, -⟩ := (callInv_loop_iff hp rfl).1 hs
    have hleft := hcur.inputLeft_advance hin
    refine stepsLeft_lt (q := .flag) hp hp ?_
    show 3 * inputLeft (advance 4 s) + outputLeft s + 3 < 3 * inputLeft s + outputLeft s + 3
    omega
  | consumed _ hp _ ht =>
    subst ht
    rcases flagPhase_cases (s.fw.getLsbD 0) with hq | hq
    · exact stepsLeft_lt hp hq (Nat.lt_succ_self _)
    · exact stepsLeft_lt hp hq (Nat.lt_succ_self _)
  | literalStarted _ hp w n hw hin _ _ _ ht =>
    subst ht
    obtain ⟨-, -, hcur, -⟩ := (callInv_loop_iff hp rfl).1 hs
    exact stepsLeft_started hcur hp rfl (.inl rfl) (.inl rfl) hw hin rfl rfl
  | matchStarted _ hp w d n hw hin _ _ _ _ ht =>
    subst ht
    obtain ⟨-, -, hcur, -⟩ := (callInv_loop_iff hp rfl).1 hs
    exact stepsLeft_started hcur hp rfl (.inr rfl) (.inr rfl) hw hin rfl rfl
  | literalCopied _ hp b m _ hw ht =>
    subst ht
    obtain ⟨-, -, hcur, hcnt, -, hroom⟩ := (callInv_loop_iff hp rfl).1 hs
    have hleft := hcur.inputLeft_advance (w := 1) (by omega)
    exact stepsLeft_copied hp hp (.inl rfl) hw (by omega) rfl
  | matchCopied _ hp b m _ hw ht =>
    subst ht
    exact stepsLeft_copied hp hp (.inr rfl) hw le_rfl rfl

/-! ## The run to the end of the call -/

/-- A step of a call takes no command, so the call goes on or is over. -/
theorem calling_step (hcall : calling s) (h : step s = .next t) : calling t ∨ t.phase = .done := by
  obtain ⟨hc, hidle, hdone⟩ := hcall
  have hcmd : t.cmd = none ∧ t.phase ≠ .idle := by
    cases step_move h
    case begun hp _ | acknowledged hp _ => contradiction
    case consumed ht =>
      subst ht
      exact ⟨hc, by rcases flagPhase_cases (s.fw.getLsbD 0) with hq | hq <;> rw [consumeFlag_phase, hq] <;> decide⟩
    case literalCopied ht | matchCopied ht =>
      subst ht
      refine ⟨hc, ?_⟩
      rw [byteDone_phase]
      split
      · decide
      · exact hidle
    case waited ht | refilled ht =>
      subst ht
      exact ⟨hc, hidle⟩
    all_goals
      subst t
      exact ⟨hc, by simp⟩
  by_cases hq : t.phase = .done
  · exact .inr hq
  · exact .inl ⟨hcmd.1, hcmd.2, hq⟩

/-- A run of one step and `k` more, of any machine. -/
theorem core_run_succ_iff {M : Host.Core} {a c : M.State} (k : Nat) :
    M.run (k + 1) a = .next c ↔ ∃ b, M.step a = .next b ∧ M.run k b = .next c := by
  rw [Host.Core.run]
  cases hx : M.step a <;> simp

/-- A run of one step and `k` more, of this one. -/
theorem steps_succ_iff (k : Nat) : steps (k + 1) s = .next t ↔ ∃ r, step s = .next r ∧ steps k r = .next t :=
  core_run_succ_iff (M := core) k

end

/-- R135: a call ends, after at most `stepsLeft` steps. -/
theorem calling_reaches_done (s : State) (hs : CallInv s) (hcall : calling s) :
    ∃ k u, k ≤ stepsLeft s ∧ steps k s = .next u ∧ u.phase = .done := by
  obtain ⟨t, ht⟩ := calling_step_next hs hcall
  have hlt := stepsLeft_step hs hcall ht
  obtain hcall' | hdone := calling_step hcall ht
  · obtain ⟨k, u, hk, hu, hp⟩ := calling_reaches_done t (stepKeepsCallInv s t hs ht) hcall'
    exact ⟨k + 1, u, by omega, (steps_succ_iff k).2 ⟨t, ht, hu⟩, hp⟩
  · exact ⟨1, t, by omega, (steps_succ_iff 0).2 ⟨t, ht, rfl⟩, hdone⟩
termination_by stepsLeft s

end Sys2Proof.Proofs
end

section
/-!
PROOFS of the family `10_state.md`: what a call depends on (R39, R41). Two states that agree on the registers their phase
depends on step alike, so a call's result does not depend on what an earlier call left in the others.
-/

namespace Sys2Proof.Proofs

open Sys2Proof.Machine Sys2Proof.Laws

/-! ## What a phase depends on -/

/-- The states agree on the command, on the parameters of the call and on `OUT`. -/
structure SameParams (s s' : State) : Prop where
  cmd : s'.cmd = s.cmd
  inp : s'.inp = s.inp
  inLen : s'.inLen = s.inLen
  allocOk : s'.allocOk = s.allocOk
  out : s'.out = s.out

/-- They agree on what the header rules load, too. -/
structure SameHeader (s s' : State) : Prop extends SameParams s s' where
  hlen : s'.hlen = s.hlen
  dsize : s'.dsize = s.dsize
  csize : s'.csize = s.csize

/-- They agree on the cursors and the flags, too; `FW` counts only while it holds unconsumed bits (R26). -/
structure SameCursors (s s' : State) : Prop extends SameHeader s s' where
  rd : s'.rd = s.rd
  wr : s'.wr = s.wr
  fcnt : s'.fcnt = s.fcnt
  fw : s.fcnt ≠ 0#6 → s'.fw = s.fw

/-- They agree on what phase `p` depends on (R41: a register that is unspecified on entry is written before it is
read). -/
def AgreeIn (p : Phase) (s s' : State) : Prop :=
  match p with
  | .idle | .header => SameParams s s'
  | .sizechk | .alloc => SameHeader s s'
  | .loop | .flag | .litdec | .matchdec | .final => SameCursors s s'
  | .litcopy => SameCursors s s' ∧ s'.cnt = s.cnt
  | .matchcopy => SameCursors s s' ∧ s'.cnt = s.cnt ∧ s'.dist = s.dist
  | .done => SameParams s s' ∧ s'.status = s.status ∧ s'.outLen = s.outLen

/-- The states are in one phase and agree on what it depends on. -/
def SameCall (s s' : State) : Prop := ∃ p, s.phase = p ∧ s'.phase = p ∧ AgreeIn p s s'

/-- Where one outcome is a next state, the other is one that agrees with it. -/
def Follows (o o' : Host.Outcome State Fault Refusal) : Prop :=
  ∀ t, o = .next t → ∃ t', o' = .next t' ∧ SameCall t t'

theorem follows_next {t t' : State} (h : SameCall t t') : Follows (.next t) (.next t') := by
  rintro _ ⟨⟩
  exact ⟨t', rfl, h⟩

theorem follows_fault (f : Fault) (o : Host.Outcome State Fault Refusal) : Follows (.fault f) o := by
  rintro _ ⟨⟩

theorem follows_refused (r : Refusal) (o : Host.Outcome State Fault Refusal) : Follows (.refused r) o := by
  rintro _ ⟨⟩

section
variable {s s' : State}

/-! ## The reads -/

theorem AgreeIn.params {p : Phase} (h : AgreeIn p s s') : SameParams s s' := by
  cases p with
  | idle | header => exact h
  | sizechk | alloc => exact h.toSameParams
  | loop | flag | litdec | matchdec | final => exact h.toSameParams
  | litcopy | matchcopy => exact h.1.toSameParams
  | done => exact h.1

theorem SameParams.readIn_eq (h : SameParams s s') : readIn s' = readIn s := by
  funext a
  simp only [readIn, h.inp, h.inLen]

theorem SameParams.readInRun_eq (h : SameParams s s') (a n : Nat) : readInRun s' a n = readInRun s a n := by
  induction n generalizing a with
  | zero => rfl
  | succ n ih => simp only [readInRun, h.readIn_eq, ih]

theorem SameCursors.readOut_eq (h : SameCursors s s') (a : Nat) : readOut s' a = readOut s a := by
  simp only [readOut, h.out, h.wr]

theorem SameCursors.inputShort_eq (h : SameCursors s s') (k : Nat) : inputShort k s' = inputShort k s := by
  simp only [inputShort, h.csize, h.rd]

theorem SameHeader.allocGranted_eq (h : SameHeader s s') : allocGranted s' = allocGranted s := by
  simp only [allocGranted, h.allocOk, h.dsize]

theorem SameCursors.inputLeft_eq (h : SameCursors s s') : inputLeft s' = inputLeft s := by
  simp only [inputLeft, h.csize, h.rd]

theorem SameCursors.outputLeft_eq (h : SameCursors s s') : outputLeft s' = outputLeft s := by
  simp only [outputLeft, h.dsize, h.wr]

/-! ## The moves -/

/-- An error reads nothing. -/
theorem SameParams.raised (h : SameParams s s') (k : ErrorKind) : SameCall (raise k s) (raise k s') :=
  ⟨.done, rfl, rfl, { h with }, rfl, rfl⟩

/-- Neither does a success, but for its length. -/
theorem SameParams.succeeded (h : SameParams s s') {n n' : BitVec 32} (hn : n' = n) :
    SameCall (succeed n s) (succeed n' s') :=
  ⟨.done, rfl, rfl, { h with }, rfl, hn⟩

theorem SameCursors.advanced (h : SameCursors s s') (w : Nat) : SameCursors (advance w s) (advance w s') :=
  { h with rd := congrArg (· + BitVec.ofNat 32 w) h.rd }

/-- A new distance leaves the agreement as it is. -/
theorem SameCursors.distanced (h : SameCursors s s') (d : BitVec 17) : SameCursors (setDist d s) (setDist d s') :=
  { h with }

/-- One output byte (R153, R186). -/
theorem SameCursors.bytePut (h : SameCursors s s') (m : Memory) :
    SameCursors (byteDone m s) (byteDone m s') :=
  { h with out := rfl, wr := congrArg (· + 1#32) h.wr }

/-- The size check (R202). -/
theorem SameHeader.sizeChecked (h : SameHeader s s') : SameCall (sizeCheck s) (sizeCheck s') := by
  simp only [sizeCheck, h.csize, h.inLen]
  split
  · exact ⟨.alloc, rfl, rfl, { h with }⟩
  · exact h.raised _

/-- The allocation (R203, R204). -/
theorem SameHeader.allocated (h : SameHeader s s') : SameCall (allocate s) (allocate s') := by
  have hout : SameHeader (createOutput s) (createOutput s') := { h with out := rfl }
  simp only [allocate, h.allocGranted_eq, h.dsize]
  split
  · split
    · exact hout.succeeded rfl
    · exact ⟨.loop, rfl, rfl, { hout with
        rd := congrArg (BitVec.setWidth 32) h.hlen, wr := rfl, fcnt := rfl, fw := fun hf => absurd rfl hf }⟩
  · exact h.raised _

/-- The loop test (R131). -/
theorem SameCursors.loopTested (h : SameCursors s s') : SameCall (loopTest s) (loopTest s') := by
  simp only [loopTest, h.wr, h.dsize]
  split
  · exact ⟨.final, rfl, rfl, { h with }⟩
  · exact ⟨.flag, rfl, rfl, { h with }⟩

/-- A flag bit (R133) is consumed from an `FW` on which the states agree. -/
theorem SameCursors.flagConsumed (h : SameCursors s s') (hf : s.fcnt ≠ 0#6) :
    SameCall (consumeFlag s) (consumeFlag s') := by
  have hfw := h.fw hf
  have hcur : SameCursors (consumeFlag s) (consumeFlag s') :=
    { h with fcnt := congrArg (· - 1#6) h.fcnt, fw := fun _ => by rw [consumeFlag_fw, consumeFlag_fw, hfw] }
  have hp : (consumeFlag s').phase = (consumeFlag s).phase := by
    rw [consumeFlag_phase, consumeFlag_phase, hfw]
  rcases flagPhase_cases (s.fw.getLsbD 0) with hq | hq
  · exact ⟨.litdec, hq, hp.trans hq, hcur⟩
  · exact ⟨.matchdec, hq, hp.trans hq, hcur⟩

/-- The final check (R206, R207). -/
theorem SameCursors.finalChecked (h : SameCursors s s') : SameCall (finalCheck s) (finalCheck s') := by
  simp only [finalCheck, h.rd, h.csize]
  split
  · exact h.succeeded h.dsize
  · exact h.raised _

/-! ## The byte copies -/

/-- One output byte in a copy phase `p`: the states are both back in the loop, or both still in `p`. -/
theorem SameCursors.byteCopied (h : SameCursors s s') {p : Phase} (hp : s.phase = p) (hp' : s'.phase = p)
    (hcnt : s'.cnt = s.cnt) {m : Memory} (hgo : AgreeIn p (byteDone m s) (byteDone m s')) :
    SameCall (byteDone m s) (byteDone m s') := by
  by_cases hlast : s.cnt - 1#32 = 0#32
  · exact ⟨.loop, by simp [hlast], by simp [hcnt, hlast], h.bytePut m⟩
  · exact ⟨p, by simp [hlast, hp], by simp [hcnt, hlast, hp'], hgo⟩

/-- `OUT[WR] <- b` (R17). -/
theorem SameCursors.putByte (h : SameCursors s s') (b : Byte)
    (hgo : ∀ m, SameCall (byteDone m s) (byteDone m s')) : Follows (putByte b s) (putByte b s') := by
  simp only [Machine.putByte, h.out, h.wr, h.dsize]
  split
  · exact follows_fault _ _
  · split
    · exact follows_next (hgo _)
    · exact follows_fault _ _

/-- One byte of a literal run (R153). -/
theorem literalCopyStep_follows (hp : s.phase = .litcopy) (hp' : s'.phase = .litcopy) (h : AgreeIn .litcopy s s') :
    Follows (literalCopyStep s) (literalCopyStep s') := by
  obtain ⟨hcur, hcnt⟩ := h
  have hcur1 := hcur.advanced 1
  simp only [literalCopyStep, hcnt, hcur.rd, hcur.readIn_eq]
  split
  · exact follows_fault _ _
  · split
    · exact follows_fault _ _
    · exact hcur1.putByte _ (fun m =>
        hcur1.byteCopied hp hp' hcnt ⟨hcur1.bytePut m, congrArg (· - 1#32) hcnt⟩)

/-- One byte of a match (R186). -/
theorem matchCopyStep_follows (hp : s.phase = .matchcopy) (hp' : s'.phase = .matchcopy)
    (h : AgreeIn .matchcopy s s') : Follows (matchCopyStep s) (matchCopyStep s') := by
  obtain ⟨hcur, hcnt, hdist⟩ := h
  simp only [matchCopyStep, hcnt, hdist, hcur.wr, hcur.out, hcur.readOut_eq]
  split
  · exact follows_fault _ _
  · split
    · exact follows_fault _ _
    · split
      · exact follows_fault _ _
      · exact follows_fault _ _
      · exact hcur.putByte _ (fun m =>
          hcur.byteCopied hp hp' hcnt ⟨hcur.bytePut m, congrArg (· - 1#32) hcnt, hdist⟩)

/-! ## The items -/

/-- R152. -/
theorem SameCursors.literalStarted (h : SameCursors s s') (n : BitVec 32) :
    SameCall (startLiteral n s) (startLiteral n s') := by
  simp only [startLiteral, h.outputLeft_eq, h.inputLeft_eq]
  split
  · exact h.raised _
  · split
    · exact h.raised _
    · exact ⟨.litcopy, rfl, rfl, { h with }, rfl⟩

/-- R170, R171. -/
theorem SameCursors.matchStarted (h : SameCursors s s') (hdist : s'.dist = s.dist) (n : BitVec 32) :
    SameCall (startMatch n s) (startMatch n s') := by
  simp only [startMatch, h.outputLeft_eq, h.wr, hdist]
  split
  · exact h.raised _
  · split
    · exact h.raised _
    · split
      · exact h.raised _
      · exact ⟨.matchcopy, rfl, rfl, { h with }, rfl, hdist⟩

/-- R165 to R171. -/
theorem SameCursors.matchToken (h : SameCursors s s') (w : Nat) (d : BitVec 17) (n : BitVec 32) :
    SameCall (matchToken w d n s) (matchToken w d n s') := by
  simp only [Machine.matchToken, h.inputShort_eq]
  split
  · exact h.raised _
  · exact ((h.distanced d).advanced w).matchStarted rfl n

/-- A header reads `in_len` only (R113). -/
theorem SameParams.exec_header (h : SameParams s s') {i : Instr} (hi : contextOf i = .header) :
    Follows (exec i s) (exec i s') := by
  cases i <;> cases hi
  all_goals
    simp only [exec, execHdrC, execHdrX, h.inLen]
    split
    · exact follows_next (h.raised _)
    · exact follows_next ⟨.sizechk, rfl, rfl, { h with hlen := rfl, dsize := rfl, csize := rfl }⟩

/-- A flag word (R132). -/
theorem SameCursors.exec_flagWord (h : SameCursors s s') (hp : s.phase = .flag) (hp' : s'.phase = .flag) {i : Instr}
    (hi : contextOf i = .flagWord) : Follows (exec i s) (exec i s') := by
  cases i <;> cases hi
  simp only [exec, execFlagw, h.inputShort_eq]
  split
  · exact follows_next (h.raised _)
  · exact follows_next ⟨.flag, hp, hp', { h.advanced 4 with fcnt := rfl, fw := fun _ => rfl }⟩

/-- The count field of a literal run (R150, R151). -/
theorem SameCursors.exec_literal (h : SameCursors s s') {i : Instr} (hi : contextOf i = .literal) :
    Follows (exec i s) (exec i s') := by
  cases i <;> cases hi
  case litS n =>
    simp only [exec, execLitS, h.inputShort_eq]
    split
    · exact follows_next (h.raised _)
    · exact follows_next ((h.advanced 1).literalStarted _)
  case litL n =>
    simp only [exec, execLitL, h.inputShort_eq]
    split
    · exact follows_next (h.raised _)
    · split
      · exact follows_next ((h.advanced 5).raised _)
      · exact follows_next ((h.advanced 5).literalStarted _)

/-- A match token (R166 to R172). -/
theorem SameCursors.exec_backref (h : SameCursors s s') {i : Instr} (hi : contextOf i = .backref) :
    Follows (exec i s) (exec i s') := by
  cases i <;> cases hi
  case m1 d => exact follows_next (h.matchToken ..)
  case m2a d => exact follows_next (h.matchToken ..)
  case m2b l d => exact follows_next (h.matchToken ..)
  case m3Rsvd d => exact follows_next (h.raised _)
  case m3 l d =>
    simp only [exec, execM3]
    split
    · exact follows_next (h.raised _)
    · exact follows_next (h.matchToken ..)

/-- An item, in the phase in which its family is due. -/
theorem AgreeIn.exec {c : Context} (h : AgreeIn (duePhase c) s s') (hp : s.phase = duePhase c)
    (hp' : s'.phase = duePhase c) {i : Instr} (hi : contextOf i = c) : Follows (exec i s) (exec i s') := by
  cases c with
  | header => exact SameParams.exec_header h hi
  | flagWord => exact SameCursors.exec_flagWord h hp hp' hi
  | literal => exact SameCursors.exec_literal h hi
  | backref => exact SameCursors.exec_backref h hi

/-! ## The fetch -/

/-- The cursor of a family, and the limit of what it may read. -/
theorem AgreeIn.cursor {c : Context} (h : AgreeIn (duePhase c) s s') :
    itemStart c s' = itemStart c s ∧ readLimit c s' = readLimit c s := by
  cases c with
  | header => exact ⟨rfl, congrArg BitVec.toNat h.inLen⟩
  | flagWord | literal | backref => exact ⟨congrArg BitVec.toNat h.rd, congrArg BitVec.toNat h.csize⟩

/-- The fetch finds the same item, or raises the family's error, in both states; or the first one lacks a byte. -/
theorem AgreeIn.fetch {c : Context} (h : AgreeIn (duePhase c) s s') :
    (∃ i, fetch c s = .run i ∧ fetch c s' = .run i) ∨
    (fetch c s = .answer (.next (raise (cutKind c) s)) ∧ fetch c s' = .answer (.next (raise (cutKind c) s'))) ∨
    ∃ f, fetch c s = .answer (.fault f) := by
  obtain ⟨hstart, hlimit⟩ := h.cursor
  simp only [Machine.fetch, decodeWhole, hstart, hlimit, h.params.readIn_eq, h.params.readInRun_eq]
  split
  · exact .inr (.inl ⟨rfl, rfl⟩)
  · split
    · exact .inr (.inr ⟨_, rfl⟩)
    · split
      · exact .inr (.inl ⟨rfl, rfl⟩)
      · split
        · exact .inr (.inr ⟨_, rfl⟩)
        · split
          · exact .inl ⟨_, rfl, rfl⟩
          · exact .inr (.inl ⟨rfl, rfl⟩)

/-- The states step alike where an item is due. -/
theorem step_due_follows {c : Context} (hc : s.cmd = none) (hp : s.phase = duePhase c) (hp' : s'.phase = duePhase c)
    (hf : c = .flagWord → s.fcnt = 0#6 ∧ s'.fcnt = 0#6) (h : AgreeIn (duePhase c) s s') :
    Follows (step s) (step s') := by
  rw [step_due hc hp (fun e => (hf e).1), step_due (h.params.cmd.trans hc) hp' (fun e => (hf e).2)]
  obtain ⟨i, hi, hi'⟩ | ⟨hx, hx'⟩ | ⟨f, hx⟩ := h.fetch
  · rw [hi, hi']
    exact h.exec hp hp' (fetch_run hi).2
  · rw [hx, hx']
    exact follows_next (h.params.raised _)
  · rw [hx]
    exact follows_fault f _

/-! ## The step and the run -/

/-- The states step alike where the phase's own moves do. -/
theorem step_follows_of_answers (hc : s.cmd = none) (hc' : s'.cmd = none)
    {o o' : Host.Outcome State Fault Refusal} (ho : phaseAction s = .answer o) (ho' : phaseAction s' = .answer o')
    (h : Follows o o') : Follows (step s) (step s') := by
  rwa [step_of_no_command hc, step_of_no_command hc', ho, ho']

/-- With no command pending, the states step alike. -/
theorem step_follows_of_no_command (hc : s.cmd = none) {p : Phase} (hp : s.phase = p) (hp' : s'.phase = p)
    (h : AgreeIn p s s') : Follows (step s) (step s') := by
  have hc' : s'.cmd = none := h.params.cmd.trans hc
  cases p with
  | header => exact step_due_follows (c := .header) hc hp hp' (by simp) h
  | litdec => exact step_due_follows (c := .literal) hc hp hp' (by simp) h
  | matchdec => exact step_due_follows (c := .backref) hc hp hp' (by simp) h
  | flag =>
    have hfcnt : s'.fcnt = s.fcnt := SameCursors.fcnt h
    by_cases hf : s.fcnt = 0#6
    · exact step_due_follows (c := .flagWord) hc hp hp' (fun _ => ⟨hf, hfcnt.trans hf⟩) h
    · exact step_follows_of_answers hc hc' (by simp only [phaseAction, hp, if_neg hf])
        (by simp only [phaseAction, hp', hfcnt, if_neg hf]) (follows_next (SameCursors.flagConsumed h hf))
  | idle | done =>
    exact step_follows_of_answers hc hc' (by rw [phaseAction, hp]) (by rw [phaseAction, hp'])
      (follows_next ⟨_, hp, hp', h⟩)
  | sizechk =>
    exact step_follows_of_answers hc hc' (by rw [phaseAction, hp]) (by rw [phaseAction, hp'])
      (follows_next (SameHeader.sizeChecked h))
  | alloc =>
    exact step_follows_of_answers hc hc' (by rw [phaseAction, hp]) (by rw [phaseAction, hp'])
      (follows_next (SameHeader.allocated h))
  | loop =>
    exact step_follows_of_answers hc hc' (by rw [phaseAction, hp]) (by rw [phaseAction, hp'])
      (follows_next (SameCursors.loopTested h))
  | litcopy =>
    exact step_follows_of_answers hc hc' (by rw [phaseAction, hp]) (by rw [phaseAction, hp'])
      (literalCopyStep_follows hp hp' h)
  | matchcopy =>
    exact step_follows_of_answers hc hc' (by rw [phaseAction, hp]) (by rw [phaseAction, hp'])
      (matchCopyStep_follows hp hp' h)
  | final =>
    exact step_follows_of_answers hc hc' (by rw [phaseAction, hp]) (by rw [phaseAction, hp'])
      (follows_next (SameCursors.finalChecked h))

/-- A command that the host has issued is taken alike (R200, R208). -/
theorem hostCommand_follows (c : Command) {p : Phase} (hp : s.phase = p) (hp' : s'.phase = p) (h : SameParams s s') :
    Follows (hostCommand c s) (hostCommand c s') := by
  cases c with
  | start =>
    simp only [hostCommand, hp, hp']
    split
    · exact follows_next ⟨.header, rfl, rfl, { h with cmd := rfl }⟩
    · exact follows_refused _ _
  | ack =>
    simp only [hostCommand, hp, hp']
    split
    · exact follows_next ⟨.idle, rfl, rfl, { h with cmd := rfl, out := rfl }⟩
    · exact follows_refused _ _

/-- States that agree step to states that agree. -/
theorem step_follows (h : SameCall s s') : Follows (step s) (step s') := by
  obtain ⟨p, hp, hp', h⟩ := h
  cases hc : s.cmd with
  | none => exact step_follows_of_no_command hc hp hp' h
  | some c =>
    rw [step_of_command hc, step_of_command (h.params.cmd.trans hc)]
    exact hostCommand_follows c hp hp' h.params

/-- The host sees the same result of calls that ended in agreement (R39). -/
theorem hostResult_eq (h : SameCall s s') (hdone : s.phase = .done) : hostResult s' = hostResult s := by
  obtain ⟨p, rfl, hp', h⟩ := h
  rw [hdone] at hp' h
  obtain ⟨hpar, hstatus, hlen⟩ := h
  simp only [hostResult, hostOutput, hp', hdone, hstatus, hlen, hpar.out]

end

/-- Runs from states that agree, of any length, end in states that agree. -/
theorem steps_follows (k : Nat) {s s' : State} (h : SameCall s s') : Follows (steps k s) (steps k s') := by
  induction k generalizing s s' with
  | zero => exact follows_next h
  | succ k ih =>
    intro u hu
    obtain ⟨t, ht, hu⟩ := (steps_succ_iff k).1 hu
    obtain ⟨t', ht', hagree⟩ := step_follows h t ht
    obtain ⟨u', hu', hend⟩ := ih hagree u hu
    exact ⟨u', (steps_succ_iff k).2 ⟨t', ht', hu'⟩, hend⟩

/-- `start` in phase `IDLE` (R200). -/
theorem step_start {s : State} (hc : s.cmd = some .start) (hp : s.phase = .idle) : step s = .next (beginCall s) := by
  rw [step_of_command hc, hostCommand, if_pos hp]

/-- A launched call reaches `DONE`: the step that takes `start`, then a call's steps. -/
theorem launched_reaches_done {bytes : List Byte} {granted : Bool} {s t : State} (hs : CallInv s)
    (h : launch bytes granted s = some t) : ∃ k u, steps k t = .next u ∧ u.phase = .done := by
  have hinv := callInv_of_launch h hs
  obtain ⟨⟨hp, -, -⟩, ht⟩ := launch_eq_some_iff.1 h
  have hstep : step t = .next (beginCall t) := step_start (by rw [ht]) (by rw [ht]; exact hp)
  obtain ⟨k, u, -, hu, hdone⟩ :=
    calling_reaches_done _ (stepKeepsCallInv _ _ hinv hstep) ⟨rfl, by simp, by simp⟩
  exact ⟨k + 1, u, (steps_succ_iff k).2 ⟨_, hstep, hu⟩, hdone⟩

/-- What a launch leaves in two states of the invariant agrees on everything phase `IDLE` depends on (R41). -/
theorem sameCall_of_launch {bytes : List Byte} {granted : Bool} {s s' t t' : State} (hs : CallInv s) (hs' : CallInv s')
    (h : launch bytes granted s = some t) (h' : launch bytes granted s' = some t') : SameCall t t' := by
  obtain ⟨⟨hp, -, -⟩, rfl⟩ := launch_eq_some_iff.1 h
  obtain ⟨⟨hp', -, -⟩, rfl⟩ := launch_eq_some_iff.1 h'
  obtain ⟨-, hout⟩ := (callInv_idle_iff hp).1 hs
  obtain ⟨-, hout'⟩ := (callInv_idle_iff hp').1 hs'
  exact ⟨.idle, hp, hp', rfl, rfl, rfl, rfl, hout'.trans hout.symm⟩

/-- Settles O58: the launched states agree, so their runs stay in agreement, and the first of them reaches `DONE`. -/
theorem callsForgetThePast : Obligations.CallsForgetThePast := by
  intro inp granted s s' t t' hs hs' hl hl'
  obtain ⟨k, u, hu, hdone⟩ := launched_reaches_done hs hl
  obtain ⟨u', hu', hagree⟩ := steps_follows k (sameCall_of_launch hs hs' hl hl') u hu
  obtain ⟨p, hp, hp', -⟩ := id hagree
  exact ⟨k, u, u', hu, hu', hdone, hp'.trans (hp.symm.trans hdone), (hostResult_eq hagree hdone).symm⟩

end Sys2Proof.Proofs
end

section
/-!
PROOFS of the family `20_memory.md`: the fields of the stream's items are the bits of little-endian values (R17, R51,
R52), and from a state of the invariant no step reads or writes a byte that does not exist (R57, R38).
-/

namespace Sys2Proof.Proofs

open Sys2Proof.Machine Sys2Proof.Laws

/-! ## Bytes and fields as naturals (R17, R52) -/

/-- The value of a byte above others: its own, shifted past them. -/
theorem append_toNat {m n : Nat} (hi : BitVec m) (lo : BitVec n) : (hi ++ lo).toNat = lo.toNat + 2 ^ n * hi.toNat := by
  rw [BitVec.toNat_append, ← Nat.shiftLeft_add_eq_or_of_lt lo.isLt, Nat.shiftLeft_eq, mul_comm, add_comm]

theorem le16_toNat (b0 b1 : Byte) : (le16 b0 b1).toNat = leNat [b0, b1] := by
  simp only [le16, append_toNat, leNat]
  omega

theorem le24_toNat (b0 b1 b2 : Byte) : (le24 b0 b1 b2).toNat = leNat [b0, b1, b2] := by
  simp only [le24, append_toNat, leNat]
  omega

theorem le32_toNat (b0 b1 b2 b3 : Byte) : (le32 b0 b1 b2 b3).toNat = leNat [b0, b1, b2, b3] := by
  simp only [le32, append_toNat, leNat]
  omega

/-- A field of `k` bits from bit `a` on is a quotient's remainder. -/
theorem field_toNat {n : Nat} (v : BitVec n) (a k : Nat) : (v.extractLsb' a k).toNat = v.toNat / 2 ^ a % 2 ^ k := by
  rw [BitVec.extractLsb'_toNat, Nat.shiftRight_eq_div_pow]

/-- A field that reaches the top bit is the whole quotient. -/
theorem topField_toNat {n : Nat} (v : BitVec n) (a k : Nat) (h : n = a + k) :
    (v.extractLsb' a k).toNat = v.toNat / 2 ^ a := by
  subst h
  rw [field_toNat, Nat.mod_eq_of_lt (Nat.div_lt_of_lt_mul (Nat.pow_add 2 a k ▸ v.isLt))]

/-- The selector is the first byte's remainder by 4 (R165). -/
theorem selector_eq_iff (b0 : Byte) (k : BitVec 2) : selector b0 = k ↔ b0.toNat % 4 = k.toNat := by
  rw [BitVec.toNat_eq, selector, field_toNat, Nat.pow_zero, Nat.div_one]
  rfl

theorem le16_field_toNat (b0 b1 : Byte) (a k : Nat) :
    ((le16 b0 b1).extractLsb' a k).toNat = leNat [b0, b1] / 2 ^ a % 2 ^ k := by
  rw [field_toNat, le16_toNat]

theorem le16_topField_toNat (b0 b1 : Byte) (a k : Nat) (h : 16 = a + k) :
    ((le16 b0 b1).extractLsb' a k).toNat = leNat [b0, b1] / 2 ^ a := by
  rw [topField_toNat _ a k h, le16_toNat]

theorem le24_field_toNat (b0 b1 b2 : Byte) (a k : Nat) :
    ((le24 b0 b1 b2).extractLsb' a k).toNat = leNat [b0, b1, b2] / 2 ^ a % 2 ^ k := by
  rw [field_toNat, le24_toNat]

theorem le24_topField_toNat (b0 b1 b2 : Byte) (a k : Nat) (h : 24 = a + k) :
    ((le24 b0 b1 b2).extractLsb' a k).toNat = leNat [b0, b1, b2] / 2 ^ a := by
  rw [topField_toNat _ a k h, le24_toNat]

/-- The length field of a 3-byte match form lies in its first byte (R91, R94). -/
theorem m3Length_eq_zero_iff (b0 b1 b2 : Byte) :
    (le24 b0 b1 b2).extractLsb' 2 5 = 0#5 ↔ b0.toNat / 4 % 32 = 0 := by
  rw [BitVec.toNat_eq, le24_field_toNat, BitVec.toNat_ofNat]
  simp only [leNat]
  omega

/-- R51's weighted sum of a 4-byte field. -/
theorem le32_toNat_sum (b0 b1 b2 b3 : Byte) : (le32 b0 b1 b2 b3).toNat =
    b0.toNat + b1.toNat * 2 ^ 8 + b2.toNat * 2 ^ 16 + b3.toNat * 2 ^ 24 := by
  rw [le32_toNat]
  simp only [leNat]
  omega

/-! ## The decoder, form by form, on an item's own bytes -/

section
variable {b0 : Byte} (b1 b2 b3 b4 b5 b6 b7 b8 : Byte)

theorem decode_hdrC (h : extBit b0 = false) : decode .header [b0, b1, b2] = .ok (.hdrC b0 b1 b2, []) := by
  simp [decode, decodeHeader, h]

theorem decode_hdrX (h : extBit b0 = true) : decode .header [b0, b1, b2, b3, b4, b5, b6, b7, b8] =
    .ok (.hdrX b0 (le32 b1 b2 b3 b4) (le32 b5 b6 b7 b8), []) := by
  simp [decode, decodeHeader, h]

theorem decode_litS (h : b0 ≠ 0#8) : decode .literal [b0] = .ok (.litS b0, []) := by
  simp [decode, decodeLiteral, h]

theorem decode_litL (h : b0 = 0#8) : decode .literal [b0, b1, b2, b3, b4] = .ok (.litL (le32 b1 b2 b3 b4), []) := by
  simp [decode, decodeLiteral, h]

theorem decode_m1 (h : b0.toNat % 4 = 0) : decode .backref [b0] = .ok (.m1 (b0.extractLsb' 2 6), []) := by
  simp [decode, decodeMatch, (selector_eq_iff b0 0#2).2 h]

theorem decode_m2a (h : b0.toNat % 4 = 1) :
    decode .backref [b0, b1] = .ok (.m2a ((le16 b0 b1).extractLsb' 2 14), []) := by
  simp [decode, decodeMatch, (selector_eq_iff b0 1#2).2 h]

theorem decode_m2b (h : b0.toNat % 4 = 2) : decode .backref [b0, b1] =
    .ok (.m2b ((le16 b0 b1).extractLsb' 2 4) ((le16 b0 b1).extractLsb' 6 10), []) := by
  simp [decode, decodeMatch, (selector_eq_iff b0 2#2).2 h]

theorem decode_threeBytes (h : b0.toNat % 4 = 3) :
    decode .backref [b0, b1, b2] = .ok (decodeM3 (le24 b0 b1 b2), []) := by
  simp [decode, decodeMatch, (selector_eq_iff b0 3#2).2 h]

theorem decode_m3 (h : b0.toNat % 4 = 3) (hlen : b0.toNat / 4 % 32 ≠ 0) : decode .backref [b0, b1, b2] =
    .ok (.m3 ((le24 b0 b1 b2).extractLsb' 2 5) ((le24 b0 b1 b2).extractLsb' 7 17), []) := by
  rw [decode_threeBytes b1 b2 h, decodeM3, if_neg (mt (m3Length_eq_zero_iff b0 b1 b2).1 hlen)]

theorem decode_m3Rsvd (h : b0.toNat % 4 = 3) (hlen : b0.toNat / 4 % 32 = 0) : decode .backref [b0, b1, b2] =
    .ok (.m3Rsvd ((le24 b0 b1 b2).extractLsb' 7 17), []) := by
  rw [decode_threeBytes b1 b2 h, decodeM3, if_pos ((m3Length_eq_zero_iff b0 b1 b2).2 hlen)]

end

/-! ## The statements about fields -/

/-- Settles O7, form by form: the item is the one its first byte selects, and each field a quotient, or a quotient's
remainder, of the value its bytes stand for. -/
theorem tokenFieldsLittleEndian : Obligations.TokenFieldsLittleEndian := by
  intro b0 b1 b2 b3 b4
  refine ⟨?flagw, decode_litS, ?litL, ?m1, ?m2a, ?m2b, ?m3, ?m3Rsvd⟩
  case flagw => exact ⟨_, rfl, le32_toNat b0 b1 b2 b3⟩
  case litL => exact fun hz => ⟨_, decode_litL b1 b2 b3 b4 hz, le32_toNat b1 b2 b3 b4⟩
  case m1 => exact fun hsel => ⟨_, decode_m1 hsel, topField_toNat b0 2 6 rfl⟩
  case m2a => exact fun hsel => ⟨_, decode_m2a b1 hsel, le16_topField_toNat b0 b1 2 14 rfl⟩
  case m2b =>
    exact fun hsel => ⟨_, _, decode_m2b b1 hsel, le16_field_toNat b0 b1 2 4, le16_topField_toNat b0 b1 6 10 rfl⟩
  case m3 =>
    intro hsel hlen
    exact ⟨_, _, decode_m3 b1 b2 hsel hlen, le24_field_toNat b0 b1 b2 2 5, le24_topField_toNat b0 b1 b2 7 17 rfl⟩
  case m3Rsvd => exact fun hsel hlen => ⟨_, decode_m3Rsvd b1 b2 hsel hlen, le24_topField_toNat b0 b1 b2 7 17 rfl⟩

/-- Settles O6, by `EXT`: the compact header's bytes are its fields, the extended header's are `le32` of its bytes. -/
theorem headerFieldsLittleEndian : Obligations.HeaderFieldsLittleEndian := by
  intro b0 b1 b2 b3 b4 b5 b6 b7 b8
  exact ⟨decode_hdrC b1 b2, fun hext => ⟨_, _, decode_hdrX b1 b2 b3 b4 b5 b6 b7 b8 hext,
    le32_toNat_sum b1 b2 b3 b4, le32_toNat_sum b5 b6 b7 b8⟩⟩

/-! ## No step faults (R57, R38) -/

/-- A host command has its effect or is refused (R200, R208, R273). -/
theorem hostCommand_ne_fault (c : Command) (s : State) (f : Fault) : hostCommand c s ≠ .fault f := by
  cases c with
  | start | ack =>
    simp only [hostCommand]
    split <;> exact nofun

/-- With no command the block waits in `IDLE` and in `DONE`. -/
theorem step_of_waiting {s : State} (hc : s.cmd = none) (hp : s.phase = .idle ∨ s.phase = .done) :
    step s = .next s := by
  rw [step_of_no_command hc]
  obtain hp | hp := hp <;> rw [phaseAction, hp]

/-- Settles O47: a host command never faults, a step of a call answers a next state, and elsewhere the block waits. -/
theorem noFaultWithinInvariant : Obligations.NoFaultWithinInvariant := by
  intro s f hs
  cases hc : s.cmd with
  | some c =>
    rw [step_of_command hc]
    exact hostCommand_ne_fault c s f
  | none =>
    suffices h : ∃ t, step s = .next t by
      obtain ⟨t, ht⟩ := h
      rw [ht]
      exact nofun
    by_cases hp : s.phase = .idle ∨ s.phase = .done
    · exact ⟨s, step_of_waiting hc hp⟩
    · obtain ⟨hidle, hdone⟩ := not_or.1 hp
      exact calling_step_next hs ⟨hc, hidle, hdone⟩

end Sys2Proof.Proofs
end

section
/-!
PROOFS of the family `30_encoding.md`: the encoder and the decoder agree (R80 to R97), a step runs the item at the
cursor (R81), and the flags of a flag word are consumed from bit 0 on (R84, R133).
-/

namespace Sys2Proof.Proofs

open Sys2Proof.Machine Sys2Proof.Laws

/-! ## Bytes and little-endian values are each other's inverses (R17, R52) -/

/-- Byte `k` of a value is its digit `k` to the base 256. -/
theorem byteAt_toNat {n : Nat} (v : BitVec n) (k : Nat) : (byteAt v k).toNat = v.toNat / 2 ^ (8 * k) % 2 ^ 8 :=
  field_toNat v (8 * k) 8

@[simp] theorem le16_byteAt (v : BitVec 16) : le16 (byteAt v 0) (byteAt v 1) = v := by
  have hv := v.isLt
  simp only [BitVec.toNat_eq, le16_toNat, leNat, byteAt_toNat]
  omega

@[simp] theorem le24_byteAt (v : BitVec 24) : le24 (byteAt v 0) (byteAt v 1) (byteAt v 2) = v := by
  have hv := v.isLt
  simp only [BitVec.toNat_eq, le24_toNat, leNat, byteAt_toNat]
  omega

@[simp] theorem le32_byteAt (v : BitVec 32) : le32 (byteAt v 0) (byteAt v 1) (byteAt v 2) (byteAt v 3) = v := by
  have hv := v.isLt
  simp only [BitVec.toNat_eq, le32_toNat, leNat, byteAt_toNat]
  omega

@[simp] theorem bytes16_le16 (b0 b1 : Byte) : bytes16 (le16 b0 b1) = [b0, b1] := by
  simp only [bytes16, List.cons.injEq, and_true, BitVec.toNat_eq, byteAt_toNat, le16_toNat, leNat]
  omega

@[simp] theorem bytes24_le24 (b0 b1 b2 : Byte) : bytes24 (le24 b0 b1 b2) = [b0, b1, b2] := by
  simp only [bytes24, List.cons.injEq, and_true, BitVec.toNat_eq, byteAt_toNat, le24_toNat, leNat]
  omega

@[simp] theorem bytes32_le32 (b0 b1 b2 b3 : Byte) : bytes32 (le32 b0 b1 b2 b3) = [b0, b1, b2, b3] := by
  simp only [bytes32, List.cons.injEq, and_true, BitVec.toNat_eq, byteAt_toNat, le32_toNat, leNat]
  omega

/-! ## The fields of a token's value (R88 to R91, R165) -/

/-- The selector of an encoded token is its value's two low bits. -/
@[simp] theorem selector_byteAt_zero {n : Nat} (v : BitVec n) : selector (byteAt v 0) = v.extractLsb' 0 2 := by
  rw [BitVec.toNat_eq, field_toNat, selector, field_toNat, byteAt_toNat]
  omega

@[simp] theorem le16_selector (b0 b1 : Byte) : (le16 b0 b1).extractLsb' 0 2 = selector b0 := by
  rw [BitVec.toNat_eq, le16_field_toNat, selector, field_toNat]
  simp only [leNat]
  omega

@[simp] theorem le24_selector (b0 b1 b2 : Byte) : (le24 b0 b1 b2).extractLsb' 0 2 = selector b0 := by
  rw [BitVec.toNat_eq, le24_field_toNat, selector, field_toNat]
  simp only [leNat]
  omega

/-- A value is its upper field above its lower one. -/
theorem topField_append_lowField {m k : Nat} (v : BitVec (m + k)) : v.extractLsb' k m ++ v.extractLsb' 0 k = v :=
  (BitVec.extractLsb'_append_extractLsb'_eq_extractLsb' (Nat.zero_add k).symm).trans BitVec.extractLsb'_eq_self

/-- `M1`'s fields make up its byte. -/
theorem encode_m1_field {b0 : Byte} (hs : selector b0 = 0#2) : encode (.m1 (b0.extractLsb' 2 6)) = [b0] := by
  rw [encode, ← hs]
  exact congrArg (fun v => [v]) (topField_append_lowField (m := 6) (k := 2) b0)

/-- `M2A`'s fields make up its value. -/
theorem encode_m2a_field {v : BitVec 16} (hs : v.extractLsb' 0 2 = 1#2) :
    encode (.m2a (v.extractLsb' 2 14)) = bytes16 v := by
  rw [encode, ← hs]
  exact congrArg bytes16 (topField_append_lowField (m := 14) (k := 2) v)

/-- `M2B`'s fields make up its value. -/
theorem encode_m2b_fields {v : BitVec 16} (hs : v.extractLsb' 0 2 = 2#2) :
    encode (.m2b (v.extractLsb' 2 4) (v.extractLsb' 6 10)) = bytes16 v := by
  have hlow : v.extractLsb' 2 4 ++ 2#2 = v.extractLsb' 0 6 :=
    hs ▸ BitVec.extractLsb'_append_extractLsb'_eq_extractLsb' rfl
  rw [encode, hlow]
  exact congrArg bytes16 (topField_append_lowField (m := 10) (k := 6) v)

/-- The fields of a 3-byte match form make up its value, reserved or not: `3#7` is length field 0 above selector 3. -/
theorem encode_decodeM3 {v : BitVec 24} (hs : v.extractLsb' 0 2 = 3#2) : encode (decodeM3 v) = bytes24 v := by
  have hlow : v.extractLsb' 2 5 ++ 3#2 = v.extractLsb' 0 7 :=
    hs ▸ BitVec.extractLsb'_append_extractLsb'_eq_extractLsb' rfl
  have hv : v.extractLsb' 7 17 ++ v.extractLsb' 0 7 = v := topField_append_lowField (m := 17) (k := 7) v
  unfold decodeM3
  split
  · rename_i hl
    rw [hl] at hlow
    rw [encode, show 3#7 = 0#5 ++ 3#2 from rfl, hlow]
    exact congrArg bytes24 hv
  · rw [encode, hlow]
    exact congrArg bytes24 hv

/-- A length field of 0 decodes to the reserved pattern (R94). -/
theorem decodeM3_rsvd (d : BitVec 17) : decodeM3 (d ++ 3#7) = .m3Rsvd d := by
  have hl : (d ++ 3#7).extractLsb' 2 5 = 0#5 := BitVec.extractLsb'_append_eq_of_add_le (by decide)
  have hd : (d ++ 3#7).extractLsb' 7 17 = d := BitVec.extractLsb'_append_eq_left
  rw [decodeM3, if_pos hl, hd]

/-- Any other length field decodes to an `M3` (R91). -/
theorem decodeM3_m3 {l : BitVec 5} (d : BitVec 17) (h : l ≠ 0#5) : decodeM3 (d ++ (l ++ 3#2)) = .m3 l d := by
  have hl : (d ++ (l ++ 3#2)).extractLsb' 2 5 = l :=
    (BitVec.extractLsb'_append_eq_of_add_le (by decide)).trans BitVec.extractLsb'_append_eq_left
  have hd : (d ++ (l ++ 3#2)).extractLsb' 7 17 = d := BitVec.extractLsb'_append_eq_left
  rw [decodeM3, hl, if_neg h, hd]

/-! ## The decoder on an item's value, whatever follows it (R165) -/

section
variable (rest : List Byte)

theorem decode_byte_m1 {b0 : Byte} (hs : selector b0 = 0#2) :
    decode .backref ([b0] ++ rest) = .ok (.m1 (b0.extractLsb' 2 6), rest) := by
  simp [decode, decodeMatch, hs]

theorem decode_bytes16_m2a {v : BitVec 16} (hs : v.extractLsb' 0 2 = 1#2) :
    decode .backref (bytes16 v ++ rest) = .ok (.m2a (v.extractLsb' 2 14), rest) := by
  simp [decode, decodeMatch, bytes16, hs]

theorem decode_bytes16_m2b {v : BitVec 16} (hs : v.extractLsb' 0 2 = 2#2) :
    decode .backref (bytes16 v ++ rest) = .ok (.m2b (v.extractLsb' 2 4) (v.extractLsb' 6 10), rest) := by
  simp [decode, decodeMatch, bytes16, hs]

theorem decode_bytes24 {v : BitVec 24} (hs : v.extractLsb' 0 2 = 3#2) :
    decode .backref (bytes24 v ++ rest) = .ok (decodeM3 v, rest) := by
  simp [decode, decodeMatch, bytes24, hs]

end

/-! ## Decoding what the encoder wrote -/

theorem hdrC_wellFormed_iff (ctrl dlen plen : BitVec 8) :
    (Instr.hdrC ctrl dlen plen).WellFormed = true ↔ extBit ctrl = false := by
  simp [Instr.WellFormed, extBit]

theorem litS_wellFormed_iff (n : BitVec 8) : (Instr.litS n).WellFormed = true ↔ n ≠ 0#8 := by
  simp [Instr.WellFormed]

/-- Settles O1, form by form: what well-formedness says of the first byte, or the selector at the bottom of a token's
value, makes the decoder take the form's branch, and the fields lie above the selector as the encoder put them. -/
theorem decodeOfEncode : Obligations.DecodeOfEncode := by
  intro i rest hwf
  cases i with
  | hdrC ctrl dlen plen =>
    have hext := (hdrC_wellFormed_iff ctrl dlen plen).1 hwf
    simp [encode, contextOf, decode, decodeHeader, hext]
  | hdrX ctrl dlen plen =>
    have hext : extBit ctrl = true := hwf
    simp [encode, contextOf, decode, decodeHeader, bytes32, hext]
  | flagw flags => simp [encode, contextOf, decode, decodeFlagWord, bytes32]
  | litS n =>
    have hn := (litS_wellFormed_iff n).1 hwf
    simp [encode, contextOf, decode, decodeLiteral, hn]
  | litL n => simp [encode, contextOf, decode, decodeLiteral, bytes32]
  | m1 d =>
    have hd : (d ++ 0#2).extractLsb' 2 6 = d := BitVec.extractLsb'_append_eq_left
    exact (decode_byte_m1 rest BitVec.extractLsb'_append_eq_right).trans (by rw [hd])
  | m2a d =>
    have hd : (d ++ 1#2).extractLsb' 2 14 = d := BitVec.extractLsb'_append_eq_left
    exact (decode_bytes16_m2a rest BitVec.extractLsb'_append_eq_right).trans (by rw [hd])
  | m2b l d =>
    have hs : (d ++ (l ++ 2#2)).extractLsb' 0 2 = 2#2 :=
      (BitVec.extractLsb'_append_eq_of_add_le (by decide)).trans BitVec.extractLsb'_append_eq_right
    have hl : (d ++ (l ++ 2#2)).extractLsb' 2 4 = l :=
      (BitVec.extractLsb'_append_eq_of_add_le (by decide)).trans BitVec.extractLsb'_append_eq_left
    have hd : (d ++ (l ++ 2#2)).extractLsb' 6 10 = d := BitVec.extractLsb'_append_eq_left
    exact (decode_bytes16_m2b rest hs).trans (by rw [hl, hd])
  | m3Rsvd d =>
    have hs : (d ++ 3#7).extractLsb' 0 2 = 3#2 := BitVec.extractLsb'_append_eq_of_add_le (by decide)
    exact (decode_bytes24 rest hs).trans (by rw [decodeM3_rsvd])
  | m3 l d =>
    have hl : l ≠ 0#5 := by simpa [Instr.WellFormed] using hwf
    have hs : (d ++ (l ++ 3#2)).extractLsb' 0 2 = 3#2 :=
      (BitVec.extractLsb'_append_eq_of_add_le (by decide)).trans BitVec.extractLsb'_append_eq_right
    exact (decode_bytes24 rest hs).trans (by rw [decodeM3_m3 d hl])

/-! ## Encoding what the decoder read -/

/-- `i` is a well-formed item of family `c`, and `bs` is its encoding followed by `rest`. -/
def ItemAtHead (c : Context) (bs : List Byte) (i : Instr) (rest : List Byte) : Prop :=
  i.WellFormed = true ∧ contextOf i = c ∧ bs = encode i ++ rest

section
variable {bs rest : List Byte} {i : Instr}

theorem itemAtHead_of_decodeHeader (h : decodeHeader bs = .ok (i, rest)) : ItemAtHead .header bs i rest := by
  unfold decodeHeader at h
  split at h
  · rename_i b0 b1 b2 tl
    split at h
    · rename_i hext
      split at h
      · cases h
        exact ⟨hext, rfl, by simp [encode]⟩
      · cases h
    · rename_i hext
      cases h
      exact ⟨(hdrC_wellFormed_iff b0 b1 b2).2 (Bool.eq_false_of_not_eq_true hext), rfl, rfl⟩
  · cases h

theorem itemAtHead_of_decodeFlagWord (h : decodeFlagWord bs = .ok (i, rest)) : ItemAtHead .flagWord bs i rest := by
  unfold decodeFlagWord at h
  split at h
  · cases h
    exact ⟨rfl, rfl, by simp [encode]⟩
  · cases h

theorem itemAtHead_of_decodeLiteral (h : decodeLiteral bs = .ok (i, rest)) : ItemAtHead .literal bs i rest := by
  unfold decodeLiteral at h
  split at h
  · cases h
  · split at h
    · rename_i hz
      split at h
      · cases h
        exact ⟨rfl, rfl, by simp [encode, hz]⟩
      · cases h
    · rename_i hz
      cases h
      exact ⟨(litS_wellFormed_iff _).2 hz, rfl, rfl⟩

theorem itemAtHead_of_decodeMatch (h : decodeMatch bs = .ok (i, rest)) : ItemAtHead .backref bs i rest := by
  unfold decodeMatch at h
  split at h
  · cases h
  · rename_i b0 tl
    split at h
    · rename_i hs
      cases h
      exact ⟨rfl, rfl, by rw [encode_m1_field hs]; rfl⟩
    · split at h
      · rename_i hs
        split at h
        · cases h
          exact ⟨rfl, rfl, by rw [encode_m2a_field (by rwa [le16_selector]), bytes16_le16]; rfl⟩
        · cases h
      · split at h
        · rename_i hs
          split at h
          · cases h
            exact ⟨rfl, rfl, by rw [encode_m2b_fields (by rwa [le16_selector]), bytes16_le16]; rfl⟩
          · cases h
        · rename_i h0 h1 h2
          have hs : selector b0 = 3#2 := by simpa [h0, h1, h2] using selector_cases b0
          split at h
          · rename_i b1 b2 _
            cases h
            obtain ⟨hwf, hc⟩ := decodeM3_wellFormed (le24 b0 b1 b2)
            exact ⟨hwf, hc, by rw [encode_decodeM3 (by rwa [le24_selector]), bytes24_le24]; rfl⟩
          · cases h

end

/-- Settles O2, family by family: each branch of the decoder answers an item whose fields make up the bytes it read. -/
theorem encodeOfDecode : Obligations.EncodeOfDecode := by
  intro c bs rest i h
  cases c with
  | header => exact itemAtHead_of_decodeHeader h
  | flagWord => exact itemAtHead_of_decodeFlagWord h
  | literal => exact itemAtHead_of_decodeLiteral h
  | backref => exact itemAtHead_of_decodeMatch h

/-- What the decoder reads, said once: the well-formed item of the family whose encoding stands at the head. -/
theorem decode_eq_ok_iff {c : Context} {bs rest : List Byte} {i : Instr} :
    decode c bs = .ok (i, rest) ↔ ItemAtHead c bs i rest := by
  constructor
  · exact encodeOfDecode c bs rest i
  · rintro ⟨hwf, rfl, rfl⟩
    exact decodeOfEncode i rest hwf

/-! ## Where an item is cut short (R94) -/

/-- Bytes enough for the item their first byte begins decode to an item of exactly that width. -/
theorem decode_of_enough {c : Context} {b0 : Byte} {tl : List Byte} (h : itemWidth c b0 ≤ (b0 :: tl).length) :
    ∃ i rest, decode c (b0 :: tl) = .ok (i, rest) ∧ (encode i).length = itemWidth c b0 := by
  obtain ⟨n, hn⟩ := Nat.exists_eq_succ_of_ne_zero (itemWidth_pos c b0).ne'
  have hown : (b0 :: tl.take n).length = itemWidth c b0 := by
    rw [List.length_cons] at h ⊢
    rw [List.length_take]
    omega
  obtain ⟨i, hi, hwf, hc⟩ := decode_of_width hown
  obtain ⟨-, -, henc⟩ := decode_eq_ok_iff.1 hi
  rw [List.append_nil] at henc
  refine ⟨i, tl.drop n, decode_eq_ok_iff.2 ⟨hwf, hc, ?_⟩, henc ▸ hown⟩
  rw [← henc, List.cons_append, List.take_append_drop]

theorem encode_eq_cons (i : Instr) : ∃ b0 tl, encode i = b0 :: tl := by
  cases i <;> exact ⟨_, _, rfl⟩

/-- The first byte of an encoding fixes its width: with enough bytes behind it, the decoder reads that item and no
other, and reads exactly that width. -/
theorem encode_length {i : Instr} (hwf : i.WellFormed = true) {b0 : Byte} {tl : List Byte} (h : encode i = b0 :: tl) :
    (encode i).length = itemWidth (contextOf i) b0 := by
  have hi := decodeOfEncode i (List.replicate (itemWidth (contextOf i) b0) 0#8) hwf
  rw [h, List.cons_append] at hi
  obtain ⟨j, rest, hj, hlen⟩ := decode_of_enough (c := contextOf i) (b0 := b0)
    (tl := tl ++ List.replicate (itemWidth (contextOf i) b0) 0#8) (by simp; omega)
  rw [hj] at hi
  cases hi
  exact hlen

/-- What decodes is long enough for its first byte. -/
theorem itemWidth_le_of_decode {c : Context} {b0 : Byte} {tl rest : List Byte} {i : Instr}
    (h : decode c (b0 :: tl) = .ok (i, rest)) : itemWidth c b0 ≤ (b0 :: tl).length := by
  obtain ⟨hwf, rfl, hbs⟩ := decode_eq_ok_iff.1 h
  obtain ⟨b, own, henc⟩ := encode_eq_cons i
  have hlen := encode_length hwf henc
  rw [henc, List.cons_append] at hbs
  cases hbs
  rw [← hlen, henc]
  simp

/-- Bytes are refused exactly where there are fewer than the item their first byte begins. -/
theorem decode_error_iff {c : Context} {b0 : Byte} {tl : List Byte} :
    (∃ e, decode c (b0 :: tl) = .error e) ↔ (b0 :: tl).length < itemWidth c b0 := by
  constructor
  · rintro ⟨e, he⟩
    refine not_le.1 fun henough => ?_
    obtain ⟨i, rest, hi, -⟩ := decode_of_enough henough
    rw [he] at hi
    cases hi
  · intro hcut
    cases hd : decode c (b0 :: tl) with
    | error e => exact ⟨e, rfl⟩
    | ok p => exact absurd (itemWidth_le_of_decode hd) (not_le.2 hcut)

/-- Settles O4: every family refuses the empty buffer, and where there is a first byte, `decode_error_iff` decides. -/
theorem decoderRefusesOnlyCutItems : Obligations.DecoderRefusesOnlyCutItems := by
  intro c bs
  cases bs with
  | nil =>
    have hempty : ∃ e, decode c [] = .error e := by cases c <;> exact ⟨_, rfl⟩
    have hfirst : ([] : List Byte).length < firstWidth c := by cases c <;> decide
    exact iff_of_true hempty (.inl hfirst)
  | cons b0 tl =>
    rw [decode_error_iff]
    constructor
    · exact fun hcut => .inr ⟨b0, tl, rfl, hcut⟩
    · rintro (hcut | ⟨_, _, ⟨⟩, hcut⟩)
      · exact hcut.trans_le (firstWidth_le_itemWidth c b0)
      · exact hcut

/-! ## The reserved pattern (R94, R172) -/

/-- The first byte of a reserved pattern is `0x03`, with the distance's lowest bit above it. -/
theorem m3Rsvd_firstByte (d : BitVec 17) : byteAt (d ++ 3#7) 0 = 0x03#8 ∨ byteAt (d ++ 3#7) 0 = 0x83#8 := by
  simp only [BitVec.toNat_eq, byteAt_toNat, append_toNat, BitVec.toNat_ofNat]
  omega

/-- Settles O5: a reserved pattern that decodes is the bytes of its encoding, and both first bytes have selector 3 and
length field 0. -/
theorem reservedPatternFirstBytes : Obligations.ReservedPatternFirstBytes := by
  intro b0 b1 b2
  constructor
  · rintro ⟨d, hd⟩
    obtain ⟨-, -, hbs⟩ := decode_eq_ok_iff.1 hd
    obtain ⟨rfl, -⟩ := List.cons.inj hbs
    exact m3Rsvd_firstByte d
  · rintro (rfl | rfl)
    · exact ⟨_, decode_m3Rsvd b1 b2 (by decide) (by decide)⟩
    · exact ⟨_, decode_m3Rsvd b1 b2 (by decide) (by decide)⟩

/-! ## The flags of a flag word (R84, R133) -/

/-- `k` consumptions shift the flag register by `k`. -/
theorem consumeFlag_iterate_fw (s : State) (k : Nat) : (consumeFlag^[k] s).fw = s.fw >>> k := by
  induction k with
  | zero => exact (BitVec.ushiftRight_zero _).symm
  | succ k ih => rw [Function.iterate_succ_apply', consumeFlag_fw, ih, BitVec.shiftRight_add]

/-- `k` consumptions of a register that holds so many flags take `k` from its count. -/
theorem consumeFlag_iterate_fcnt (s : State) {k : Nat} (hk : k ≤ s.fcnt.toNat) :
    (consumeFlag^[k] s).fcnt.toNat = s.fcnt.toNat - k := by
  induction k with
  | zero => rfl
  | succ k ih =>
    have hpred := ih (Nat.le_of_succ_le hk)
    rw [Function.iterate_succ_apply', consumeFlag_fcnt]
    bv_omega

/-- Settles O21: after `k` consumptions bit 0 of the register is bit `k` of the word. -/
theorem flagsConsumedFromBitZero : Obligations.FlagsConsumedFromBitZero := by
  intro w s k hk
  constructor
  · rw [Function.iterate_succ_apply', consumeFlag_phase, consumeFlag_iterate_fw, refillFlags_fw,
      BitVec.getLsbD_ushiftRight, Nat.add_zero]
  · have h := consumeFlag_iterate_fcnt (refillFlags w s) (k := k + 1) (by rw [refillFlags_fcnt]; exact hk)
    rw [h, refillFlags_fcnt, BitVec.toNat_ofNat]
    omega

/-! ## The step at a whole item (R81) -/

/-- The fetch finds the item whose encoding stands at its family's cursor, within the limit. -/
theorem fetch_eq_run {s : State} {i : Instr} (hwf : i.WellFormed = true)
    (hin : readInRun s (itemStart (contextOf i) s) (encode i).length = some (encode i))
    (hlimit : itemStart (contextOf i) s + (encode i).length ≤ readLimit (contextOf i) s) :
    fetch (contextOf i) s = .run i := by
  obtain ⟨b0, tl, henc⟩ := encode_eq_cons i
  have hlen := encode_length hwf henc
  have hb : readIn s (itemStart (contextOf i) s) = some b0 := by
    obtain ⟨-, hget⟩ := readInRun_spec hin
    simpa [henc] using hget 0 (by simp [henc])
  have hdec : decode (contextOf i) (encode i) = .ok (i, []) := by simpa using decodeOfEncode i [] hwf
  have hfirst := firstWidth_le_itemWidth (contextOf i) b0
  rw [hlen] at hin hlimit
  rw [fetch, if_neg (by omega), hb]
  simp only [if_neg (not_lt.2 hlimit), hin, decodeWhole, hdec]

/-- Settles O9: the family's fetch finds the item, and the step runs it. -/
theorem stepRunsDecodedItem : Obligations.StepRunsDecodedItem := by
  intro s i hc hwf hp hf hin hlimit
  rw [step_due hc hp hf, fetch_eq_run hwf hin hlimit]

end Sys2Proof.Proofs
end

section
/-!
PROOFS of the family `40_header_inspector.md`, the whole call (R210): what follows the header is decoded by itself, so a
header matters only by its fields (R58, R112, R114).
-/

namespace Sys2Proof.Proofs

open Sys2Proof.Machine Sys2Proof.Laws

/-! ## A cursor counted from a later byte -/

section
variable {inp : List Byte} {k : Nat} (hk : k ≤ inp.length)
include hk

theorem readLe_drop (a n : Nat) : readLe inp (k + a) n = readLe (inp.drop k) a n := by
  have hfits : k + a + n ≤ inp.length ↔ a + n ≤ (inp.drop k).length := by
    rw [List.length_drop]
    omega
  simp only [readLe, hfits, List.drop_drop]

theorem refillIfEmpty_drop (rd fw fcnt : Nat) : refillIfEmpty inp (k + rd) fw fcnt =
    (refillIfEmpty (inp.drop k) rd fw fcnt).map (Prod.map id (Prod.map (k + ·) id)) := by
  unfold refillIfEmpty
  split
  · rw [readLe_drop hk, Option.map_map, Nat.add_assoc]
    rfl
  · rfl

theorem literalCount_drop (rd : Nat) :
    literalCount inp (k + rd) = (literalCount (inp.drop k) rd).map (Prod.map id (k + ·)) := by
  unfold literalCount
  rw [readLe_drop hk, Nat.add_assoc, readLe_drop hk]
  split
  · rfl
  · cases readLe (inp.drop k) (rd + 1) 4 with
    | none => rfl
    | some n =>
      simp only [Option.bind_some]
      split <;> rfl
  · rfl

theorem literalRun_drop (dsize rd : Nat) (out : List Byte) :
    literalRun inp dsize (k + rd) out = (literalRun (inp.drop k) dsize rd out).map (Prod.map (k + ·) id) := by
  unfold literalRun
  rw [literalCount_drop hk]
  cases literalCount (inp.drop k) rd with
  | none => rfl
  | some q =>
    obtain ⟨n, r⟩ := q
    have hleft : inp.length - (k + r) = (inp.drop k).length - r := by
      rw [List.length_drop]
      omega
    simp only [Option.map_some, Prod.map, id, hleft, List.drop_drop]
    split
    · rfl
    · rw [Nat.add_assoc]
      rfl

theorem matchOperands_drop (rd : Nat) : matchOperands inp (k + rd) =
    (matchOperands (inp.drop k) rd).map (Prod.map id (Prod.map id (k + ·))) := by
  simp only [matchOperands, readLe_drop hk, Option.map_bind, Function.comp_def, Option.map_map, Nat.add_assoc,
    Prod.map, id]

theorem matchRun_drop (dsize rd : Nat) (out : List Byte) : matchRun inp dsize (k + rd) out =
    (matchRun (inp.drop k) dsize rd out).map (Except.map (Prod.map (k + ·) id)) := by
  unfold matchRun
  rw [matchOperands_drop hk]
  cases matchOperands (inp.drop k) rd with
  | none => rfl
  | some q =>
    obtain ⟨dist, len, r⟩ := q
    simp only [Option.map_some, Prod.map, id]
    split
    · rfl
    · rw [Option.map_map]
      rfl

theorem tokenRun_drop (flag dsize rd : Nat) (out : List Byte) : tokenRun flag inp dsize (k + rd) out =
    (tokenRun flag (inp.drop k) dsize rd out).map (Except.map (Prod.map (k + ·) id)) := by
  unfold tokenRun
  split
  · rw [literalRun_drop hk]
    rfl
  · exact matchRun_drop hk dsize rd out

/-- The loop reads nothing before its cursor: it decodes what follows byte `k` as a buffer of its own. -/
theorem decodeLoop_drop (dsize fuel rd : Nat) (out : List Byte) (fw fcnt : Nat) :
    decodeLoop inp dsize fuel (k + rd) out fw fcnt = decodeLoop (inp.drop k) dsize fuel rd out fw fcnt := by
  induction fuel generalizing rd out fw fcnt with
  | zero => rfl
  | succ fuel ih =>
    have hend : k + rd = inp.length ↔ rd = (inp.drop k).length := by
      rw [List.length_drop]
      omega
    simp only [decodeLoop, hend, refillIfEmpty_drop hk]
    cases refillIfEmpty (inp.drop k) rd fw fcnt with
    | none => rfl
    | some q =>
      obtain ⟨w, r, c⟩ := q
      simp only [Option.map_some, Prod.map, id, tokenRun_drop hk]
      cases tokenRun (w % 2) (inp.drop k) dsize r out with
      | none => rfl
      | some e =>
        cases e with
        | error e => rfl
        | ok p => simp only [Option.map_some, Except.map, Prod.map, id, ih]

end

/-! ## Every pass consumes a byte (R135) -/

section
variable {inp : List Byte}

theorem le_length_of_readLe {a n v : Nat} (h : readLe inp a n = some v) : a + n ≤ inp.length := by
  unfold readLe at h
  split at h
  · assumption
  · cases h

theorem le_of_refillIfEmpty {rd fw fcnt w r c : Nat} (h : refillIfEmpty inp rd fw fcnt = some (w, r, c)) : rd ≤ r := by
  unfold refillIfEmpty at h
  split at h
  · obtain ⟨_, -, hq⟩ := Option.map_eq_some_iff.1 h
    cases hq
    exact Nat.le_add_right rd 4
  · cases h
    exact le_rfl

theorem matchWidth_pos (b0 : Nat) : 0 < matchWidth b0 := by
  unfold matchWidth
  split_ifs <;> decide

theorem literalCount_progress {rd n r : Nat} (h : literalCount inp rd = some (n, r)) : rd < r ∧ r ≤ inp.length := by
  unfold literalCount at h
  split at h
  · cases h
  · obtain ⟨n', hn, hq⟩ := Option.bind_eq_some_iff.1 h
    have hle := le_length_of_readLe hn
    split at hq <;> cases hq
    omega
  · rename_i hn
    have hle := le_length_of_readLe hn
    cases h
    omega

theorem literalRun_progress {dsize rd r : Nat} {out out' : List Byte}
    (h : literalRun inp dsize rd out = .ok (r, out')) : rd < r ∧ r ≤ inp.length := by
  unfold literalRun at h
  split at h
  · cases h
  · rename_i n rd' hn
    obtain ⟨hlt, hle⟩ := literalCount_progress hn
    split at h <;> cases h
    omega

theorem matchOperands_progress {rd dist len r : Nat} (h : matchOperands inp rd = some (dist, len, r)) :
    rd < r ∧ r ≤ inp.length := by
  obtain ⟨b0, -, htoken⟩ := Option.bind_eq_some_iff.1 h
  obtain ⟨v, hv, hf⟩ := Option.bind_eq_some_iff.1 htoken
  obtain ⟨f, -, hq⟩ := Option.map_eq_some_iff.1 hf
  cases hq
  exact ⟨Nat.lt_add_of_pos_right (matchWidth_pos b0), le_length_of_readLe hv⟩

theorem matchRun_progress {dsize rd r : Nat} {out out' : List Byte}
    (h : matchRun inp dsize rd out = some (.ok (r, out'))) : rd < r ∧ r ≤ inp.length := by
  unfold matchRun at h
  split at h
  · cases h
  · rename_i hops
    split at h
    · cases h
    · obtain ⟨_, -, hq⟩ := Option.map_eq_some_iff.1 h
      cases hq
      exact matchOperands_progress hops

theorem tokenRun_progress {flag dsize rd r : Nat} {out out' : List Byte}
    (h : tokenRun flag inp dsize rd out = some (.ok (r, out'))) : rd < r ∧ r ≤ inp.length := by
  unfold tokenRun at h
  split at h
  · exact literalRun_progress (Option.some.inj h)
  · exact matchRun_progress h

/-- Any two bounds above the number of bytes left give the loop's same result. -/
theorem decodeLoop_fuel_eq {dsize fuel fuel' rd : Nat} (hrd : rd ≤ inp.length) (hf : inp.length < rd + fuel)
    (hf' : inp.length < rd + fuel') (out : List Byte) (fw fcnt : Nat) :
    decodeLoop inp dsize fuel rd out fw fcnt = decodeLoop inp dsize fuel' rd out fw fcnt := by
  induction fuel generalizing fuel' rd out fw fcnt with
  | zero => omega
  | succ fuel ih =>
    cases fuel' with
    | zero => omega
    | succ fuel' =>
      simp only [decodeLoop]
      cases hq : refillIfEmpty inp rd fw fcnt with
      | none => rfl
      | some q =>
        obtain ⟨w, r, c⟩ := q
        have hle := le_of_refillIfEmpty hq
        simp only
        cases ht : tokenRun (w % 2) inp dsize r out with
        | none => rfl
        | some e =>
          cases e with
          | error e => rfl
          | ok p =>
            obtain ⟨r', out'⟩ := p
            obtain ⟨hlt, hlen⟩ := tokenRun_progress ht
            simp only
            rw [ih (fuel' := fuel') hlen (by omega) (by omega)]

end

/-! ## The header's fields (R110 to R113, R210) -/

/-- `EXT` is bit 1 as R210 tests it. -/
theorem extBit_eq_decide (b : Byte) : extBit b = decide (b.toNat / 2 % 2 = 1) := by
  rw [extBit, BitVec.getLsbD, Nat.testBit_eq_decide_div_mod_eq, pow_one]

theorem readLe_head (b : Byte) (rest : List Byte) : readLe (b :: rest) 0 1 = some b.toNat := by
  simp [readLe, leNat]

/-- The control byte has a part in the header's fields through `EXT` alone. -/
theorem headerFields_cons (b : Byte) (rest : List Byte) : headerFields (b :: rest) =
    if rest.length + 1 < 3 then none
    else if extBit b then
      if rest.length + 1 < 9 then none
      else (readLe rest 0 4).bind fun d => (readLe rest 4 4).map fun p => (9, d, p)
    else (readLe rest 0 1).bind fun d => (readLe rest 1 1).map fun p => (3, d, p) := by
  have hread (a n : Nat) : readLe (b :: rest) (a + 1) n = readLe rest a n :=
    Nat.add_comm a 1 ▸ readLe_drop (inp := b :: rest) (k := 1) (by simp) a n
  have hext : b.toNat / 2 % 2 = 0 ↔ ¬ extBit b = true := by
    rw [extBit_eq_decide, decide_eq_true_eq]
    omega
  simp only [headerFields, List.length_cons, readLe_head, Option.bind_some, hext, ite_not, hread 0,
    hread 1, hread 4]

/-- A header that has its fields begins with the control byte and lies within the buffer (R113). -/
theorem hlen_of_headerFields {inp : List Byte} {hlen d p : Nat} (h : headerFields inp = some (hlen, d, p)) :
    0 < hlen ∧ hlen ≤ inp.length := by
  cases inp with
  | nil => cases h
  | cons b rest =>
    rw [headerFields_cons] at h
    rw [List.length_cons]
    split_ifs at h
    all_goals
      obtain ⟨_, -, hp⟩ := Option.bind_eq_some_iff.1 h
      obtain ⟨_, -, hq⟩ := Option.map_eq_some_iff.1 hp
      cases hq
      omega

/-! ## The call after its header -/

/-- What R210 does once the header's fields are known, on the payload alone. -/
def decodePayload (payload : List Byte) (allocOk : Nat → Bool) (dsize plen : Nat) :
    Option (Except ErrorKind (List Byte)) :=
  if plen ≠ payload.length then some (.error .sizeMismatch)
  else if allocOk dsize = false then some (.error .allocationFailure)
  else if dsize = 0 then some (.ok [])
  else decodeLoop payload dsize (payload.length + 1) 0 [] 0 0

/-- A call depends on its header through `DSIZE` and `PLEN` alone. -/
theorem decodeCall_of_headerFields {inp : List Byte} {hlen dsize plen : Nat}
    (h : headerFields inp = some (hlen, dsize, plen)) (allocOk : Nat → Bool) :
    decodeCall inp allocOk = decodePayload (inp.drop hlen) allocOk dsize plen := by
  obtain ⟨-, hle⟩ := hlen_of_headerFields h
  have hdrop : (inp.drop hlen).length = inp.length - hlen := List.length_drop
  have hsize : hlen + plen = inp.length ↔ plen = (inp.drop hlen).length := by omega
  have hloop : decodeLoop inp dsize (inp.length + 1) hlen [] 0 0 =
      decodeLoop (inp.drop hlen) dsize ((inp.drop hlen).length + 1) 0 [] 0 0 :=
    (decodeLoop_drop hle dsize (inp.length + 1) 0 [] 0 0).trans
      (decodeLoop_fuel_eq (Nat.zero_le _) (by omega) (by omega) [] 0 0)
  simp only [decodeCall, h, decodePayload, ne_eq, hsize, hloop]

theorem headerFields_compact {c : Byte} (hc : extBit c = false) (d p : Byte) (payload : List Byte) :
    headerFields (c :: d :: p :: payload) = some (3, d.toNat, p.toNat) := by
  simp [headerFields_cons, hc, readLe, leNat]

theorem headerFields_extended {x : Byte} (hx : extBit x = true) (d p : Byte) (payload : List Byte) :
    headerFields (x :: d :: 0#8 :: 0#8 :: 0#8 :: p :: 0#8 :: 0#8 :: 0#8 :: payload) =
      some (9, d.toNat, p.toNat) := by
  simp [headerFields_cons, hx, readLe, leNat]

/-- Settles O59: both headers declare the same sizes, and what follows them is the same payload. -/
theorem headerShapeDoesNotMatter : Obligations.HeaderShapeDoesNotMatter := by
  intro c x d p payload allocOk hc hx
  rw [decodeCall_of_headerFields (headerFields_compact hc d p payload),
    decodeCall_of_headerFields (headerFields_extended hx d p payload)]
  rfl

/-- Settles O17: the headers have the same fields, and no byte after the control byte differs. -/
theorem otherControlBitsIgnored : Obligations.OtherControlBitsIgnored := by
  intro b b' rest allocOk hext
  have hsame : headerFields (b :: rest) = headerFields (b' :: rest) := by
    rw [headerFields_cons, headerFields_cons, extBit, extBit, hext]
  cases hf : headerFields (b :: rest) with
  | none => simp only [decodeCall, hsame ▸ hf, hf]
  | some q =>
    obtain ⟨hlen, dsize, plen⟩ := q
    obtain ⟨hpos, -⟩ := hlen_of_headerFields hf
    obtain ⟨k, rfl⟩ := Nat.exists_eq_succ_of_ne_zero hpos.ne'
    rw [decodeCall_of_headerFields hf, decodeCall_of_headerFields (hsame ▸ hf)]
    rfl

end Sys2Proof.Proofs
end

section
/-!
PROOFS of the family `40_header_inspector.md`, the header step: it is the decoder on the whole buffer (R110 to R113), and
shows the host what the two inspector functions compute (R115, R116).
-/

namespace Sys2Proof.Proofs

open Sys2Proof.Machine Sys2Proof.Laws

/-! ## Runs of `IN` -/

section
variable {s : State}

/-- A run is the list of its bytes. -/
theorem readInRun_eq_some_iff {n a : Nat} {bs : List Byte} :
    readInRun s a n = some bs ↔ bs.length = n ∧ ∀ k, k < n → readIn s (a + k) = bs[k]? := by
  refine ⟨readInRun_spec, ?_⟩
  induction n generalizing a bs with
  | zero =>
    rintro ⟨hlen, -⟩
    rw [List.length_eq_zero_iff.1 hlen]
    rfl
  | succ n ih =>
    rintro ⟨hlen, hget⟩
    obtain ⟨b, tl, rfl⟩ := List.exists_cons_of_length_eq_add_one hlen
    have hb : readIn s a = some b := hget 0 n.succ_pos
    have htl : readInRun s (a + 1) n = some tl := ih ⟨Nat.succ.inj hlen, fun k hk => by
      rw [Nat.add_assoc, Nat.add_comm 1 k]
      exact hget (k + 1) (Nat.succ_lt_succ hk)⟩
    rw [readInRun, hb, htl]
    rfl

/-- Two runs end to end are one. -/
theorem readInRun_append {m n a : Nat} {xs ys : List Byte} (hx : readInRun s a m = some xs)
    (hy : readInRun s (a + m) n = some ys) : readInRun s a (m + n) = some (xs ++ ys) := by
  obtain ⟨rfl, hx⟩ := readInRun_eq_some_iff.1 hx
  obtain ⟨rfl, hy⟩ := readInRun_eq_some_iff.1 hy
  refine readInRun_eq_some_iff.2 ⟨List.length_append, fun k hk => ?_⟩
  by_cases hlt : k < xs.length
  · rw [hx k hlt, List.getElem?_append_left hlt]
  · obtain ⟨j, rfl⟩ := Nat.exists_eq_add_of_le (not_lt.1 hlt)
    rw [← Nat.add_assoc, hy j (by omega), List.getElem?_append_right (by omega), Nat.add_sub_cancel_left]

/-- A run's beginning is a run. -/
theorem readInRun_prefix {n a : Nat} {xs ys : List Byte} (h : readInRun s a n = some (xs ++ ys)) :
    readInRun s a xs.length = some xs := by
  obtain ⟨rfl, hget⟩ := readInRun_eq_some_iff.1 h
  refine readInRun_eq_some_iff.2 ⟨rfl, fun k hk => ?_⟩
  rw [hget k (by rw [List.length_append]; omega), List.getElem?_append_left hk]

/-- Four bytes with the value of a 32-bit field are the field's bytes. -/
theorem readInRun_of_inValue {a : Nat} {v : BitVec 32} (h : inValue s a 4 = some v.toNat) :
    readInRun s a 4 = some (bytes32 v) := by
  obtain ⟨bs, hbs, hv⟩ := Option.map_eq_some_iff.1 h
  obtain ⟨hlen, -⟩ := readInRun_spec hbs
  match bs, hlen with
  | [b0, b1, b2, b3], _ =>
    rw [hbs, ← bytes32_le32, BitVec.eq_of_toNat_eq ((le32_toNat b0 b1 b2 b3).trans hv)]

/-- A buffer laid out from index 0 is read as the bytes it was made of. -/
theorem readInRun_of_memOfBytes {bytes : List Byte} (hin : s.inp = memOfBytes 0 bytes)
    (hlen : s.inLen.toNat = bytes.length) : readInRun s 0 s.inLen.toNat = some bytes := by
  refine readInRun_eq_some_iff.2 ⟨hlen.symm, fun k hk => ?_⟩
  rw [readIn, if_pos (by omega), hin, memRead_memOfBytes]
  simp

/-! ## The meanings of the two headers (R111, R112) -/

/-- `CSIZE` never wraps (R8). -/
theorem loadHeader_csize_toNat (ctrl : BitVec 8) (h : BitVec 4) (dsize plen : BitVec 32) (s : State) :
    (loadHeader ctrl h dsize plen s).csize.toNat = h.toNat + plen.toNat := by
  rw [loadHeader_csize]
  bv_omega

/-- `zext_32` of a byte (R111). -/
theorem zext_toNat (n : BitVec 8) : (n.setWidth 32).toNat = n.toNat :=
  BitVec.toNat_setWidth_of_le (by decide)

theorem exec_hdrC_eq (ctrl dlen plen : BitVec 8) (h : 3 ≤ s.inLen.toNat) :
    exec (.hdrC ctrl dlen plen) s = .next (loadHeader ctrl 3#4 (dlen.setWidth 32) (plen.setWidth 32) s) :=
  if_neg (not_lt.2 h)

theorem exec_hdrX_eq (ctrl : BitVec 8) (dlen plen : BitVec 32) (h : 9 ≤ s.inLen.toNat) :
    exec (.hdrX ctrl dlen plen) s = .next (loadHeader ctrl 9#4 dlen plen s) :=
  if_neg (not_lt.2 h)

theorem exec_hdrC_short (ctrl dlen plen : BitVec 8) (h : s.inLen.toNat < 3) :
    exec (.hdrC ctrl dlen plen) s = .next (raise .malformedHeader s) :=
  if_pos h

theorem exec_hdrX_short (ctrl : BitVec 8) (dlen plen : BitVec 32) (h : s.inLen.toNat < 9) :
    exec (.hdrX ctrl dlen plen) s = .next (raise .malformedHeader s) :=
  if_pos h

theorem raisedFrom_raise (k : ErrorKind) (s : State) : raisedFrom k s (raise k s) := ⟨rfl, rfl, rfl, rfl⟩

/-- The step at a whole header, wherever it stands in the buffer's beginning (R58, R110). -/
theorem step_header_item {i : Instr} (hc : s.cmd = none) (hp : s.phase = .header) (hwf : i.WellFormed = true)
    (hctx : contextOf i = .header) (hin : readInRun s 0 (encode i).length = some (encode i))
    (hlimit : (encode i).length ≤ s.inLen.toNat) : step s = exec i s := by
  refine stepRunsDecodedItem s i hc hwf (hctx ▸ hp) (by simp [hctx]) ?_ ?_ <;> rw [hctx]
  · exact hin
  · exact (Nat.zero_add _).trans_le hlimit

end

/-- Settles O12: the compact header's three bytes are its encoding. -/
theorem compactHeaderLoads : Obligations.CompactHeaderLoads := by
  intro ctrl dlen plen s
  refine ⟨fun h => ?loads, fun h => ⟨_, exec_hdrC_short ctrl dlen plen h, raisedFrom_raise _ s⟩, ?step⟩
  case loads =>
    refine ⟨_, exec_hdrC_eq ctrl dlen plen h, rfl, rfl, zext_toNat dlen, zext_toNat plen, ?_, rfl, rfl⟩
    rw [loadHeader_csize_toNat, zext_toNat]
    rfl
  case step =>
    intro hc hp h h0 h1 h2 hext
    have hin : readInRun s 0 3 = some [ctrl, dlen, plen] := by simp [readInRun, h0, h1, h2]
    exact step_header_item hc hp ((hdrC_wellFormed_iff ctrl dlen plen).2 hext) rfl hin h

/-- Settles O13: the extended header's nine bytes are its encoding, the control byte before two fields of four. -/
theorem extendedHeaderLoads : Obligations.ExtendedHeaderLoads := by
  intro ctrl dlen plen s
  refine ⟨fun h => ?loads, fun h => ⟨_, exec_hdrX_short ctrl dlen plen h, raisedFrom_raise _ s⟩, ?step⟩
  case loads =>
    exact ⟨_, exec_hdrX_eq ctrl dlen plen h, rfl, rfl, rfl, rfl, loadHeader_csize_toNat ctrl 9#4 dlen plen s, rfl, rfl⟩
  case step =>
    intro hc hp h h0 hd hpl hext
    have hctrl : readInRun s 0 1 = some [ctrl] := by simp [readInRun, h0]
    have hin : readInRun s 0 9 = some (encode (.hdrX ctrl dlen plen)) :=
      readInRun_append hctrl (readInRun_append (readInRun_of_inValue hd) (readInRun_of_inValue hpl))
    exact step_header_item hc hp hext rfl hin h

/-! ## The header step is the decoder on the whole buffer -/

section
variable {s : State} {bytes : List Byte}

/-- The fetch of an item that the limit cuts short (R94, R113). -/
theorem fetch_eq_cut {c : Context} {b0 : Byte} (hb : readIn s (itemStart c s) = some b0)
    (hcut : readLimit c s < itemStart c s + itemWidth c b0) :
    fetch c s = .answer (.next (raise (cutKind c) s)) := by
  unfold fetch
  split
  · rfl
  · simp only [hb, if_pos hcut]

/-- The fetch of an item that has not even the bytes its width is decided from. -/
theorem fetch_eq_cut_first {c : Context} (hcut : readLimit c s < itemStart c s + firstWidth c) :
    fetch c s = .answer (.next (raise (cutKind c) s)) :=
  if_pos hcut

/-- Where the whole buffer decodes to a header, the step runs it. -/
theorem step_of_decode_ok {i : Instr} {rest : List Byte} (hc : s.cmd = none) (hp : s.phase = .header)
    (hin : readInRun s 0 s.inLen.toNat = some bytes) (h : decode .header bytes = .ok (i, rest)) :
    step s = exec i s := by
  obtain ⟨hwf, hctx, rfl⟩ := decode_eq_ok_iff.1 h
  obtain ⟨hlen, -⟩ := readInRun_spec hin
  exact step_header_item hc hp hwf hctx (readInRun_prefix hin) (by rw [List.length_append] at hlen; omega)

/-- Where it does not, the step raises `MalformedHeader`. -/
theorem step_of_decode_error {e : DecodeError} (hc : s.cmd = none) (hp : s.phase = .header)
    (hin : readInRun s 0 s.inLen.toNat = some bytes) (h : decode .header bytes = .error e) :
    step s = .next (raise .malformedHeader s) := by
  obtain ⟨hlen, hget⟩ := readInRun_spec hin
  have hfetch : fetch .header s = .answer (.next (raise .malformedHeader s)) := by
    obtain hcut | ⟨b0, tl, rfl, hcut⟩ := (decoderRefusesOnlyCutItems .header bytes).1 ⟨e, h⟩
    · exact fetch_eq_cut_first (c := .header) (by simpa only [readLimit, itemStart, Nat.zero_add, ← hlen] using hcut)
    · have hb : readIn s 0 = some b0 := hget 0 (by rw [← hlen]; exact Nat.succ_pos _)
      exact fetch_eq_cut (c := .header) hb (by simpa only [readLimit, itemStart, Nat.zero_add, ← hlen] using hcut)
  rw [step_due (c := .header) hc hp (by simp), hfetch]

/-- The two items that are headers. -/
theorem header_cases {i : Instr} (h : contextOf i = .header) :
    (∃ ctrl dlen plen, i = .hdrC ctrl dlen plen) ∨ (∃ ctrl dlen plen, i = .hdrX ctrl dlen plen) := by
  cases i with
  | hdrC ctrl dlen plen => exact .inl ⟨ctrl, dlen, plen, rfl⟩
  | hdrX ctrl dlen plen => exact .inr ⟨ctrl, dlen, plen, rfl⟩
  | flagw | litS | litL | m1 | m2a | m2b | m3Rsvd | m3 => cases h

end

/-! ## The inspector functions on a header and what follows it (R115, R116) -/

section
variable (rest : List Byte)

theorem compressedSize_hdrC {ctrl : Byte} (hext : extBit ctrl = false) (dlen plen : Byte) :
    compressedSize (encode (.hdrC ctrl dlen plen) ++ rest) = some (3 + plen.toNat) := by
  simp [encode, compressedSize, hext]

theorem decompressedSize_hdrC {ctrl : Byte} (hext : extBit ctrl = false) (dlen plen : Byte) :
    decompressedSize (encode (.hdrC ctrl dlen plen) ++ rest) = some dlen.toNat := by
  simp [encode, decompressedSize, hext]

theorem compressedSize_hdrX {ctrl : Byte} (hext : extBit ctrl = true) (dlen plen : BitVec 32) :
    compressedSize (encode (.hdrX ctrl dlen plen) ++ rest) = some (9 + plen.toNat) := by
  simp [encode, bytes32, compressedSize, hext]

theorem decompressedSize_hdrX {ctrl : Byte} (hext : extBit ctrl = true) (dlen plen : BitVec 32) :
    decompressedSize (encode (.hdrX ctrl dlen plen) ++ rest) = some dlen.toNat := by
  simp [encode, bytes32, decompressedSize, hext]

end

/-- Where the decoder refuses the header, both fail (R113, R115). -/
theorem inspector_eq_none_of_decode_error {bytes : List Byte} {e : DecodeError}
    (h : decode .header bytes = .error e) : compressedSize bytes = none ∧ decompressedSize bytes = none := by
  simp only [decode] at h
  unfold decodeHeader at h
  split at h
  · rename_i b0 b1 b2 rest
    split at h
    · rename_i hext
      split at h
      · cases h
      · simp only [compressedSize, decompressedSize, hext, if_true, and_self]
    · cases h
  · simp only [compressedSize, decompressedSize, and_self]

/-- Settles O16: a whole header decodes, so it is the encoding of a header item, and both functions take its fields. -/
theorem inspectorReadsHeaderOnly : Obligations.InspectorReadsHeaderOnly := by
  intro hdr payload payload' b0 hhead hlen
  obtain ⟨tl, rfl⟩ : ∃ tl, hdr = b0 :: tl := ⟨hdr.tail, List.eq_cons_of_mem_head? hhead⟩
  obtain ⟨i, hi, hwf, hctx⟩ := decode_of_width hlen
  obtain ⟨-, -, henc⟩ := decode_eq_ok_iff.1 hi
  rw [henc, List.append_nil]
  obtain ⟨ctrl, dlen, plen, rfl⟩ | ⟨ctrl, dlen, plen, rfl⟩ := header_cases hctx
  · have hext := (hdrC_wellFormed_iff ctrl dlen plen).1 hwf
    simp only [compressedSize_hdrC _ hext, decompressedSize_hdrC _ hext, and_self]
  · have hext : extBit ctrl = true := hwf
    simp only [compressedSize_hdrX _ hext, decompressedSize_hdrX _ hext, and_self]

/-! ## The header step, said once -/

/-- A whole header is loaded, with the values of the two inspector functions (R115, R201). -/
theorem step_header_loads {s : State} {bytes rest : List Byte} {i : Instr} (hc : s.cmd = none) (hp : s.phase = .header)
    (hin : readInRun s 0 s.inLen.toNat = some bytes) (h : decode .header bytes = .ok (i, rest)) :
    ∃ t, step s = .next t ∧ t.phase = .sizechk ∧ compressedSize bytes = some t.csize.toNat ∧
      decompressedSize bytes = some t.dsize.toNat := by
  rw [step_of_decode_ok hc hp hin h]
  obtain ⟨hwf, hctx, rfl⟩ := decode_eq_ok_iff.1 h
  obtain ⟨hlen, -⟩ := readInRun_spec hin
  rw [List.length_append] at hlen
  obtain ⟨ctrl, dlen, plen, rfl⟩ | ⟨ctrl, dlen, plen, rfl⟩ := header_cases hctx
  · have hext := (hdrC_wellFormed_iff ctrl dlen plen).1 hwf
    have hwidth : 3 ≤ s.inLen.toNat := (Nat.le_add_right _ _).trans_eq hlen
    refine ⟨_, exec_hdrC_eq ctrl dlen plen hwidth, rfl, ?_, ?_⟩
    · rw [compressedSize_hdrC rest hext, loadHeader_csize_toNat, zext_toNat]
      rfl
    · rw [decompressedSize_hdrC rest hext, loadHeader_dsize, zext_toNat]
  · have hext : extBit ctrl = true := hwf
    have hwidth : 9 ≤ s.inLen.toNat := (Nat.le_add_right _ _).trans_eq hlen
    refine ⟨_, exec_hdrX_eq ctrl dlen plen hwidth, rfl, ?_, ?_⟩
    · rw [compressedSize_hdrX rest hext, loadHeader_csize_toNat]
      rfl
    · rw [decompressedSize_hdrX rest hext, loadHeader_dsize]

/-- Settles O15: where the decoder takes the buffer, the sizes are those of the header that is loaded; where it refuses,
the step raises and both functions fail. -/
theorem headerStepIsInspector : Obligations.HeaderStepIsInspector := by
  intro s bytes hc hp hmem hlen
  have hin := readInRun_of_memOfBytes hmem hlen
  cases hd : decode .header bytes with
  | ok q =>
    obtain ⟨t, ht, hpt, hcs, hds⟩ := step_header_loads hc hp hin hd
    refine ⟨t, ht, ?_, ?_, ?_⟩
    · simp [hostCompressedSize, headerRead, hpt, hcs]
    · simp [hostDecompressedSize, headerRead, hpt, hds]
    · simp [hpt, hcs]
  | error e =>
    obtain ⟨hcs, hds⟩ := inspector_eq_none_of_decode_error hd
    refine ⟨_, step_of_decode_error hc hp hin hd, ?_, ?_, ?_⟩
    · rw [hcs]
      rfl
    · rw [hds]
      rfl
    · exact iff_of_true rfl hcs

/-- R113's two conditions are the decoder's refusal of the whole buffer. -/
theorem headerCut_iff {s : State} {bytes : List Byte} (hin : readInRun s 0 s.inLen.toNat = some bytes) :
    (s.inLen.toNat < 3 ∨ (s.inLen.toNat < 9 ∧ ∃ b0, readIn s 0 = some b0 ∧ extBit b0 = true)) ↔
      ∃ e, decode .header bytes = .error e := by
  obtain ⟨hlen, hget⟩ := readInRun_spec hin
  rw [decoderRefusesOnlyCutItems .header bytes, hlen]
  cases bytes with
  | nil =>
    rw [← hlen]
    simp [firstWidth]
  | cons b0 tl =>
    have hb : readIn s 0 = some b0 := hget 0 (by rw [← hlen]; exact Nat.succ_pos _)
    cases hext : extBit b0 <;> simp [hb, itemWidth, hext, firstWidth]

/-- Settles O14: in phase `HEADER` the decoder decides; the other phases raise other kinds. -/
theorem malformedHeaderExactly : Obligations.MalformedHeaderExactly := by
  constructor
  · intro s hc hp hfilled
    obtain ⟨bytes, hin⟩ := readInRun_of_filled hfilled (Nat.zero_add s.inLen.toNat).le
    have hcut := headerCut_iff hin
    constructor
    · intro hshort
      obtain ⟨e, he⟩ := hcut.1 hshort
      exact ⟨_, step_of_decode_error hc hp hin he, raisedFrom_raise _ s⟩
    · intro hwhole
      cases hd : decode .header bytes with
      | error e => exact absurd (hcut.2 ⟨e, hd⟩) hwhole
      | ok q =>
        obtain ⟨t, ht, hpt, -, -⟩ := step_header_loads hc hp hin hd
        exact ⟨t, ht, hpt⟩
  · intro s t h hs ht hcode
    have hphases := eachCodeFromItsPhases s t h hs ht
    simpa [hcode] using hphases

end Sys2Proof.Proofs
end

section
/-!
PROOFS of the family `41_token_loop_flag_word.md`: the loop test, the flag word and the flag bit (R131 to R133), items
that `CSIZE` cuts short (R224), and the bound on the steps of a call (R135).
-/

namespace Sys2Proof.Proofs

open Sys2Proof.Machine Sys2Proof.Laws

/-! ## The end of a call (R135) -/

section
variable {s : State}

/-- In the loop no more of `IN` is left than the host presented (R202). -/
theorem CursorInv.inputLeft_le (h : CursorInv s) : inputLeft s ≤ s.inLen.toNat := by
  rw [inputLeft, h.csize]
  exact Nat.sub_le _ _

/-- No more of `OUT` is left than `DSIZE`, which has 32 bits. -/
theorem outputLeft_lt (s : State) : outputLeft s < 2 ^ 32 :=
  (Nat.sub_le _ _).trans_lt s.dsize.isLt

/-- Within the invariant `stepsLeft` has a bound that depends on the input's length only. -/
theorem stepsLeft_le (hs : CallInv s) : stepsLeft s ≤ 4 * s.inLen.toNat + 2 ^ 32 + 5 := by
  have hout := outputLeft_lt s
  cases hp : s.phase with
  | idle | header | sizechk | alloc | final | done =>
    simp only [stepsLeft_eq hp, stepsLeftIn]
    omega
  | loop | flag | litdec | litcopy | matchdec | matchcopy =>
    obtain ⟨-, -, hcur, -⟩ := (callInv_loop_iff hp rfl).1 hs
    have hin := hcur.inputLeft_le
    simp only [stepsLeft_eq hp, stepsLeftIn]
    omega

end

/-- Settles O53: a call takes at most `stepsLeft` steps. -/
theorem everyCallEnds : Obligations.EveryCallEnds := by
  intro s hs hcall
  obtain ⟨k, t, hk, hrun, hdone⟩ := calling_reaches_done s hs hcall
  exact ⟨k, t, hk.trans (stepsLeft_le hs), hrun, hdone⟩

/-! ## Items that are cut short (R132, R150, R151, R165) -/

section
variable {c : Context} {s : State}

/-- The step at an item that has not even the bytes its width is decided from. -/
theorem step_cut_first (hc : s.cmd = none) (hp : s.phase = duePhase c) (hf : c = .flagWord → s.fcnt = 0#6)
    (hcut : readLimit c s < itemStart c s + firstWidth c) : step s = .next (raise (cutKind c) s) := by
  rw [step_due hc hp hf, fetch_eq_cut_first hcut]

/-- The step at an item that the limit cuts short. -/
theorem step_cut {b0 : Byte} (hc : s.cmd = none) (hp : s.phase = duePhase c) (hf : c = .flagWord → s.fcnt = 0#6)
    (hb : readIn s (itemStart c s) = some b0) (hcut : readLimit c s < itemStart c s + itemWidth c b0) :
    step s = .next (raise (cutKind c) s) := by
  rw [step_due hc hp hf, fetch_eq_cut hb hcut]

end

/-- The decoder's width of a match token is R165's `[1, 2, 2, 3][sel]`. -/
theorem itemWidth_backref (b0 : Byte) : itemWidth .backref b0 = matchWidth b0.toNat := by
  simp only [itemWidth, matchWidth, selector_eq_iff, BitVec.toNat_ofNat]

/-- Settles O10: the flag word, the count byte and the first match byte are missing before the width is known, the long
count and the match token after it. -/
theorem cutItemRaises : Obligations.CutItemRaises := by
  intro s hc hcut
  suffices h : step s = .next (raise .streamCorruption s) from ⟨_, h, raisedFrom_raise _ s, rfl, rfl⟩
  obtain ⟨hp, hf, hcut⟩ | ⟨hp, hcut⟩ | ⟨hp, hb, hcut⟩ | ⟨hp, hcut⟩ | ⟨hp, b0, hb, hcut⟩ := hcut
  · exact step_cut_first (c := .flagWord) hc hp (fun _ => hf) hcut
  · exact step_cut_first (c := .literal) hc hp nofun hcut
  · exact step_cut (c := .literal) hc hp nofun hb hcut
  · exact step_cut_first (c := .backref) hc hp nofun hcut
  · exact step_cut (c := .backref) hc hp nofun hb (by rwa [itemWidth_backref])

/-! ## The flag word (R132) -/

section
variable {s t : State}

theorem exec_flagw_eq (w : BitVec 32) (h : s.rd.toNat + 4 ≤ s.csize.toNat) :
    exec (.flagw w) s = .next (refillFlags w s) :=
  if_neg (fun hshort => not_lt.2 h ((inputShort_iff 4 s).1 hshort))

theorem exec_flagw_short (w : BitVec 32) (h : s.csize.toNat < s.rd.toNat + 4) :
    exec (.flagw w) s = .next (raise .streamCorruption s) :=
  if_pos ((inputShort_iff 4 s).2 h)

/-- Where `CSIZE` is the input's length, bytes that it covers do not take `RD` beyond 32 bits (R212). -/
theorem advance_rd_toNat (hsize : s.csize.toNat = s.inLen.toNat) {w : Nat} (hw : s.rd.toNat + w ≤ s.csize.toNat) :
    (advance w s).rd.toNat = s.rd.toNat + w := by
  have hlt := s.inLen.isLt
  rw [advance_rd, BitVec.toNat_add, BitVec.toNat_ofNat, Nat.add_mod_mod, Nat.mod_eq_of_lt (by omega)]

/-- A consumed flag bit takes 1 from `FCNT` (R133). -/
theorem consumeFlag_fcnt_toNat (hf : 0 < s.fcnt.toNat) : (consumeFlag s).fcnt.toNat = s.fcnt.toNat - 1 :=
  consumeFlag_iterate_fcnt s (k := 1) hf

/-- The refill is lazy: in the loop `FCNT` grows where a token is due and no flag bit is left, and nowhere else. -/
theorem fcnt_grows_only_at_refill (hl : inLoop s.phase = true) (h : step s = .next t)
    (hgrow : s.fcnt.toNat < t.fcnt.toNat) : s.phase = .flag ∧ s.fcnt = 0#6 := by
  cases step_move h
  case refilled hp hf _ _ _ => exact ⟨hp, hf⟩
  case entered hp _ _ => simp [hp, inLoop] at hl
  case consumed hf ht =>
    rw [ht, consumeFlag_fcnt_toNat (one_le_toNat hf)] at hgrow
    omega
  all_goals
    subst t
    exact absurd hgrow (lt_irrefl _)

end

/-- Settles O19: the two branches of the meaning, the step at the word's four bytes, and `fcnt_grows_only_at_refill`. -/
theorem flagWordRefills : Obligations.FlagWordRefills := by
  refine ⟨fun w s hsize => ⟨fun h => ?loads, fun h => ⟨_, exec_flagw_short w h, raisedFrom_raise _ s⟩, ?step⟩,
    fun s t => fcnt_grows_only_at_refill⟩
  case loads => exact ⟨_, exec_flagw_eq w h, rfl, advance_rd_toNat hsize h, rfl, rfl⟩
  case step =>
    intro hc hp hf h hv
    exact stepRunsDecodedItem s (.flagw w) hc rfl hp (fun _ => hf) (readInRun_of_inValue hv) h

/-! ## The loop test (R131) and the flag bit (R133) -/

section
variable {s : State}

theorem step_loop (hc : s.cmd = none) (hp : s.phase = .loop) : step s = .next (loopTest s) := by
  rw [step_of_no_command hc, phaseAction, hp]

theorem loopTest_of_eq (h : s.wr = s.dsize) : loopTest s = setPhase .final s := if_pos h

theorem loopTest_of_ne (h : s.wr ≠ s.dsize) : loopTest s = setPhase .flag s := if_neg h

theorem step_flagBit (hc : s.cmd = none) (hp : s.phase = .flag) (hf : s.fcnt ≠ 0#6) :
    step s = .next (consumeFlag s) := by
  rw [step_of_no_command hc, phaseAction, hp]
  simp only [if_neg hf]

/-- The flag that is consumed is the parity of `FW`, and it selects the phase (R85). -/
theorem consumeFlag_phase_eq_ite (s : State) :
    (consumeFlag s).phase = if s.fw.toNat % 2 = 1 then .matchdec else .litdec := by
  have hbit : s.fw.getLsbD 0 = decide (s.fw.toNat % 2 = 1) := Nat.testBit_zero _
  simp only [consumeFlag_phase, flagPhase, hbit, decide_eq_true_eq]

end

/-- Settles O18, by the two answers of the loop test. -/
theorem loopTestDecides : Obligations.LoopTestDecides := by
  intro s hc hp
  refine ⟨_, step_loop hc hp, ?_⟩
  by_cases h : s.wr = s.dsize
  · rw [loopTest_of_eq h]
    exact ⟨fun _ => rfl, fun hne => absurd h hne, rfl⟩
  · rw [loopTest_of_ne h]
    exact ⟨fun heq => absurd heq h, fun _ => rfl, rfl⟩

/-- Settles O20: the step consumes a flag, and the parity of `FW` is the flag. -/
theorem flagBitDispatches : Obligations.FlagBitDispatches := by
  intro s hc hp hpos
  have hf : s.fcnt ≠ 0#6 := by
    intro h0
    simp [h0] at hpos
  refine ⟨_, step_flagBit hc hp hf, ?_, consumeFlag_fcnt_toNat hpos, fun heven => ?_, fun hodd => ?_, rfl⟩
  · rw [consumeFlag_fw, BitVec.toNat_ushiftRight, Nat.shiftRight_one]
  · rw [consumeFlag_phase_eq_ite, if_neg (by omega)]
  · rw [consumeFlag_phase_eq_ite, if_pos hodd]

end Sys2Proof.Proofs
end

section
/-!
PROOFS of the family `42_literal_run.md`: the count fields and the bound checks (R150 to R152), one byte of the copy
(R153), and the run as a whole.
-/

namespace Sys2Proof.Proofs

open Sys2Proof.Machine Sys2Proof.Laws

/-! ## The count field and the bound checks (R150 to R152) -/

section
variable {s : State} {i : Instr} {w n : Nat}

/-- The two forms of a literal run. -/
theorem literalForm_cases (h : literalForm i = some (w, n)) :
    (∃ c : BitVec 8, i = .litS c ∧ w = 1 ∧ n = c.toNat) ∨ (∃ c : BitVec 32, i = .litL c ∧ w = 5 ∧ n = c.toNat) := by
  cases i <;> simp only [literalForm, Option.some.injEq, Prod.mk.injEq, reduceCtorEq] at h
  case litS c => exact .inl ⟨c, rfl, h.1.symm, h.2.symm⟩
  case litL c => exact .inr ⟨c, rfl, h.1.symm, h.2.symm⟩

/-- A count field that is cut short raises (R150, R151). -/
theorem exec_literal_short (h : literalForm i = some (w, n)) (hcut : s.csize.toNat < s.rd.toNat + w) :
    exec i s = .next (raise .streamCorruption s) := by
  have hshort := (inputShort_iff w s).2 hcut
  obtain ⟨c, rfl, rfl, -⟩ | ⟨c, rfl, rfl, -⟩ := literalForm_cases h
  · exact if_pos hshort
  · exact if_pos hshort

/-- A whole count field with a count that is not 0 goes on with R152, `RD` past the field. -/
theorem exec_literal_eq (h : literalForm i = some (w, n)) (hn : n ≠ 0) (hin : s.rd.toNat + w ≤ s.csize.toNat) :
    ∃ c : BitVec 32, c.toNat = n ∧ exec i s = .next (startLiteral c (advance w s)) := by
  have hwhole : ¬ inputShort w s = true := fun hshort => not_lt.2 hin ((inputShort_iff w s).1 hshort)
  obtain ⟨c, rfl, rfl, rfl⟩ | ⟨c, rfl, rfl, rfl⟩ := literalForm_cases h
  · exact ⟨shortCount c, zext_toNat c, if_neg hwhole⟩
  · have hc : c ≠ 0#32 := fun h0 => hn (by rw [h0]; rfl)
    exact ⟨c, rfl, (if_neg hwhole).trans (if_neg hc)⟩

/-- A long count of 0 raises, whole or cut short (R94, R151). -/
theorem exec_litL_zero (s : State) : ∃ t, exec (.litL 0#32) s = .next t ∧ raisedFrom .streamCorruption s t := by
  by_cases hshort : inputShort 5 s = true
  · exact ⟨_, if_pos hshort, raisedFrom_raise _ s⟩
  · exact ⟨raise .streamCorruption (advance 5 s), (if_neg hshort).trans (if_pos rfl), rfl, rfl, rfl, rfl⟩

/-- What is left of the input behind a count field that `CSIZE` covers. -/
theorem inputLeft_advance (hsize : s.csize.toNat = s.inLen.toNat) (hin : s.rd.toNat + w ≤ s.csize.toNat) :
    inputLeft (advance w s) = s.csize.toNat - (s.rd.toNat + w) := by
  rw [inputLeft, advance_csize, advance_rd_toNat hsize hin]

end

/-- Settles O24: both forms come to `startLiteral` behind their count field, and it has two outcomes. -/
theorem literalChecksDecide : Obligations.LiteralChecksDecide := by
  intro i w n s hform hn hsize hin
  obtain ⟨c, rfl, hexec⟩ := exec_literal_eq hform hn hin
  have hleft := inputLeft_advance hsize hin
  have hroom : outputLeft (advance w s) = s.dsize.toNat - s.wr.toNat := rfl
  obtain ⟨hout, hinp, hstart⟩ | ⟨hover, hstart⟩ := startLiteral_cases c (advance w s) <;> rw [hstart] at hexec
  · exact ⟨fun hover => by omega, fun _ _ => ⟨_, hexec, rfl, advance_rd_toNat hsize hin, rfl, rfl⟩⟩
  · exact ⟨fun _ => ⟨_, hexec, rfl, rfl, rfl, rfl⟩, fun hout hinp => by omega⟩

/-- Settles O22: the checks are those of both forms, and the count byte is the item's encoding. -/
theorem shortLiteralStarts : Obligations.ShortLiteralStarts := by
  intro n s hsize hn
  refine ⟨fun hcut => ⟨_, exec_literal_short rfl hcut, raisedFrom_raise _ s⟩, fun hin => ?starts, ?step⟩
  case starts => exact (literalChecksDecide (.litS n) 1 n.toNat s rfl hn hsize hin).2
  case step =>
    intro hc hp hin hb
    have hwf : (Instr.litS n).WellFormed = true := (litS_wellFormed_iff n).2 (fun h0 => hn (by rw [h0]; rfl))
    have hrun : readInRun s s.rd.toNat 1 = some (encode (.litS n)) := by simp [readInRun, hb, encode]
    exact stepRunsDecodedItem s (.litS n) hc hwf hp nofun hrun hin

/-- Settles O23: the checks are those of both forms, and the sentinel with the four count bytes is the item's
encoding. -/
theorem longLiteralStarts : Obligations.LongLiteralStarts := by
  intro n s hsize
  refine ⟨fun hcut => ⟨_, exec_literal_short rfl hcut, raisedFrom_raise _ s⟩, fun h0 => ?zero,
    fun hin hn => ?starts, ?step⟩
  case zero =>
    obtain rfl : n = 0#32 := BitVec.eq_of_toNat_eq h0
    exact exec_litL_zero s
  case starts => exact (literalChecksDecide (.litL n) 5 n.toNat s rfl hn hsize hin).2
  case step =>
    intro hc hp hin hb hv
    have hsentinel : readInRun s s.rd.toNat 1 = some [0#8] := by simp [readInRun, hb]
    have hrun : readInRun s s.rd.toNat 5 = some (encode (.litL n)) :=
      readInRun_append hsentinel (readInRun_of_inValue hv)
    exact stepRunsDecodedItem s (.litL n) hc rfl hp nofun hrun hin

/-! ## One byte of the copy (R153) -/

section
variable {s : State}

/-- The literal copy step where its byte of `IN` and its place in `OUT` are there. -/
theorem step_literalCopy {m : Memory} {b : Byte} (hc : s.cmd = none) (hp : s.phase = .litcopy) (hm : s.out = some m)
    (hcnt : 1 ≤ s.cnt.toNat) (hb : readIn s s.rd.toNat = some b) (hw : s.wr.toNat < s.dsize.toNat) :
    step s = .next (byteDone (memWrite m s.wr.toNat b) (advance 1 s)) := by
  rw [step_of_no_command hc, phaseAction, hp]
  simp only [literalCopyStep, if_neg (cnt_ne_zero hcnt), hb]
  exact putByte_eq (s := advance 1 s) hm hw b

/-- The copy is complete with the last byte, and goes on in its phase before it. -/
theorem byteDone_phase_eq_ite (m : Memory) (hcnt : 1 ≤ s.cnt.toNat) :
    (byteDone m s).phase = if s.cnt.toNat = 1 then .loop else s.phase := by
  have hlast : s.cnt - 1#32 = 0#32 ↔ s.cnt.toNat = 1 := by bv_omega
  rw [byteDone_phase, if_congr hlast rfl rfl]

/-- A byte of `IN` that exists lies below `2^32 - 1`, so `RD` does not wrap behind it (R212). -/
theorem rd_succ {b : Byte} (hb : readIn s s.rd.toNat = some b) : (s.rd + 1#32).toNat = s.rd.toNat + 1 := by
  have hlt := readIn_lt hb
  bv_omega

end

/-- Settles O25: the step is `byteDone` with the byte at `RD` written at `WR`. -/
theorem literalCopyMovesOneByte : Obligations.LiteralCopyMovesOneByte := by
  intro s b hc hp hout hcnt hb hw
  obtain ⟨m, hm⟩ := Option.isSome_iff_exists.1 hout
  have hphase := byteDone_phase_eq_ite (s := advance 1 s) (memWrite m s.wr.toNat b) hcnt
  refine ⟨_, step_literalCopy hc hp hm hcnt hb hw, memRead_memWrite_same m _ b, rd_succ hb, wr_succ hw,
    cnt_pred hcnt, fun hlast => hphase.trans (if_pos hlast), fun hmore => (hphase.trans (if_neg hmore)).trans hp,
    fun a ha => ?others, rfl⟩
  case others =>
    rw [outByte, outByte, hm]
    exact memRead_memWrite_other m b ha

/-! ## The run as a whole (R153) -/

/-- `t` is `s` after `k` bytes of a literal run have been copied: both cursors are past them, `OUT` holds them in order
behind what it held, and nothing but the copy's own registers has moved. -/
structure LiteralCopied (k : Nat) (s t : State) : Prop where
  rd : t.rd.toNat = s.rd.toNat + k
  wr : t.wr.toNat = s.wr.toNat + k
  copied : ∀ i, i < k → outByte t (s.wr.toNat + i) = readIn s (s.rd.toNat + i)
  kept : ∀ a, a < s.wr.toNat → outByte t a = outByte s a
  frame : t = { s with out := t.out, rd := t.rd, wr := t.wr, cnt := t.cnt, phase := t.phase }

section
variable {s r t : State}

/-- The copy does not touch `IN`. -/
theorem LiteralCopied.readIn_eq {k : Nat} (h : LiteralCopied k s t) : readIn t = readIn s := by
  rw [h.frame]
  rfl

/-- Two copies one after the other are one. -/
theorem LiteralCopied.trans {j k : Nat} (h : LiteralCopied j s r) (h' : LiteralCopied k r t) :
    LiteralCopied (j + k) s t where
  rd := by rw [h'.rd, h.rd, Nat.add_assoc]
  wr := by rw [h'.wr, h.wr, Nat.add_assoc]
  copied i hi := by
    by_cases hlt : i < j
    · rw [h'.kept _ (by rw [h.wr]; omega), h.copied i hlt]
    · obtain ⟨l, rfl⟩ := Nat.exists_eq_add_of_le (not_lt.1 hlt)
      rw [← Nat.add_assoc, ← Nat.add_assoc, ← h.wr, ← h.rd, h'.copied l (by omega), h.readIn_eq]
  kept a ha := by rw [h'.kept a (by rw [h.wr]; omega), h.kept a ha]
  frame := h'.frame.trans (by rw [h.frame])

/-- One step of a literal copy within the invariant: a byte is copied, and the phase is left with the last one. -/
theorem step_copies_literal (hs : CallInv s) (hc : s.cmd = none) (hp : s.phase = .litcopy) :
    ∃ t, step s = .next t ∧ LiteralCopied 1 s t ∧ t.cnt.toNat = s.cnt.toNat - 1 ∧
      (s.cnt.toNat = 1 → t.phase = .loop) ∧ (s.cnt.toNat ≠ 1 → t.phase = .litcopy) := by
  obtain ⟨hin, -, hcur, hcnt, hroom, hleft⟩ := (callInv_loop_iff hp rfl).1 hs
  have hsize := hcur.csize
  obtain ⟨m, hm, -⟩ := outFilled_iff.1 hcur.out_filled
  obtain ⟨b, hb⟩ := readIn_of_filled hin (show s.rd.toNat < s.inLen.toNat by omega)
  obtain ⟨t, hstep, hbyte, hrd, hwr, hpred, hlast, hmore, hothers, hframe⟩ :=
    literalCopyMovesOneByte s b hc hp (by rw [hm]; rfl) hcnt hb (by omega)
  refine ⟨t, hstep, ⟨hrd, hwr, fun i hi => ?copied, fun a ha => hothers a ha.ne, hframe⟩, hpred, hlast, hmore⟩
  obtain rfl : i = 0 := Nat.lt_one_iff.1 hi
  exact hbyte.trans hb.symm

/-- By induction on the bytes that are still to come after the first: the steps copy them all and go back to `LOOP`. -/
theorem steps_copy_literal (k : Nat) (hs : CallInv s) (hc : s.cmd = none) (hp : s.phase = .litcopy)
    (hk : s.cnt.toNat = k + 1) :
    ∃ t, steps (k + 1) s = .next t ∧ LiteralCopied (k + 1) s t ∧ t.cnt.toNat = 0 ∧ t.phase = .loop := by
  induction k generalizing s with
  | zero =>
    obtain ⟨t, hstep, hcopied, hpred, hlast, -⟩ := step_copies_literal hs hc hp
    exact ⟨t, (steps_succ_iff 0).2 ⟨t, hstep, rfl⟩, hcopied, by omega, hlast hk⟩
  | succ k ih =>
    obtain ⟨r, hstep, hcopied, hpred, -, hmore⟩ := step_copies_literal hs hc hp
    have hcr : r.cmd = none := by rw [hcopied.frame]; exact hc
    obtain ⟨t, hrun, hrest, hzero, hloop⟩ := ih (stepKeepsCallInv s r hs hstep) hcr (hmore (by omega)) (by omega)
    exact ⟨t, (steps_succ_iff _).2 ⟨r, hstep, hrun⟩, Nat.add_comm 1 (k + 1) ▸ hcopied.trans hrest, hzero, hloop⟩

/-- A read of `OUT` below `WR` (R17). -/
theorem readOut_of_lt {a : Nat} (ha : a < s.wr.toNat) : readOut s a = outByte s a := by
  cases hm : s.out with
  | none => simp only [readOut, outByte, hm]
  | some m => simp only [readOut, outByte, hm, if_pos ha]

end

/-- Settles O26: `steps_copy_literal`, with what `OUT` holds read below `WR`. -/
theorem literalRunCopies : Obligations.LiteralRunCopies := by
  intro s hs hc hp
  obtain ⟨-, -, -, hcnt, -, -⟩ := (callInv_loop_iff hp rfl).1 hs
  obtain ⟨k, hk⟩ := Nat.exists_eq_add_of_le' hcnt
  obtain ⟨t, hrun, h, hzero, hloop⟩ := steps_copy_literal k hs hc hp hk
  rw [← hk] at hrun h
  have hwr := h.wr
  refine ⟨t, hrun, hloop, hzero, h.rd, hwr, fun i hi => ?_, fun a ha => ?_, h.frame⟩
  · rw [readOut_of_lt (by omega), h.copied i hi]
  · rw [readOut_of_lt (by omega), readOut_of_lt ha, h.kept a ha]

end Sys2Proof.Proofs
end

section
/-!
PROOFS of the family `43_match_token.md`: the checks of a match token and the start of its copy (R165 to R171), and the
reserved pattern (R172).
-/

namespace Sys2Proof.Proofs

open Sys2Proof.Machine Sys2Proof.Laws

/-! ## The checks of a match token (R165, R170, R171) -/

/-- A distance field of at most 17 bits keeps its value in `DIST` (R92). -/
theorem distanceOf_toNat {n : Nat} (hn : n ≤ 17) (d : BitVec n) : (distanceOf d).toNat = d.toNat :=
  BitVec.toNat_setWidth_of_le hn

theorem m2bLength_toNat (l : BitVec 4) : (m2bLength l).toNat = l.toNat + 3 := by
  unfold m2bLength
  bv_omega

theorem m3Length_toNat (l : BitVec 5) : (m3Length l).toNat = l.toNat + 2 := by
  unfold m3Length
  bv_omega

/-- All four forms are match tokens of their width, their distance and their length. -/
theorem exec_match_eq {i : Instr} {w d l : Nat} (hwf : i.WellFormed = true) (h : matchForm i = some (w, d, l))
    (s : State) : ∃ (x : BitVec 17) (n : BitVec 32), x.toNat = d ∧ n.toNat = l ∧
      exec i s = .next (matchToken w x n s) := by
  obtain ⟨x, rfl, rfl, rfl, rfl⟩ | ⟨x, rfl, rfl, rfl, rfl⟩ | ⟨y, x, rfl, rfl, rfl, rfl⟩ | ⟨y, x, rfl, rfl, rfl, rfl⟩ :=
    matchForm_cases h
  · exact ⟨distanceOf x, fixedLength, distanceOf_toNat (by decide) x, rfl, rfl⟩
  · exact ⟨distanceOf x, fixedLength, distanceOf_toNat (by decide) x, rfl, rfl⟩
  · exact ⟨distanceOf x, m2bLength y, distanceOf_toNat (by decide) x, m2bLength_toNat y, rfl⟩
  · have hy : y ≠ 0#5 := by simpa [Instr.WellFormed] using hwf
    exact ⟨x, m3Length y, rfl, m3Length_toNat y, if_neg hy⟩

/-- Settles O31: every form comes to `matchToken`, which starts the copy or raises before or behind its writes. -/
theorem matchChecksDecide : Obligations.MatchChecksDecide := by
  intro i w d l s hwf hform hsize
  obtain ⟨x, n, rfl, rfl, hexec⟩ := exec_match_eq hwf hform s
  have hzero : x = 0#17 ↔ x.toNat = 0 := BitVec.toNat_eq
  have hroom : outputLeft s = s.dsize.toNat - s.wr.toNat := rfl
  obtain ⟨hin, hd, hsrc, hout, ht⟩ | ⟨hcut, ht⟩ | ⟨hin, hfail, ht⟩ := matchToken_cases w x n s <;> rw [ht] at hexec
  · have hpos : 0 < x.toNat := Nat.pos_of_ne_zero (mt hzero.2 hd)
    exact ⟨fun hfail => by omega, fun _ _ _ _ => ⟨_, hexec, rfl, rfl, advance_rd_toNat hsize hin, rfl, rfl⟩⟩
  · exact ⟨fun _ => ⟨_, hexec, raisedFrom_raise _ s⟩, fun hin => by omega⟩
  · rw [hzero] at hfail
    exact ⟨fun _ => ⟨_, hexec, rfl, rfl, rfl, rfl⟩, fun _ hd hsrc hout => by omega⟩

/-! ## The value of a match token's bytes (R166 to R169) -/

/-- Equally many bytes with one value are the same bytes. -/
theorem leNat_inj {xs ys : List Byte} (hlen : xs.length = ys.length) (h : leNat xs = leNat ys) : xs = ys := by
  induction xs generalizing ys with
  | nil => exact (List.length_eq_zero_iff.1 hlen.symm).symm
  | cons x xs ih =>
    obtain ⟨y, ys, rfl⟩ := List.exists_cons_of_length_eq_add_one hlen.symm
    have hx := x.isLt
    have hy := y.isLt
    simp only [leNat] at h
    rw [BitVec.eq_of_toNat_eq (show x.toNat = y.toNat by omega), ih (Nat.succ.inj hlen) (by omega)]

theorem leNat_bytes16 (v : BitVec 16) : leNat (bytes16 v) = v.toNat := by
  rw [bytes16, ← le16_toNat, le16_byteAt]

theorem leNat_bytes24 (v : BitVec 24) : leNat (bytes24 v) = v.toNat := by
  rw [bytes24, ← le24_toNat, le24_byteAt]

theorem leNat_encode_m1 (d : BitVec 6) : leNat (encode (.m1 d)) = 4 * d.toNat := by
  simp only [encode, leNat, append_toNat, BitVec.toNat_ofNat]
  omega

theorem leNat_encode_m2a (d : BitVec 14) : leNat (encode (.m2a d)) = 1 + 4 * d.toNat := by
  rw [encode, leNat_bytes16, append_toNat]
  rfl

theorem leNat_encode_m2b (l : BitVec 4) (d : BitVec 10) :
    leNat (encode (.m2b l d)) = 2 + 4 * l.toNat + 64 * d.toNat := by
  rw [encode, leNat_bytes16, append_toNat, append_toNat]
  rfl

theorem leNat_encode_m3 (l : BitVec 5) (d : BitVec 17) :
    leNat (encode (.m3 l d)) = 3 + 4 * l.toNat + 128 * d.toNat := by
  rw [encode, leNat_bytes24, append_toNat, append_toNat]
  rfl

/-! ## The step at a match token -/

section
variable {s : State} {i : Instr}

/-- Where the bytes at `RD` have the value of a match token's encoding, the step in `MATCHDEC` runs that token. -/
theorem step_match_of_inValue (hwf : i.WellFormed = true) (hctx : contextOf i = .backref)
    (hin : s.rd.toNat + (encode i).length ≤ s.csize.toNat) (hc : s.cmd = none) (hp : s.phase = .matchdec)
    (hv : inValue s s.rd.toNat (encode i).length = some (leNat (encode i))) : step s = exec i s := by
  obtain ⟨bs, hrun, hbs⟩ := Option.map_eq_some_iff.1 hv
  rw [leNat_inj (readInRun_spec hrun).1 hbs] at hrun
  refine stepRunsDecodedItem s i hc hwf (hctx ▸ hp) (by simp [hctx]) ?_ ?_ <;> rw [hctx]
  · exact hrun
  · exact hin

end

/-- Settles O27: the checks are those of all forms, and a byte with selector 0 is the token's encoding. -/
theorem m1Starts : Obligations.M1Starts := by
  intro d s hsize hin
  refine ⟨(matchChecksDecide (.m1 d) 1 d.toNat 3 s rfl rfl hsize).2 hin, fun v hc hp hv hsel hd => ?step⟩
  case step =>
    have hval : v = leNat (encode (.m1 d)) := by rw [leNat_encode_m1]; omega
    exact step_match_of_inValue rfl rfl hin hc hp (hval ▸ hv)

/-- Settles O28: the checks are those of all forms, and two bytes with selector 1 are the token's encoding. -/
theorem m2aStarts : Obligations.M2aStarts := by
  intro d s hsize hin
  refine ⟨(matchChecksDecide (.m2a d) 2 d.toNat 3 s rfl rfl hsize).2 hin, fun v hc hp hv hsel hd => ?step⟩
  case step =>
    have hval : v = leNat (encode (.m2a d)) := by rw [leNat_encode_m2a]; omega
    exact step_match_of_inValue rfl rfl hin hc hp (hval ▸ hv)

/-- Settles O29: the checks are those of all forms, and two bytes with selector 2 are the token's encoding. -/
theorem m2bStarts : Obligations.M2bStarts := by
  intro l d s hsize hin
  refine ⟨(matchChecksDecide (.m2b l d) 2 d.toNat (l.toNat + 3) s rfl rfl hsize).2 hin,
    fun v hc hp hv hsel hl hd => ?step⟩
  case step =>
    have hval : v = leNat (encode (.m2b l d)) := by rw [leNat_encode_m2b]; omega
    exact step_match_of_inValue rfl rfl hin hc hp (hval ▸ hv)

/-- Settles O30: the checks are those of all forms, and three bytes with selector 3 and a length field that is not 0
are the token's encoding. -/
theorem m3Starts : Obligations.M3Starts := by
  intro l d s hsize hin hl0
  have hwf := (m3_wellFormed_iff l d).2 (Nat.pos_of_ne_zero hl0)
  refine ⟨(matchChecksDecide (.m3 l d) 3 d.toNat (l.toNat + 2) s hwf rfl hsize).2 hin,
    fun v hc hp hv hsel hl hd => ?step⟩
  case step =>
    have hval : v = leNat (encode (.m3 l d)) := by rw [leNat_encode_m3]; omega
    exact step_match_of_inValue hwf rfl hin hc hp (hval ▸ hv)

/-! ## The reserved pattern (R172) -/

/-- Three bytes that begin with the first byte of a reserved pattern are run as one. -/
theorem step_reservedPattern {s : State} {b0 b1 b2 : Byte} (hc : s.cmd = none) (hp : s.phase = .matchdec)
    (hin : s.rd.toNat + 3 ≤ s.csize.toNat) (hrun : readInRun s s.rd.toNat 3 = some [b0, b1, b2])
    (hb0 : b0 = 0x03#8 ∨ b0 = 0x83#8) : step s = .next (raise .streamCorruption s) := by
  obtain ⟨d, hd⟩ := (reservedPatternFirstBytes b0 b1 b2).2 hb0
  obtain ⟨-, -, henc⟩ := decode_eq_ok_iff.1 hd
  rw [List.append_nil] at henc
  exact stepRunsDecodedItem s (.m3Rsvd d) hc rfl hp nofun (hrun.trans (congrArg some henc)) hin

/-- Settles O32: the meaning raises at once; the step raises where `CSIZE` cuts the token, and runs it otherwise. -/
theorem reservedPatternRaises : Obligations.ReservedPatternRaises := by
  refine ⟨fun d s => ⟨_, rfl, raisedFrom_raise _ s, rfl, rfl⟩, fun b0 s hc hp hsize hfilled hb hb0 => ?step⟩
  suffices h : step s = .next (raise .streamCorruption s) from ⟨_, h, raisedFrom_raise _ s⟩
  have hwidth : itemWidth .backref b0 = 3 := by rcases hb0 with rfl | rfl <;> rfl
  by_cases hin : s.rd.toNat + 3 ≤ s.csize.toNat
  · obtain ⟨bs, hrun⟩ := readInRun_of_filled hfilled (hin.trans_eq hsize)
    obtain ⟨tl, rfl, htl⟩ := readInRun_head hrun hb
    obtain ⟨b1, b2, rfl⟩ := List.length_eq_two.1 htl
    exact step_reservedPattern hc hp hin hrun hb0
  · exact step_cut (c := .backref) hc hp nofun hb (by rw [hwidth]; exact not_le.1 hin)

end Sys2Proof.Proofs
end

section
/-!
PROOFS of the family `44_match_copy_engine.md`: the match copy step (R186) and the whole match copy (R185, R187).
-/

namespace Sys2Proof.Proofs

open Sys2Proof.Machine Sys2Proof.Laws

/-! ## One byte of the copy (R186) -/

section
variable {s : State}

/-- `OUT` exists where it can be read (R37, R38). -/
theorem out_of_readOut {a : Nat} {b : Byte} (hb : readOut s a = some b) : ∃ m, s.out = some m := by
  cases hm : s.out with
  | none => simp [readOut, hm] at hb
  | some m => exact ⟨m, rfl⟩

/-- The match copy step where its source byte and its place in `OUT` are there. -/
theorem step_matchCopy {m : Memory} {b : Byte} (hc : s.cmd = none) (hp : s.phase = .matchcopy) (hm : s.out = some m)
    (hcnt : 1 ≤ s.cnt.toNat) (hsrc : s.dist.toNat ≤ s.wr.toNat)
    (hb : readOut s (s.wr.toNat - s.dist.toNat) = some b) (hw : s.wr.toNat < s.dsize.toNat) :
    step s = .next (byteDone (memWrite m s.wr.toNat b) s) := by
  rw [step_of_no_command hc, phaseAction, hp]
  simp only [matchCopyStep, if_neg (cnt_ne_zero hcnt), if_neg (not_lt.2 hsrc), hm, hb]
  exact putByte_eq hm hw b

end

/-- Settles O33: the step is `byteDone` with the byte `DIST` behind `WR` written at `WR`. -/
theorem matchCopyMovesOneByte : Obligations.MatchCopyMovesOneByte := by
  intro s b hc hp hcnt hsrc hb hw
  obtain ⟨m, hm⟩ := out_of_readOut hb
  have hphase := byteDone_phase_eq_ite (s := s) (memWrite m s.wr.toNat b) hcnt
  refine ⟨_, step_matchCopy hc hp hm hcnt hsrc hb hw, memRead_memWrite_same m _ b, wr_succ hw, cnt_pred hcnt,
    fun hlast => hphase.trans (if_pos hlast), fun hmore => (hphase.trans (if_neg hmore)).trans hp,
    fun a ha => ?others, rfl⟩
  case others =>
    rw [outByte, outByte, hm]
    exact memRead_memWrite_other m b ha

/-! ## The copy as a whole (R187) -/

/-- `t` comes after `s` in one match copy: the copy ends at the same `WR + CNT`, every byte written since equals the byte
`DIST` before it in the same `OUT`, what `OUT` held stays, and nothing but the copy's own registers has moved (R185). -/
structure MatchCopied (s t : State) : Prop where
  total : t.wr.toNat + t.cnt.toNat = s.wr.toNat + s.cnt.toNat
  wr_le : s.wr.toNat ≤ t.wr.toNat
  repeats : ∀ a, s.wr.toNat ≤ a → a < t.wr.toNat → outByte t a = outByte t (a - s.dist.toNat)
  kept : ∀ a, a < s.wr.toNat → outByte t a = outByte s a
  frame : t = { s with out := t.out, wr := t.wr, cnt := t.cnt, phase := t.phase }

section
variable {s r t : State}

theorem MatchCopied.refl (s : State) : MatchCopied s s where
  total := rfl
  wr_le := le_rfl
  repeats _ hle hlt := absurd hle (not_le.2 hlt)
  kept _ _ := rfl
  frame := rfl

/-- Two parts of a copy one after the other are one: the second keeps what the first wrote and what that was read
from. -/
theorem MatchCopied.trans (h : MatchCopied s r) (h' : MatchCopied r t) : MatchCopied s t where
  total := h'.total.trans h.total
  wr_le := h.wr_le.trans h'.wr_le
  repeats a hle hlt := by
    by_cases hr : a < r.wr.toNat
    · rw [h'.kept a hr, h'.kept _ (by omega), h.repeats a hle hr]
    · have hdist : r.dist = s.dist := by rw [h.frame]
      rw [h'.repeats a (not_lt.1 hr) hlt, hdist]
  kept a ha := by rw [h'.kept a (ha.trans_le h.wr_le), h.kept a ha]
  frame := h'.frame.trans (by rw [h.frame])

/-- By strong induction on the place in the copy: the first `DIST` bytes repeat what stood before the copy, and each
later one the byte `DIST` earlier in the copy itself (R187). -/
theorem MatchCopied.closedForm (h : MatchCopied s t) (hdist : 1 ≤ s.dist.toNat) (hsrc : s.dist.toNat ≤ s.wr.toNat)
    (i : Nat) (hi : s.wr.toNat + i < t.wr.toNat) :
    outByte t (s.wr.toNat + i) = outByte s (s.wr.toNat - s.dist.toNat + i % s.dist.toNat) := by
  induction i using Nat.strong_induction_on with
  | h i ih =>
    rw [h.repeats _ (Nat.le_add_right _ i) hi]
    by_cases hfirst : i < s.dist.toNat
    · rw [Nat.mod_eq_of_lt hfirst, h.kept _ (by omega), Nat.sub_add_comm hsrc]
    · have hback := not_lt.1 hfirst
      rw [Nat.mod_eq_sub_mod hback, Nat.add_sub_assoc hback, ih (i - s.dist.toNat) (by omega) (by omega)]

/-- One step of a match copy within the invariant: a byte is copied, and the phase is left with the last one. -/
theorem step_copies_match (hs : CallInv s) (hc : s.cmd = none) (hp : s.phase = .matchcopy) :
    ∃ t, step s = .next t ∧ MatchCopied s t ∧ t.cnt.toNat = s.cnt.toNat - 1 ∧
      t.phase = if t.cnt.toNat = 0 then .loop else .matchcopy := by
  obtain ⟨-, -, -, hcnt, -, hdist, -⟩ := (callInv_loop_iff hp rfl).1 hs
  obtain ⟨_, hanswer⟩ := matchCopyStep_answers hs hp
  obtain ⟨-, hsrc, b, -, hb, -, hw, -⟩ := matchCopyStep_next hanswer
  obtain ⟨t, hstep, hbyte, hwr, hpred, hlast, hmore, hothers, hframe⟩ :=
    matchCopyMovesOneByte s b hc hp hcnt hsrc hb hw
  refine ⟨t, hstep, ⟨by omega, by omega, fun a hle hlt => ?repeats, fun a ha => hothers a ha.ne, hframe⟩, hpred,
    ?phase⟩
  case repeats =>
    obtain rfl : a = s.wr.toNat := by omega
    rw [hbyte, hothers _ (by omega), ← readOut_of_lt (by omega), hb]
  case phase =>
    split
    · exact hlast (by omega)
    · exact hmore (by omega)

/-- By induction on the bytes that are still to come: the steps copy them all and go back to `LOOP`. -/
theorem steps_copy_match (k : Nat) (hs : CallInv s) (hc : s.cmd = none) (hk : s.cnt.toNat = k)
    (hp : s.phase = if k = 0 then .loop else .matchcopy) :
    ∃ t, steps k s = .next t ∧ MatchCopied s t ∧ t.cnt.toNat = 0 ∧ t.phase = .loop := by
  induction k generalizing s with
  | zero => exact ⟨s, rfl, .refl s, hk, hp⟩
  | succ k ih =>
    obtain ⟨r, hstep, hcopied, hpred, hphase⟩ := step_copies_match hs hc hp
    have hkr : r.cnt.toNat = k := by omega
    have hcr : r.cmd = none := by rw [hcopied.frame]; exact hc
    obtain ⟨t, hrun, hrest, hdone⟩ := ih (stepKeepsCallInv s r hs hstep) hcr hkr (hkr ▸ hphase)
    exact ⟨t, (steps_succ_iff k).2 ⟨r, hstep, hrun⟩, hcopied.trans hrest, hdone⟩

end

/-- Settles O34: `steps_copy_match`, with the closed form of what it wrote read below `WR`. -/
theorem matchCopyRepeatsPattern : Obligations.MatchCopyRepeatsPattern := by
  intro s hs hc hp
  obtain ⟨-, -, -, hcnt, -, hdist, hsrc⟩ := (callInv_loop_iff hp rfl).1 hs
  obtain ⟨t, hrun, h, hzero, hloop⟩ :=
    steps_copy_match s.cnt.toNat hs hc rfl (hp.trans (if_neg (Nat.pos_iff_ne_zero.1 hcnt)).symm)
  have hwr : t.wr.toNat = s.wr.toNat + s.cnt.toNat := by simpa [hzero] using h.total
  refine ⟨t, hrun, hloop, hzero, hwr, fun i hi => ?_, fun a ha => ?_, h.frame⟩
  · have hmod := Nat.mod_lt i hdist
    rw [readOut_of_lt (by omega), readOut_of_lt (by omega), h.closedForm hdist hsrc i (by omega)]
  · rw [readOut_of_lt (by omega), readOut_of_lt ha, h.kept a ha]

end Sys2Proof.Proofs
end

section
/-!
PROOFS of the family `45_decode_entry_point.md`, the steps of the entry point: `start`, the size check, the allocation,
the final check and `ack` (R200 to R208), and what a successful call hands over (R207, R262).
-/

namespace Sys2Proof.Proofs

open Sys2Proof.Machine Sys2Proof.Laws

/-! ## The host's commands (R200, R208) -/

/-- Settles O36: the step takes the command. -/
theorem startBeginsCall : Obligations.StartBeginsCall := by
  intro s hc hp
  exact ⟨_, step_start hc hp, rfl, rfl, rfl⟩

/-- `ack` in phase `DONE` (R208). -/
theorem step_ack {s : State} (hc : s.cmd = some .ack) (hp : s.phase = .done) : step s = .next (acknowledge s) := by
  rw [step_of_command hc, hostCommand, if_pos hp]

/-- Settles O37: the step takes the command, whatever the status. -/
theorem ackReturnsToIdle : Obligations.AckReturnsToIdle := by
  intro s hc hp
  exact ⟨_, step_ack hc hp, rfl, rfl, rfl, rfl⟩

/-- When the host cannot acknowledge (R273). -/
theorem issueAck_eq_none {s : State} (h : s.phase ≠ .done ∨ s.cmd ≠ none) : issueAck s = none :=
  if_neg (not_and_or.2 h)

/-- Settles O60: `ack` leaves phase `IDLE` with no command pending, which is all that a launch asks of the state, and
the launched `start` is taken in the next step. -/
theorem nextCallFollowsDone : Obligations.NextCallFollowsDone := by
  refine fun s => ⟨fun hp hc bytes granted hl => ?_, issueAck_eq_none⟩
  exact ⟨_, _, _, _, issueAck_eq_some_iff.2 ⟨⟨hp, hc⟩, rfl⟩, rfl, step_ack rfl hp,
    launch_eq_some_iff.2 ⟨⟨rfl, rfl, hl⟩, rfl⟩, step_start rfl rfl, rfl, rfl⟩

/-! ## The block's own steps -/

section
variable {s : State}

theorem step_sizechk (hc : s.cmd = none) (hp : s.phase = .sizechk) : step s = .next (sizeCheck s) := by
  rw [step_of_no_command hc, phaseAction, hp]

theorem step_alloc (hc : s.cmd = none) (hp : s.phase = .alloc) : step s = .next (allocate s) := by
  rw [step_of_no_command hc, phaseAction, hp]

theorem step_final (hc : s.cmd = none) (hp : s.phase = .final) : step s = .next (finalCheck s) := by
  rw [step_of_no_command hc, phaseAction, hp]

/-- R203 with `DSIZE = 0`: the allocation is granted, and the call ends with an empty output. -/
theorem allocate_of_empty (hd : s.dsize = 0#32) : allocate s = succeed 0#32 (createOutput s) := by
  simp [allocate, allocGranted, hd]

/-- R203 with `DSIZE > 0` and no memory. -/
theorem allocate_of_refused (hd : s.dsize ≠ 0#32) (h : s.allocOk = false) :
    allocate s = raise .allocationFailure s := by
  simp [allocate, allocGranted, hd, h]

/-- R203, R204 with `DSIZE > 0` and memory. -/
theorem allocate_of_granted (hd : s.dsize ≠ 0#32) (h : s.allocOk = true) :
    allocate s = enterLoop (createOutput s) := by
  simp [allocate, allocGranted, hd, h]

end

/-- Settles O39, by the two answers of the size check. -/
theorem sizeCheckDecides : Obligations.SizeCheckDecides := by
  intro s hc hp
  rw [step_sizechk hc hp, sizeCheck]
  constructor
  · intro hsize
    rw [if_pos hsize]
    rfl
  · intro hsize
    rw [if_neg hsize]
    exact ⟨_, rfl, raisedFrom_raise _ s⟩

/-- Settles O40: the three outcomes of `allocate`. -/
theorem allocationDecides : Obligations.AllocationDecides := by
  intro s hc hp
  rw [step_alloc hc hp]
  have hzero : s.dsize = 0#32 ↔ s.dsize.toNat = 0 := BitVec.toNat_eq
  refine ⟨fun hd hno => ?refused, fun hd => ?empty, fun hd hok => ?granted⟩
  case refused =>
    rw [allocate_of_refused (mt hzero.1 hd) hno]
    exact ⟨_, rfl, raisedFrom_raise _ s⟩
  case empty =>
    rw [allocate_of_empty (hzero.2 hd)]
    exact ⟨_, rfl, rfl, rfl, rfl, rfl, rfl⟩
  case granted =>
    have hrd : (s.hlen.setWidth 32).toNat = s.hlen.toNat := BitVec.toNat_setWidth_of_le (by decide)
    rw [allocate_of_granted (mt hzero.1 hd) hok]
    exact ⟨_, rfl, rfl, hrd, rfl, rfl, rfl, fun _ => rfl, rfl⟩

/-- Settles O41, by the two answers of the final check. -/
theorem finalCheckDecides : Obligations.FinalCheckDecides := by
  intro s hc hp
  rw [step_final hc hp, finalCheck]
  constructor
  · intro hr
    rw [if_neg hr]
    exact ⟨_, rfl, raisedFrom_raise _ s⟩
  · intro hr
    rw [if_pos hr]
    exact ⟨_, rfl, rfl, rfl, rfl, rfl⟩

/-! ## The output that is handed over (R207, R262) -/

/-- A run of a space is the list of its bytes. -/
theorem memReadRun_of_getElem {m : Memory} {a : Nat} {bs : List Byte}
    (h : ∀ k, k < bs.length → memRead m (a + k) = bs[k]?) : memReadRun m a bs.length = some bs := by
  induction bs generalizing a with
  | nil => rfl
  | cons b bs ih =>
    have hb : memRead m a = some b := h 0 (Nat.succ_pos _)
    have htl : memReadRun m (a + 1) bs.length = some bs := ih fun k hk => by
      rw [Nat.add_assoc, Nat.add_comm 1 k]
      exact h (k + 1) (Nat.succ_lt_succ hk)
    rw [List.length_cons, memReadRun, hb, htl]
    rfl

/-- The bytes of a filled space, as a list. -/
theorem exists_bytes_of_filled {m : Memory} {n : Nat} (h : m.filled n) :
    ∃ bs : List Byte, bs.length = n ∧ ∀ k, k < n → memRead m k = bs[k]? := by
  refine ⟨(List.range n).map fun k => (memRead m k).getD 0#8, by simp, fun k hk => ?_⟩
  obtain ⟨b, hb⟩ := Option.isSome_iff_exists.1 ((filled_isSome_iff h k).2 hk)
  simp [hk, hb]

/-- After a success the host reads the bytes that `OUT` holds below `OUT_LEN`. -/
theorem hostOutput_of_outByte {s : State} {bs : List Byte} (hp : s.phase = .done) (hok : s.status = statusOk)
    (hex : s.out.isSome = true) (hlen : s.outLen.toNat = bs.length)
    (h : ∀ k, k < bs.length → outByte s k = bs[k]?) : hostOutput s = some bs := by
  obtain ⟨m, hm⟩ := Option.isSome_iff_exists.1 hex
  have hread : memReadRun m 0 bs.length = some bs :=
    memReadRun_of_getElem fun k hk => by simpa only [outByte, hm, Nat.zero_add] using h k hk
  simp only [hostOutput, hp, hok, and_self, if_true, hm, hlen, hread]

/-- Settles O54: `DONE`'s part of the invariant says that `OUT` is filled below `OUT_LEN`, which is `DSIZE`. -/
theorem successHandsOverWholeOutput : Obligations.SuccessHandsOverWholeOutput := by
  intro s hs hp hok
  obtain ⟨-, -, -, -, hsuccess⟩ := (callInv_done_iff hp).1 hs
  obtain ⟨hlen, hfilled⟩ := hsuccess hok
  obtain ⟨m, hm, hfilled⟩ := outFilled_iff.1 hfilled
  obtain ⟨bs, hbs, hget⟩ := exists_bytes_of_filled hfilled
  have hbyte : ∀ k, k < bs.length → outByte s k = bs[k]? := fun k hk => by
    simpa only [outByte, hm] using hget k (hbs ▸ hk)
  rw [hlen] at hbs
  refine ⟨bs, hostOutput_of_outByte hp hok (by rw [hm]; rfl) (by rw [hlen, hbs]) hbyte, hbs, ?_,
    fun i hi => (hbyte i (hbs ▸ hi)).symm⟩
  rw [hostOutLen, if_pos hp, hlen]

end Sys2Proof.Proofs
end

section
/-!
PROOFS of the family `45_decode_entry_point.md`, the big-step function (R210): it gives a result for every input, and on
`OK` the lengths are those that the header declares (R211).
-/

namespace Sys2Proof.Proofs

open Sys2Proof.Machine Sys2Proof.Laws

/-! ## The big-step function is total (R211) -/

/-- Where the source of a copy is written output, the copy gives a result that is as much longer, keeps what was there,
and whose every later byte equals the one `dist` before it (R186, R187). -/
theorem copyBack_spec {dist : Nat} {out : List Byte} (hdist : 1 ≤ dist) (hsrc : dist ≤ out.length) (n : Nat) :
    ∃ out', copyBack dist n out = some out' ∧ out'.length = out.length + n ∧
      (∀ a, a < out.length → out'[a]? = out[a]?) ∧
      ∀ a, out.length ≤ a → a < out'.length → out'[a]? = out'[a - dist]? := by
  induction n generalizing out with
  | zero => exact ⟨out, rfl, rfl, fun _ _ => rfl, fun a hle hlt => by omega⟩
  | succ n ih =>
    have hlt : out.length - dist < out.length := by omega
    have hsource := List.getElem?_eq_getElem hlt
    obtain ⟨out', hcopy, hlen, hkept, hrep⟩ :=
      ih (out := out ++ [out[out.length - dist]]) (by rw [List.length_append]; omega)
    rw [List.length_append, List.length_singleton] at hlen hkept hrep
    have hkept' : ∀ a, a < out.length → out'[a]? = out[a]? := fun a ha => by
      rw [hkept a (by omega), List.getElem?_append_left ha]
    refine ⟨out', by rw [copyBack, hsource]; exact hcopy, by omega, hkept', fun a hle ha => ?_⟩
    obtain rfl | hmore := hle.eq_or_lt
    · rw [hkept _ (Nat.lt_succ_self _), List.getElem?_concat_length, hkept' _ hlt, hsource]
    · exact hrep a hmore ha

/-- A match token gives a result: its distance was checked before its copy begins. -/
theorem matchRun_total (inp : List Byte) (dsize rd : Nat) (out : List Byte) :
    ∃ e, matchRun inp dsize rd out = some e := by
  unfold matchRun
  split
  · exact ⟨_, rfl⟩
  · split
    · exact ⟨_, rfl⟩
    · rename_i dist len rd' _ hchecks
      obtain ⟨out', hcopy, -⟩ := copyBack_spec (dist := dist) (out := out) (by omega) (by omega) len
      exact ⟨_, by rw [hcopy]; rfl⟩

theorem tokenRun_total (flag : Nat) (inp : List Byte) (dsize rd : Nat) (out : List Byte) :
    ∃ e, tokenRun flag inp dsize rd out = some e := by
  unfold tokenRun
  split
  · exact ⟨_, rfl⟩
  · exact matchRun_total inp dsize rd out

/-- A bound above the number of bytes left is enough, as every pass consumes a byte (R135). -/
theorem decodeLoop_total {inp : List Byte} {dsize fuel rd : Nat} (hrd : rd ≤ inp.length)
    (hfuel : inp.length < rd + fuel) (out : List Byte) (fw fcnt : Nat) :
    ∃ r, decodeLoop inp dsize fuel rd out fw fcnt = some r := by
  induction fuel generalizing rd out fw fcnt with
  | zero => omega
  | succ fuel ih =>
    rw [decodeLoop]
    split
    · exact ⟨_, rfl⟩
    · cases hrefill : refillIfEmpty inp rd fw fcnt with
      | none => exact ⟨_, rfl⟩
      | some q =>
        obtain ⟨w, r, c⟩ := q
        have hle := le_of_refillIfEmpty hrefill
        obtain ⟨e, he⟩ := tokenRun_total (w % 2) inp dsize r out
        simp only [he]
        cases e with
        | error k => exact ⟨_, rfl⟩
        | ok p =>
          obtain ⟨r', out'⟩ := p
          obtain ⟨hlt, hlen⟩ := tokenRun_progress he
          exact ih hlen (by omega) out' _ _

/-- Settles O55: the payload has fewer bytes than the loop has passes. -/
theorem wholeCallIsTotal : Obligations.WholeCallIsTotal := by
  intro inp allocOk
  unfold decodeCall
  split
  · exact ⟨_, rfl⟩
  · rename_i hlen dsize plen hfields
    obtain ⟨-, hle⟩ := hlen_of_headerFields hfields
    split_ifs
    · exact ⟨_, rfl⟩
    · exact ⟨_, rfl⟩
    · exact ⟨_, rfl⟩
    · exact decodeLoop_total hle (by omega) [] 0 0

/-! ## The lengths on `OK` (R211) -/

/-- The loop answers `OK` only with an output of `dsize` bytes. -/
theorem length_of_decodeLoop_ok {inp out out' : List Byte} {dsize fuel rd fw fcnt : Nat}
    (h : decodeLoop inp dsize fuel rd out fw fcnt = some (.ok out')) : out'.length = dsize := by
  induction fuel generalizing rd out fw fcnt with
  | zero => cases h
  | succ fuel ih =>
    rw [decodeLoop] at h
    split at h
    · rename_i hfull
      split at h <;> cases h
      exact hfull
    · split at h
      · cases h
      · split at h
        · cases h
        · cases h
        · exact ih h

/-- An `OK` call's header declares the lengths of its input and of its output (R202, R203, R207). -/
theorem lengths_of_decodeCall_ok {inp out : List Byte} {allocOk : Nat → Bool}
    (h : decodeCall inp allocOk = some (.ok out)) :
    ∃ hlen plen, headerFields inp = some (hlen, out.length, plen) ∧ hlen + plen = inp.length := by
  unfold decodeCall at h
  split at h
  · cases h
  · rename_i hlen dsize plen hfields
    split at h
    · cases h
    · rename_i hsize
      suffices hout : out.length = dsize from ⟨hlen, plen, hout ▸ hfields, not_not.1 hsize⟩
      split_ifs at h with hno hempty
      · cases h
      · cases h
        exact hempty.symm
      · exact length_of_decodeLoop_ok h

/-! ## The header's fields and the decoder's header item (R110 to R113) -/

theorem headerFields_hdrC {ctrl : Byte} (hext : extBit ctrl = false) (dlen plen : Byte) (rest : List Byte) :
    headerFields (encode (.hdrC ctrl dlen plen) ++ rest) = some (3, dlen.toNat, plen.toNat) :=
  headerFields_compact hext dlen plen rest

theorem bytes32_length (v : BitVec 32) : (bytes32 v).length = 4 := rfl

/-- The bytes of a 32-bit value have that value. -/
theorem leNat_bytes32 (v : BitVec 32) : leNat (bytes32 v) = v.toNat := by
  rw [bytes32, ← le32_toNat, le32_byteAt]

theorem readLe_bytes32 (pre rest : List Byte) (v : BitVec 32) :
    readLe (pre ++ (bytes32 v ++ rest)) pre.length 4 = some v.toNat := by
  have htake : (bytes32 v ++ rest).take 4 = bytes32 v := List.take_left' (bytes32_length v)
  rw [readLe, if_pos (by simp [bytes32_length]), List.drop_left, htake, leNat_bytes32]

theorem headerFields_hdrX {ctrl : Byte} (hext : extBit ctrl = true) (dlen plen : BitVec 32) (rest : List Byte) :
    headerFields (encode (.hdrX ctrl dlen plen) ++ rest) = some (9, dlen.toNat, plen.toNat) := by
  have hd := readLe_bytes32 [] (bytes32 plen ++ rest) dlen
  have hp := readLe_bytes32 (bytes32 dlen) rest plen
  have hwhole : ¬ (bytes32 dlen ++ (bytes32 plen ++ rest)).length + 1 < 9 := by
    simp only [List.length_append, bytes32_length]
    omega
  have hlong : ¬ (bytes32 dlen ++ (bytes32 plen ++ rest)).length + 1 < 3 := by omega
  rw [encode, List.cons_append, List.append_assoc, headerFields_cons, if_neg hlong, if_pos hext, if_neg hwhole]
  exact Option.bind_eq_some_iff.2 ⟨_, hd, Option.map_eq_some_iff.2 ⟨_, hp, rfl⟩⟩

/-- Where the decoder refuses the header, there are no fields (R113). -/
theorem headerFields_eq_none_of_decode_error {bytes : List Byte} {e : DecodeError}
    (h : decode .header bytes = .error e) : headerFields bytes = none := by
  obtain hcut | ⟨b0, tl, rfl, hcut⟩ := (decoderRefusesOnlyCutItems .header bytes).1 ⟨e, h⟩
  · exact if_pos hcut
  · rw [headerFields_cons]
    rw [List.length_cons] at hcut
    cases hext : extBit b0 with
    | false =>
      rw [itemWidth, hext] at hcut
      exact if_pos hcut
    | true =>
      rw [itemWidth, if_pos hext] at hcut
      rw [if_pos rfl, if_pos hcut, ite_self]

/-- The header item of a buffer that has its fields (R110 to R112). -/
theorem header_of_headerFields {inp : List Byte} {hlen dsize plen : Nat}
    (h : headerFields inp = some (hlen, dsize, plen)) : ∃ i rest, decode .header inp = .ok (i, rest) := by
  cases hd : decode .header inp with
  | ok q => exact ⟨q.1, q.2, rfl⟩
  | error e =>
    rw [headerFields_eq_none_of_decode_error hd] at h
    cases h

/-- The two inspector functions give what R210 takes from the header (R115). -/
theorem inspector_of_headerFields {inp : List Byte} {hlen dsize plen : Nat}
    (h : headerFields inp = some (hlen, dsize, plen)) :
    compressedSize inp = some (hlen + plen) ∧ decompressedSize inp = some dsize := by
  obtain ⟨i, rest, hd⟩ := header_of_headerFields h
  obtain ⟨hwf, hctx, rfl⟩ := decode_eq_ok_iff.1 hd
  obtain ⟨ctrl, dlen, pl, rfl⟩ | ⟨ctrl, dlen, pl, rfl⟩ := header_cases hctx
  · have hext := (hdrC_wellFormed_iff ctrl dlen pl).1 hwf
    rw [headerFields_hdrC hext] at h
    cases h
    exact ⟨compressedSize_hdrC rest hext dlen pl, decompressedSize_hdrC rest hext dlen pl⟩
  · have hext : extBit ctrl = true := hwf
    rw [headerFields_hdrX hext] at h
    cases h
    exact ⟨compressedSize_hdrX rest hext dlen pl, decompressedSize_hdrX rest hext dlen pl⟩

/-- Settles O56: the inspector functions give the fields of the header that the call went by. -/
theorem outputHasDeclaredLength : Obligations.OutputHasDeclaredLength := by
  intro inp out allocOk h
  obtain ⟨hlen, plen, hfields, hsize⟩ := lengths_of_decodeCall_ok h
  obtain ⟨hcs, hds⟩ := inspector_of_headerFields hfields
  exact ⟨hds, hsize ▸ hcs⟩

end Sys2Proof.Proofs
end

section
/-!
PROOFS of the family `45_decode_entry_point.md`, the token loop of the step machine is that of the big-step function
(R210): runs, and what a state stands for.
-/

namespace Sys2Proof.Proofs

open Sys2Proof.Machine Sys2Proof.Laws

/-! ## Runs -/

/-- Some number of steps leads from `s` to `t`. -/
def Reaches (s t : State) : Prop := ∃ k, steps k s = .next t

/-- The run from `s` ends the call with the result `r`. -/
def EndsWith (r : Except ErrorKind (List Byte)) (s : State) : Prop :=
  ∃ u, Reaches s u ∧ u.phase = .done ∧ hostResult u = some r

section
variable {s r t : State} {k : ErrorKind} {e : Except ErrorKind (List Byte)}

theorem Reaches.refl (s : State) : Reaches s s := ⟨0, rfl⟩

theorem Reaches.head (h : step s = .next r) (h' : Reaches r t) : Reaches s t := by
  obtain ⟨k, hk⟩ := h'
  exact ⟨k + 1, (steps_succ_iff k).2 ⟨r, h, hk⟩⟩

theorem Reaches.single (h : step s = .next t) : Reaches s t := .head h (.refl t)

theorem Reaches.trans (h : Reaches s r) (h' : Reaches r t) : Reaches s t := by
  obtain ⟨k, hk⟩ := h
  induction k generalizing s with
  | zero =>
    cases hk
    exact h'
  | succ k ih =>
    obtain ⟨q, hq, hk⟩ := (steps_succ_iff k).1 hk
    exact .head hq (ih hk)

/-- A run keeps what every step keeps. -/
theorem Reaches.keeps {P : State → Prop} (hstep : ∀ s t, P s → step s = .next t → P t) (h : Reaches s t) (hs : P s) :
    P t := by
  obtain ⟨k, hk⟩ := h
  induction k generalizing s with
  | zero =>
    cases hk
    exact hs
  | succ k ih =>
    obtain ⟨q, hq, hk⟩ := (steps_succ_iff k).1 hk
    exact ih (hstep s q hs hq) hk

theorem EndsWith.of_reaches (h : Reaches s t) (h' : EndsWith e t) : EndsWith e s := by
  obtain ⟨u, hu, hdone⟩ := h'
  exact ⟨u, h.trans hu, hdone⟩

theorem errorKindOf_errorCode (k : ErrorKind) : errorKindOf (errorCode k) = some k := by
  cases k <;> rfl

/-- The host sees the kind that a step raised (R240, R262). -/
theorem EndsWith.of_raise (h : ∃ t, step s = .next t ∧ raisedFrom k s t) : EndsWith (.error k) s := by
  obtain ⟨t, ht, hstatus, -, hp, -⟩ := h
  exact ⟨t, .single ht, hp, by simp only [hostResult, hp, hstatus, if_true, errorKindOf_errorCode]⟩

/-- The host sees the bytes that a success hands over (R207, R262). -/
theorem EndsWith.of_success {out : List Byte} (h : step s = .next t) (hp : t.phase = .done) (hok : t.status = statusOk)
    (hout : hostOutput t = some out) : EndsWith (.ok out) s :=
  ⟨t, .single h, hp, by rw [hostResult, if_pos hp, hok, hout]; rfl⟩

end

/-! ## The values that the big-step function reads (R17) -/

section
variable {inp : List Byte}

theorem readLe_eq_none_iff {a n : Nat} : readLe inp a n = none ↔ inp.length < a + n := by
  simp [readLe]

/-- Bytes have a value below the power of 256 that they are. -/
theorem leNat_lt (bs : List Byte) : leNat bs < 256 ^ bs.length := by
  induction bs with
  | nil => exact Nat.one_pos
  | cons b bs ih =>
    have hb := b.isLt
    rw [leNat, List.length_cons, Nat.pow_succ]
    omega

theorem readLe_lt {a n v : Nat} (h : readLe inp a n = some v) : v < 256 ^ n := by
  have hle := le_length_of_readLe h
  rw [readLe, if_pos hle] at h
  have hlt := leNat_lt ((inp.drop a).take n)
  rw [List.length_take_of_le (by rw [List.length_drop]; omega)] at hlt
  cases h
  exact hlt

/-- The first byte is the value's lowest digit. -/
theorem readLe_mod {a n v b0 : Nat} (hb : readLe inp a 1 = some b0) (hv : readLe inp a n = some v) (hn : 0 < n) :
    v % 256 = b0 := by
  have hle := le_length_of_readLe hb
  have hcons : inp.drop a = inp[a] :: inp.drop (a + 1) := List.drop_eq_getElem_cons (by omega)
  obtain ⟨k, rfl⟩ := Nat.exists_eq_succ_of_ne_zero hn.ne'
  rw [readLe, if_pos hle, hcons] at hb
  rw [readLe, if_pos (le_length_of_readLe hv), hcons] at hv
  cases hb
  cases hv
  simp only [List.take_succ_cons, List.take_zero, leNat]
  omega

end

/-! ## The input that a state presents -/

/-- `IN` is the buffer `inp` (R36). -/
structure Presents (inp : List Byte) (s : State) : Prop where
  inLen : s.inLen.toNat = inp.length
  input : ∀ a, readIn s a = inp[a]?

section
variable {inp : List Byte} {s t : State}

/-- No step writes `IN`. -/
theorem Presents.step (h : Presents inp s) (hstep : step s = .next t) : Presents inp t := by
  obtain ⟨hinp, hlen, -⟩ := stepNeverWritesInput s t hstep
  exact ⟨hlen ▸ h.inLen, fun a => by rw [← h.input a, readIn, readIn, hinp, hlen]⟩

/-- R17's reads are one: a value read by the machine is the value that the big-step function reads. -/
theorem Presents.inValue_eq (h : Presents inp s) (a : Nat) {n : Nat} (hn : 0 < n) :
    inValue s a n = readLe inp a n := by
  by_cases hfits : a + n ≤ inp.length
  · have hrun : readInRun s a n = some ((inp.drop a).take n) :=
      readInRun_eq_some_iff.2 ⟨by rw [List.length_take, List.length_drop]; omega, fun k hk => by
        rw [h.input, List.getElem?_take_of_lt hk, List.getElem?_drop]⟩
    rw [inValue, hrun, readLe, if_pos hfits]
    rfl
  · cases hrun : readInRun s a n with
    | none =>
      rw [inValue, hrun, readLe_eq_none_iff.2 (not_le.1 hfits)]
      rfl
    | some bs =>
      obtain ⟨hlen, hget⟩ := readInRun_spec hrun
      have hlast := hget (n - 1) (by omega)
      rw [h.input, List.getElem?_eq_none (by omega), List.getElem?_eq_getElem (by omega)] at hlast
      cases hlast

/-- The one byte that has a value. -/
theorem Presents.readIn_of_readLe (h : Presents inp s) {a v : Nat} (hv : readLe inp a 1 = some v) :
    ∃ b : Byte, readIn s a = some b ∧ b.toNat = v := by
  rw [← h.inValue_eq a Nat.one_pos, inValue, readInRun] at hv
  cases hb : readIn s a with
  | none => simp [hb] at hv
  | some b => exact ⟨b, rfl, by simpa [hb, readInRun, leNat] using hv⟩

/-- Four bytes of `IN` make a 32-bit value. -/
theorem Presents.inValue_of_readLe (h : Presents inp s) {a v : Nat} (hv : readLe inp a 4 = some v) :
    ∃ x : BitVec 32, x.toNat = v ∧ inValue s a 4 = some x.toNat := by
  have hx : (BitVec.ofNat 32 v).toNat = v := (BitVec.toNat_ofNat ..).trans (Nat.mod_eq_of_lt (readLe_lt hv))
  exact ⟨BitVec.ofNat 32 v, hx, by rw [h.inValue_eq a (by decide), hv, hx]⟩

end

end Sys2Proof.Proofs
end

section
/-!
PROOFS of the family `45_decode_entry_point.md`, the token loop of the step machine is that of the big-step function
(R210), pass by pass: the refill, the flag bit, the token and its copy.
-/

namespace Sys2Proof.Proofs

open Sys2Proof.Machine Sys2Proof.Laws

/-! ## What a state of the loop stands for -/

/-- The state of a call that stands for the arguments of R210's `loop` on `inp`. `FW` counts only while it holds unconsumed
bits (R26). -/
structure Represents (inp : List Byte) (dsize rd : Nat) (out : List Byte) (fw fcnt : Nat) (s : State) : Prop
    extends Presents inp s where
  inv : CallInv s
  cmd : s.cmd = none
  dsize_eq : s.dsize.toNat = dsize
  rd_eq : s.rd.toNat = rd
  wr_eq : s.wr.toNat = out.length
  output : ∀ a, a < out.length → outByte s a = out[a]?
  fcnt_eq : s.fcnt.toNat = fcnt
  fw_eq : fcnt ≠ 0 → s.fw.toNat = fw

/-- The run from `s` has the outcome of a token that R210 gives: it ends with the error, or is back in `LOOP` with the
token's cursor and output. -/
def TokenOutcome (inp : List Byte) (dsize fw fcnt : Nat) (s : State) : Except ErrorKind (Nat × List Byte) → Prop
  | .error k => EndsWith (.error k) s
  | .ok (rd, out) => ∃ t, Reaches s t ∧ t.phase = .loop ∧ Represents inp dsize rd out fw fcnt t

section
variable {inp out out' : List Byte} {dsize rd rd' fw fw' fcnt fcnt' : Nat} {s t : State}

/-- Along a run that leaves the header registers and `IN` alone. -/
theorem Represents.moved (h : Represents inp dsize rd out fw fcnt s) (hrun : Reaches s t)
    (ht : t = { s with
      rd := t.rd, wr := t.wr, cnt := t.cnt, dist := t.dist, fw := t.fw, fcnt := t.fcnt, phase := t.phase, out := t.out })
    (hrd : t.rd.toNat = rd') (hwr : t.wr.toNat = out'.length) (hout : ∀ a, a < out'.length → outByte t a = out'[a]?)
    (hfcnt : t.fcnt.toNat = fcnt') (hfw : fcnt' ≠ 0 → t.fw.toNat = fw') :
    Represents inp dsize rd' out' fw' fcnt' t where
  toPresents := hrun.keeps (P := Presents inp) (fun _ _ => Presents.step) h.toPresents
  inv := hrun.keeps stepKeepsCallInv h.inv
  cmd := by rw [ht]; exact h.cmd
  dsize_eq := by rw [ht]; exact h.dsize_eq
  rd_eq := hrd
  wr_eq := hwr
  output := hout
  fcnt_eq := hfcnt
  fw_eq := hfw

/-- A step that writes no byte of `OUT`. -/
theorem Represents.stepped (h : Represents inp dsize rd out fw fcnt s) (hstep : step s = .next t)
    (ht : t = { s with
      rd := t.rd, cnt := t.cnt, dist := t.dist, fw := t.fw, fcnt := t.fcnt, phase := t.phase })
    (hrd : t.rd.toNat = rd') (hfcnt : t.fcnt.toNat = fcnt') (hfw : fcnt' ≠ 0 → t.fw.toNat = fw') :
    Represents inp dsize rd' out fw' fcnt' t :=
  h.moved (.single hstep) (by rw [ht]) hrd (by rw [ht]; exact h.wr_eq) (by rw [ht]; exact h.output) hfcnt hfw

/-- A run that consumes no flag. -/
theorem Represents.copied (h : Represents inp dsize rd out fw fcnt s) (hrun : Reaches s t)
    (ht : t = { s with rd := t.rd, wr := t.wr, cnt := t.cnt, dist := t.dist, phase := t.phase, out := t.out })
    (hrd : t.rd.toNat = rd') (hwr : t.wr.toNat = out'.length)
    (hout : ∀ a, a < out'.length → outByte t a = out'[a]?) : Represents inp dsize rd' out' fw fcnt t :=
  h.moved hrun (by rw [ht]) hrd hwr hout (by rw [ht]; exact h.fcnt_eq) (by rw [ht]; exact h.fw_eq)

/-- A step that consumes no flag and writes no byte of `OUT`. -/
theorem Represents.started (h : Represents inp dsize rd out fw fcnt s) (hstep : step s = .next t)
    (ht : t = { s with rd := t.rd, cnt := t.cnt, dist := t.dist, phase := t.phase }) (hrd : t.rd.toNat = rd') :
    Represents inp dsize rd' out fw fcnt t :=
  h.stepped hstep (by rw [ht]) hrd (by rw [ht]; exact h.fcnt_eq) (by rw [ht]; exact h.fw_eq)

/-- In the loop `CSIZE` is the buffer's length (R202). -/
theorem Represents.csize_eq (h : Represents inp dsize rd out fw fcnt s) (hl : inLoop s.phase = true) :
    s.csize.toNat = inp.length := by
  obtain ⟨-, -, hcur, -⟩ := (callInv_loop_iff rfl hl).1 h.inv
  exact hcur.csize.trans h.inLen

/-! ## The flag word and the flag bit (R132, R133) -/

/-- Where the big-step function finds no flag word, the step raises. -/
theorem Represents.refill_none (h : Represents inp dsize rd out fw fcnt s) (hp : s.phase = .flag)
    (hrefill : refillIfEmpty inp rd fw fcnt = none) : EndsWith (.error .streamCorruption) s := by
  have hsize := h.csize_eq (by rw [hp]; rfl)
  have hrd := h.rd_eq
  unfold refillIfEmpty at hrefill
  split at hrefill
  · rename_i hzero
    have hcut := readLe_eq_none_iff.1 (Option.map_eq_none_iff.1 hrefill)
    have hempty : s.fcnt = 0#6 := BitVec.eq_of_toNat_eq (h.fcnt_eq.trans hzero)
    exact .of_raise ⟨_, step_cut_first (c := .flagWord) h.cmd hp (fun _ => hempty)
      (by omega : s.csize.toNat < s.rd.toNat + 4), raisedFrom_raise _ s⟩
  · cases hrefill

/-- Elsewhere the machine comes, in one step or none, to the word, the cursor and the count that it gives. -/
theorem Represents.refill_some (h : Represents inp dsize rd out fw fcnt s) (hp : s.phase = .flag) {w r c : Nat}
    (hrefill : refillIfEmpty inp rd fw fcnt = some (w, r, c)) :
    0 < c ∧ ∃ t, Reaches s t ∧ t.phase = .flag ∧ Represents inp dsize r out w c t := by
  have hsize := h.csize_eq (by rw [hp]; rfl)
  have hrd := h.rd_eq
  unfold refillIfEmpty at hrefill
  split at hrefill
  · rename_i hzero
    obtain ⟨v, hv, hq⟩ := Option.map_eq_some_iff.1 hrefill
    cases hq
    have hfits := le_length_of_readLe hv
    have hempty : s.fcnt = 0#6 := BitVec.eq_of_toNat_eq (h.fcnt_eq.trans hzero)
    obtain ⟨x, rfl, hval⟩ := h.inValue_of_readLe hv
    obtain ⟨hloads, -, hstep⟩ := flagWordRefills.1 x s (hsize.trans h.inLen.symm)
    obtain ⟨t, ht, hfw, hrd', hfcnt, hframe⟩ := hloads (by omega)
    rw [← hstep h.cmd hp hempty (by omega) (hrd ▸ hval)] at ht
    exact ⟨by decide, t, .single ht, by rw [hframe]; exact hp,
      h.stepped ht (by rw [hframe]) (by rw [hrd', hrd]) hfcnt (fun _ => by rw [hfw])⟩
  · rename_i hpos
    cases hrefill
    exact ⟨Nat.pos_of_ne_zero hpos, s, .refl s, hp, h⟩

/-- A consumed flag bit selects the family that the big-step function takes (R85). -/
theorem Represents.consume (h : Represents inp dsize rd out fw fcnt s) (hp : s.phase = .flag) (hpos : 0 < fcnt) :
    ∃ t, step s = .next t ∧ t.phase = (if fw % 2 = 0 then .litdec else .matchdec) ∧
      Represents inp dsize rd out (fw / 2) (fcnt - 1) t := by
  obtain ⟨t, ht, hfw, hfcnt, heven, hodd, hframe⟩ := flagBitDispatches s h.cmd hp (h.fcnt_eq ▸ hpos)
  rw [h.fw_eq hpos.ne'] at hfw heven hodd
  refine ⟨t, ht, ?_, h.stepped ht (by rw [hframe]) (by rw [hframe]; exact h.rd_eq) (by rw [hfcnt, h.fcnt_eq])
    (fun _ => hfw)⟩
  split
  · exact heven ‹_›
  · exact hodd (by omega)

/-! ## The literal run (R150 to R153) -/

/-- Behind the sentinel, four bytes of count make the step run the long form with that count (R151). -/
theorem Represents.step_longCount (h : Represents inp dsize rd out fw fcnt s) (hp : s.phase = .litdec) {n : Nat}
    (hb : readLe inp rd 1 = some 0) (hn : readLe inp (rd + 1) 4 = some n) :
    ∃ c : BitVec 32, c.toNat = n ∧ step s = exec (.litL c) s := by
  have hsize := h.csize_eq (by rw [hp]; rfl)
  have hrd := h.rd_eq
  have hfits := le_length_of_readLe hn
  obtain ⟨b, hread, hzero⟩ := h.readIn_of_readLe hb
  obtain rfl : b = 0#8 := BitVec.eq_of_toNat_eq hzero
  obtain ⟨c, rfl, hval⟩ := h.inValue_of_readLe hn
  rw [← hrd] at hread hval
  obtain ⟨-, -, -, hstep⟩ := longLiteralStarts c s (hsize.trans h.inLen.symm)
  exact ⟨c, rfl, hstep h.cmd hp (by omega) hread hval⟩

/-- Where the big-step function finds no count, the step raises. -/
theorem Represents.literalCount_none (h : Represents inp dsize rd out fw fcnt s) (hp : s.phase = .litdec)
    (hcount : literalCount inp rd = none) : ∃ t, step s = .next t ∧ raisedFrom .streamCorruption s t := by
  have hsize := h.csize_eq (by rw [hp]; rfl)
  have hrd := h.rd_eq
  unfold literalCount at hcount
  split at hcount
  · rename_i hb
    have hcut := readLe_eq_none_iff.1 hb
    exact ⟨_, step_cut_first (c := .literal) h.cmd hp nofun (by omega : s.csize.toNat < s.rd.toNat + 1),
      raisedFrom_raise _ s⟩
  · rename_i hb
    cases hn : readLe inp (rd + 1) 4 with
    | none =>
      have hcut := readLe_eq_none_iff.1 hn
      obtain ⟨b, hread, hzero⟩ := h.readIn_of_readLe hb
      obtain rfl : b = 0#8 := BitVec.eq_of_toNat_eq hzero
      rw [← hrd] at hread
      exact ⟨_, step_cut (c := .literal) h.cmd hp nofun hread (by omega : s.csize.toNat < s.rd.toNat + 5),
        raisedFrom_raise _ s⟩
    | some n =>
      obtain ⟨c, rfl, hstep⟩ := h.step_longCount hp hb hn
      obtain rfl : c = 0#32 := BitVec.eq_of_toNat_eq (by simpa [hn] using hcount)
      rw [hstep]
      exact exec_litL_zero s
  · cases hcount

/-- Elsewhere the step runs the literal form with the count that it gives. -/
theorem Represents.literalCount_some (h : Represents inp dsize rd out fw fcnt s) (hp : s.phase = .litdec) {n r : Nat}
    (hcount : literalCount inp rd = some (n, r)) :
    ∃ i w, literalForm i = some (w, n) ∧ n ≠ 0 ∧ r = rd + w ∧ r ≤ inp.length ∧ step s = exec i s := by
  have hsize := h.csize_eq (by rw [hp]; rfl)
  have hrd := h.rd_eq
  obtain ⟨-, hfits⟩ := literalCount_progress hcount
  unfold literalCount at hcount
  split at hcount
  · cases hcount
  · rename_i hb
    obtain ⟨n', hn, hq⟩ := Option.bind_eq_some_iff.1 hcount
    split at hq
    · cases hq
    · rename_i hpos
      cases hq
      obtain ⟨c, rfl, hstep⟩ := h.step_longCount hp hb hn
      exact ⟨.litL c, 5, rfl, hpos, rfl, hfits, hstep⟩
  · rename_i hpos hb
    cases hcount
    obtain ⟨b, hread, rfl⟩ := h.readIn_of_readLe hb
    have hne : b.toNat ≠ 0 := fun h0 => hpos (by rw [h0])
    obtain ⟨-, -, hstep⟩ := shortLiteralStarts b s (hsize.trans h.inLen.symm) hne
    exact ⟨.litS b, 1, rfl, hne, rfl, hfits, hstep h.cmd hp (by omega) (hrd ▸ hread)⟩

/-- The bytes of a literal run are copied behind the output. -/
theorem Represents.literalCopied (h : Represents inp dsize rd out fw fcnt s) (hp : s.phase = .litcopy) {n : Nat}
    (hn : s.cnt.toNat = n) : ∃ t, Reaches s t ∧ t.phase = .loop ∧
      Represents inp dsize (rd + n) (out ++ (inp.drop rd).take n) fw fcnt t := by
  have hsize := h.csize_eq (by rw [hp]; rfl)
  obtain ⟨-, -, -, hcnt, -, hleft⟩ := (callInv_loop_iff hp rfl).1 h.inv
  obtain ⟨k, hk⟩ := Nat.exists_eq_add_of_le' hcnt
  obtain ⟨t, hrun, hcopied, -, hloop⟩ := steps_copy_literal k h.inv h.cmd hp hk
  rw [← hk, hn] at hrun hcopied
  have hrd := h.rd_eq
  have hwr := h.wr_eq
  have hlen : ((inp.drop rd).take n).length = n := by
    rw [List.length_take, List.length_drop]
    omega
  refine ⟨t, ⟨n, hrun⟩, hloop, h.copied ⟨n, hrun⟩ (by rw [hcopied.frame]) (by rw [hcopied.rd, hrd])
    (by rw [hcopied.wr, hwr, List.length_append, hlen]) fun a ha => ?_⟩
  rw [List.length_append, hlen] at ha
  by_cases hold : a < out.length
  · rw [hcopied.kept a (by omega), h.output a hold, List.getElem?_append_left hold]
  · obtain ⟨i, rfl⟩ := Nat.exists_eq_add_of_le (not_lt.1 hold)
    have hi : i < n := by omega
    rw [← hwr, hcopied.copied i hi, h.input, hwr, hrd, List.getElem?_append_right (Nat.le_add_right _ _),
      Nat.add_sub_cancel_left, List.getElem?_take_of_lt hi, List.getElem?_drop]

/-- The literal run of the machine is that of the big-step function. -/
theorem Represents.literalRun_outcome (h : Represents inp dsize rd out fw fcnt s) (hp : s.phase = .litdec) :
    TokenOutcome inp dsize fw fcnt s (literalRun inp dsize rd out) := by
  have hsize := h.csize_eq (by rw [hp]; rfl)
  have hrd := h.rd_eq
  have hwr := h.wr_eq
  have hds := h.dsize_eq
  unfold literalRun
  split
  · rename_i hcount
    exact .of_raise (h.literalCount_none hp hcount)
  · rename_i n r hcount
    obtain ⟨i, w, hform, hn, rfl, hfits, hstep⟩ := h.literalCount_some hp hcount
    obtain ⟨hraise, hstart⟩ := literalChecksDecide i w n s hform hn (hsize.trans h.inLen.symm) (by omega)
    rw [← hstep] at hraise hstart
    split
    · exact .of_raise (hraise (by omega))
    · obtain ⟨t, ht, hcnt, hrd', hp', hframe⟩ := hstart (by omega) (by omega)
      have ht' := h.started ht (by rw [hframe]) (hrd'.trans (congrArg (· + w) hrd))
      obtain ⟨u, hu, hloop, hrep⟩ := ht'.literalCopied hp' hcnt
      exact ⟨u, .head ht hu, hloop, hrep⟩

/-! ## The match token (R165 to R173, R186) -/

/-- A first byte's width is that of any value it is the lowest digit of. -/
theorem matchWidth_mod (v : Nat) : matchWidth (v % 256) = matchWidth v := by
  simp only [matchWidth, show v % 256 % 4 = v % 4 by omega]

/-- The match form whose encoding has the value of a token's bytes (R166 to R169). -/
theorem exists_matchForm {v d l : Nat} (hv : v < 256 ^ matchWidth v) (hf : matchFields v = some (d, l)) :
    ∃ i, i.WellFormed = true ∧ matchForm i = some (matchWidth v, d, l) ∧ contextOf i = .backref ∧
      leNat (encode i) = v := by
  unfold matchFields at hf
  unfold matchWidth at hv ⊢
  split_ifs at hf hv ⊢ with h0 h1 h2 hlen
  · cases hf
    refine ⟨.m1 (BitVec.ofNat 6 (v / 4)), rfl, rfl, rfl, ?_⟩
    rw [leNat_encode_m1, BitVec.toNat_ofNat]
    omega
  · cases hf
    refine ⟨.m2a (BitVec.ofNat 14 (v / 4)), rfl, rfl, rfl, ?_⟩
    rw [leNat_encode_m2a, BitVec.toNat_ofNat]
    omega
  · cases hf
    refine ⟨.m2b (BitVec.ofNat 4 (v / 4)) (BitVec.ofNat 10 (v / 64)), rfl, rfl, rfl, ?_⟩
    rw [leNat_encode_m2b, BitVec.toNat_ofNat, BitVec.toNat_ofNat]
    omega
  · cases hf
    have hl : (BitVec.ofNat 5 (v / 4)).toNat = v / 4 % 32 := rfl
    refine ⟨.m3 (BitVec.ofNat 5 (v / 4)) (BitVec.ofNat 17 (v / 128)), ?_, rfl, rfl, ?_⟩
    · rw [m3_wellFormed_iff, hl]
      exact Nat.pos_of_ne_zero hlen
    · rw [leNat_encode_m3, hl, BitVec.toNat_ofNat]
      omega

/-- A value without fields has the first byte of a reserved pattern (R172). -/
theorem firstByte_of_matchFields_none {v : Nat} {b0 : Byte} (hb : v % 256 = b0.toNat) (hf : matchFields v = none) :
    b0 = 0x03#8 ∨ b0 = 0x83#8 := by
  have hlt := b0.isLt
  simp only [matchFields] at hf
  simp only [BitVec.toNat_eq, BitVec.toNat_ofNat]
  split_ifs at hf
  omega

/-- Where the big-step function finds no operands, the step raises. -/
theorem Represents.matchOperands_none (h : Represents inp dsize rd out fw fcnt s) (hp : s.phase = .matchdec)
    (hops : matchOperands inp rd = none) : ∃ t, step s = .next t ∧ raisedFrom .streamCorruption s t := by
  have hsize := h.csize_eq (by rw [hp]; rfl)
  have hrd := h.rd_eq
  cases hb : readLe inp rd 1 with
  | none =>
    have hcut := readLe_eq_none_iff.1 hb
    exact ⟨_, step_cut_first (c := .backref) h.cmd hp nofun (by omega : s.csize.toNat < s.rd.toNat + 1),
      raisedFrom_raise _ s⟩
  | some v0 =>
    obtain ⟨b0, hread, rfl⟩ := h.readIn_of_readLe hb
    rw [← hrd] at hread
    cases hv : readLe inp rd (matchWidth b0.toNat) with
    | none =>
      have hcut := readLe_eq_none_iff.1 hv
      exact ⟨_, step_cut (c := .backref) h.cmd hp nofun hread
        (by rw [itemWidth_backref]; exact (by omega : s.csize.toNat < s.rd.toNat + matchWidth b0.toNat)),
        raisedFrom_raise _ s⟩
    | some v =>
      have hf : matchFields v = none := by simpa [matchOperands, hb, hv] using hops
      have hb0 := firstByte_of_matchFields_none (readLe_mod hb hv (matchWidth_pos _)) hf
      obtain ⟨hin, -⟩ := h.inv
      exact reservedPatternRaises.2 b0 s h.cmd hp (hsize.trans h.inLen.symm) hin hread hb0

/-- Elsewhere the step runs the match form with the operands that it gives. -/
theorem Represents.matchOperands_some (h : Represents inp dsize rd out fw fcnt s) (hp : s.phase = .matchdec)
    {d l r : Nat} (hops : matchOperands inp rd = some (d, l, r)) :
    ∃ i w, i.WellFormed = true ∧ matchForm i = some (w, d, l) ∧ r = rd + w ∧ step s = exec i s := by
  have hsize := h.csize_eq (by rw [hp]; rfl)
  have hrd := h.rd_eq
  obtain ⟨b0, hb, htoken⟩ := Option.bind_eq_some_iff.1 hops
  obtain ⟨v, hv, hmap⟩ := Option.bind_eq_some_iff.1 htoken
  obtain ⟨f, hf, hq⟩ := Option.map_eq_some_iff.1 hmap
  cases hq
  have hw : matchWidth b0 = matchWidth v := by rw [← readLe_mod hb hv (matchWidth_pos _), matchWidth_mod]
  rw [hw] at hv
  obtain ⟨i, hwf, hform, hctx, hval⟩ := exists_matchForm (readLe_lt hv) hf
  have hlen := encode_length_of_matchForm hwf hform
  have hfits := le_length_of_readLe hv
  refine ⟨i, matchWidth v, hwf, hform, by rw [hw], step_match_of_inValue hwf hctx (by omega) h.cmd hp ?_⟩
  rw [hlen, h.inValue_eq _ (matchWidth_pos v), hrd, hv, hval]

/-- The bytes of a match are copied behind the output, each from `DIST` before it. -/
theorem Represents.matchCopied (h : Represents inp dsize rd out fw fcnt s) (hp : s.phase = .matchcopy) {d n : Nat}
    (hd : s.dist.toNat = d) (hn : s.cnt.toNat = n) :
    ∃ t out', copyBack d n out = some out' ∧ Reaches s t ∧ t.phase = .loop ∧
      Represents inp dsize rd out' fw fcnt t := by
  obtain ⟨-, -, -, hcnt, -, hdist, hsrc⟩ := (callInv_loop_iff hp rfl).1 h.inv
  obtain ⟨t, hrun, hcopied, hzero, hloop⟩ := steps_copy_match n h.inv h.cmd hn (by rw [hp, if_neg (by omega)])
  have hwr := h.wr_eq
  obtain ⟨out', hcopy, hlen, hkept, hrepeats⟩ := copyBack_spec (hd ▸ hdist) (by omega : d ≤ out.length) n
  have htotal := hcopied.total
  refine ⟨t, out', hcopy, ⟨n, hrun⟩, hloop, h.copied ⟨n, hrun⟩ (by rw [hcopied.frame])
    (by rw [hcopied.frame]; exact h.rd_eq) (by omega) fun a => ?_⟩
  induction a using Nat.strong_induction_on with
  | h a ih =>
    intro ha
    by_cases hold : a < out.length
    · rw [hcopied.kept a (by omega), h.output a hold, hkept a hold]
    · have hge := not_lt.1 hold
      rw [hcopied.repeats a (by omega) (by omega), hrepeats a hge ha, hd, ih (a - d) (by omega) (by omega)]

/-- The match of the machine is that of the big-step function. -/
theorem Represents.matchRun_outcome (h : Represents inp dsize rd out fw fcnt s) (hp : s.phase = .matchdec)
    {e : Except ErrorKind (Nat × List Byte)} (he : matchRun inp dsize rd out = some e) :
    TokenOutcome inp dsize fw fcnt s e := by
  have hsize := h.csize_eq (by rw [hp]; rfl)
  have hrd := h.rd_eq
  have hwr := h.wr_eq
  have hds := h.dsize_eq
  unfold matchRun at he
  split at he
  · rename_i hops
    cases he
    exact .of_raise (h.matchOperands_none hp hops)
  · rename_i d l r hops
    have hfits := matchOperands_progress hops
    obtain ⟨i, w, hwf, hform, rfl, hstep⟩ := h.matchOperands_some hp hops
    obtain ⟨hraise, hstart⟩ := matchChecksDecide i w d l s hwf hform (hsize.trans h.inLen.symm)
    rw [← hstep] at hraise hstart
    split at he
    · cases he
      exact .of_raise (hraise (by omega))
    · obtain ⟨t, ht, hdist, hcnt, hrd', hp', hframe⟩ := hstart (by omega) (by omega) (by omega) (by omega)
      have ht' := h.started ht (by rw [hframe]) (hrd'.trans (congrArg (· + w) hrd))
      obtain ⟨u, out', hcopy, hu, hloop, hrep⟩ := ht'.matchCopied hp' hdist hcnt
      rw [hcopy] at he
      cases he
      exact ⟨u, .head ht hu, hloop, hrep⟩

/-! ## The loop -/

/-- The token of the machine, by its flag bit, is that of the big-step function. -/
theorem Represents.tokenRun_outcome (h : Represents inp dsize rd out fw fcnt s) {flag : Nat}
    (hp : s.phase = if flag = 0 then .litdec else .matchdec) {e : Except ErrorKind (Nat × List Byte)}
    (he : tokenRun flag inp dsize rd out = some e) : TokenOutcome inp dsize fw fcnt s e := by
  unfold tokenRun at he
  split at he
  · rename_i hflag
    cases he
    exact h.literalRun_outcome (by rw [hp, if_pos hflag])
  · rename_i hflag
    exact h.matchRun_outcome (by rw [hp, if_neg hflag]) he

/-- The end of the loop: exactly the whole input was consumed, or the step raises (R206, R207). -/
theorem Represents.final_endsWith (h : Represents inp dsize rd out fw fcnt s) (hp : s.phase = .final) :
    EndsWith (if rd = inp.length then .ok out else .error .streamCorruption) s := by
  have hsize := h.csize_eq (by rw [hp]; rfl)
  have hrd := h.rd_eq
  obtain ⟨-, -, hcur, hfull⟩ := (callInv_loop_iff hp rfl).1 h.inv
  obtain ⟨m, hm, -⟩ := outFilled_iff.1 hcur.out_filled
  have hlen : s.dsize.toNat = out.length := by rw [← hfull, h.wr_eq]
  obtain ⟨hraise, hsucceed⟩ := finalCheckDecides s h.cmd hp
  split
  · obtain ⟨t, ht, hok, houtLen, hdone, hframe⟩ := hsucceed (by omega)
    have hout : t.out = s.out := by rw [hframe]
    refine .of_success ht hdone hok (hostOutput_of_outByte hdone hok (by rw [hout, hm]; rfl) (by rw [houtLen, hlen]) ?_)
    exact fun k hk => (outByte_of_out_eq hout k).trans (h.output k hk)
  · exact .of_raise (hraise (by omega))

/-- By induction on the passes: the machine, at the head of its loop, ends with what R210's `loop` gives. -/
theorem Represents.decodeLoop_endsWith {fuel : Nat} (h : Represents inp dsize rd out fw fcnt s) (hp : s.phase = .loop)
    {e : Except ErrorKind (List Byte)} (he : decodeLoop inp dsize fuel rd out fw fcnt = some e) : EndsWith e s := by
  induction fuel generalizing s rd out fw fcnt with
  | zero => cases he
  | succ fuel ih =>
    obtain ⟨t, ht, hfinal, hflag, hframe⟩ := loopTestDecides s h.cmd hp
    have ht' : Represents inp dsize rd out fw fcnt t :=
      h.started ht (by rw [hframe]) (by rw [hframe]; exact h.rd_eq)
    have hfull : s.wr = s.dsize ↔ out.length = dsize := by rw [BitVec.toNat_eq, h.wr_eq, h.dsize_eq]
    refine .of_reaches (.single ht) ?_
    rw [decodeLoop] at he
    split at he
    · rename_i hlen
      cases he
      exact ht'.final_endsWith (hfinal (hfull.2 hlen))
    · rename_i hlen
      have hp' := hflag (mt hfull.1 hlen)
      split at he
      · rename_i hrefill
        cases he
        exact ht'.refill_none hp' hrefill
      · rename_i w r c hrefill
        obtain ⟨hpos, u, hu, hpu, hrep⟩ := ht'.refill_some hp' hrefill
        obtain ⟨v, hv, hpv, hrepv⟩ := hrep.consume hpu hpos
        refine .of_reaches (hu.trans (.single hv)) ?_
        split at he
        · cases he
        · rename_i k htoken
          cases he
          exact hrepv.tokenRun_outcome hpv htoken
        · rename_i rd' out' htoken
          obtain ⟨x, hx, hpx, hrepx⟩ := hrepv.tokenRun_outcome hpv htoken
          exact .of_reaches hx (ih hrepx hpx he)

end

end Sys2Proof.Proofs
end

section
/-!
PROOFS of the family `45_decode_entry_point.md`, the whole call (R210): from the launch to `DONE` the step machine
computes the big-step function.
-/

namespace Sys2Proof.Proofs

open Sys2Proof.Machine Sys2Proof.Laws

section
variable {inp : List Byte} {s t : State} {e : Except ErrorKind (List Byte)}

/-! ## The header (R201) -/

/-- The whole of `IN` is one run. -/
theorem Presents.readInRun_eq (h : Presents inp s) : readInRun s 0 s.inLen.toNat = some inp :=
  readInRun_eq_some_iff.2 ⟨h.inLen.symm, fun k _ => by rw [h.input, Nat.zero_add]⟩

/-- A whole header is loaded, with the fields that R210 takes from it. -/
theorem step_header_fields {i : Instr} {rest : List Byte} (hc : s.cmd = none) (hp : s.phase = .header)
    (h : Presents inp s) (hd : decode .header inp = .ok (i, rest)) :
    ∃ ctrl hlen dsize plen, step s = .next (loadHeader ctrl hlen dsize plen s) ∧
      headerFields inp = some (hlen.toNat, dsize.toNat, plen.toNat) := by
  have hlen := h.inLen
  rw [step_of_decode_ok hc hp h.readInRun_eq hd]
  obtain ⟨hwf, hctx, rfl⟩ := decode_eq_ok_iff.1 hd
  rw [List.length_append] at hlen
  obtain ⟨ctrl, dlen, plen, rfl⟩ | ⟨ctrl, dlen, plen, rfl⟩ := header_cases hctx
  · have hext := (hdrC_wellFormed_iff ctrl dlen plen).1 hwf
    refine ⟨ctrl, 3#4, _, _, exec_hdrC_eq ctrl dlen plen ((Nat.le_add_right _ _).trans_eq hlen.symm), ?_⟩
    rw [headerFields_hdrC hext, zext_toNat, zext_toNat]
    rfl
  · exact ⟨ctrl, 9#4, dlen, plen, exec_hdrX_eq ctrl dlen plen ((Nat.le_add_right _ _).trans_eq hlen.symm),
      headerFields_hdrX hwf dlen plen rest⟩

/-! ## The allocation (R203, R204) -/

/-- What R210 does once the size check has passed. -/
def decodeAllocated (inp : List Byte) (allocOk : Nat → Bool) (hlen dsize : Nat) :
    Option (Except ErrorKind (List Byte)) :=
  if allocOk dsize = false then some (.error .allocationFailure)
  else if dsize = 0 then some (.ok [])
  else decodeLoop inp dsize (inp.length + 1) hlen [] 0 0

theorem decodeCall_eq_of_headerFields {hlen dsize plen : Nat} (h : headerFields inp = some (hlen, dsize, plen))
    (allocOk : Nat → Bool) : decodeCall inp allocOk =
      if hlen + plen ≠ inp.length then some (.error .sizeMismatch) else decodeAllocated inp allocOk hlen dsize := by
  simp only [decodeCall, h, decodeAllocated]

/-- Entry to the loop: the cursor stands behind the header, and nothing is written or left to consume. -/
theorem step_enters (hs : CallInv s) (hc : s.cmd = none) (hp : s.phase = .alloc) (h : Presents inp s)
    (hd : s.dsize.toNat ≠ 0) (hok : s.allocOk = true) :
    ∃ t, step s = .next t ∧ t.phase = .loop ∧ Represents inp s.dsize.toNat s.hlen.toNat [] 0 0 t := by
  obtain ⟨-, -, hgranted⟩ := allocationDecides s hc hp
  obtain ⟨t, ht, hloop, hrd, hwr, hfcnt, -, -, hframe⟩ := hgranted hd hok
  exact ⟨t, ht, hloop, {
    toPresents := h.step ht
    inv := stepKeepsCallInv s t hs ht
    cmd := by rw [hframe]; exact hc
    dsize_eq := by rw [hframe]
    rd_eq := hrd
    wr_eq := hwr
    output := fun _ ha => absurd ha (Nat.not_lt_zero _)
    fcnt_eq := hfcnt
    fw_eq := fun h0 => absurd rfl h0 }⟩

/-- From phase `ALLOC` on, where the environment's answer is `alloc_ok(DSIZE)` and `alloc_ok(0)` is true (R13). -/
theorem alloc_endsWith {allocOk : Nat → Bool} (hzero : allocOk 0 = true) (hs : CallInv s) (hc : s.cmd = none)
    (hp : s.phase = .alloc) (h : Presents inp s) (hok : s.allocOk = allocOk s.dsize.toNat)
    (he : decodeAllocated inp allocOk s.hlen.toNat s.dsize.toNat = some e) : EndsWith e s := by
  obtain ⟨hrefused, hempty, -⟩ := allocationDecides s hc hp
  unfold decodeAllocated at he
  split_ifs at he with hno hd
  · cases he
    have hd : s.dsize.toNat ≠ 0 := fun hd => by simp [hd, hzero] at hno
    exact .of_raise (hrefused hd (hok.trans hno))
  · cases he
    obtain ⟨t, ht, hdone, hstatus, -, hout, -⟩ := hempty hd
    exact .of_success ht hdone hstatus hout
  · obtain ⟨t, ht, hloop, hrep⟩ := step_enters hs hc hp h hd (hok.trans (Bool.eq_true_of_not_eq_false hno))
    exact .of_reaches (.single ht) (hrep.decodeLoop_endsWith hloop he)

/-! ## The call -/

/-- From phase `HEADER` on the machine ends with what R210 gives. -/
theorem header_endsWith {allocOk : Nat → Bool} (hzero : allocOk 0 = true) (hs : CallInv s) (hc : s.cmd = none)
    (hp : s.phase = .header) (h : Presents inp s)
    (hok : ∀ d, decompressedSize inp = some d → s.allocOk = allocOk d) (he : decodeCall inp allocOk = some e) :
    EndsWith e s := by
  cases hd : decode .header inp with
  | error c =>
    rw [decodeCall, headerFields_eq_none_of_decode_error hd] at he
    cases he
    exact .of_raise ⟨_, step_of_decode_error hc hp h.readInRun_eq hd, raisedFrom_raise _ s⟩
  | ok q =>
    obtain ⟨ctrl, hlen, dsize, plen, hload, hfields⟩ := step_header_fields hc hp h hd
    have hsize := loadHeader_csize_toNat ctrl hlen dsize plen s
    have hpres := h.step hload
    have hinv := stepKeepsCallInv _ _ hs hload
    have hin := hpres.inLen
    obtain ⟨-, hds⟩ := inspector_of_headerFields hfields
    obtain ⟨hpass, hfail⟩ := sizeCheckDecides (loadHeader ctrl hlen dsize plen s) hc rfl
    refine .of_reaches (.single hload) ?_
    rw [decodeCall_eq_of_headerFields hfields] at he
    split at he
    · cases he
      exact .of_raise (hfail (by omega))
    · have hstep := hpass (by omega)
      exact .of_reaches (.single hstep)
        (alloc_endsWith hzero (stepKeepsCallInv _ _ hinv hstep) hc rfl (hpres.step hstep) (hok _ hds) he)

end

/-- Settles O57: the launched call takes `start`, and ends with the result that the big-step function gives. -/
theorem stepMachineComputesDecode : Obligations.StepMachineComputesDecode := by
  intro inp allocOk granted s t hzero hgranted hs hl
  obtain ⟨e, he⟩ := wholeCallIsTotal inp allocOk
  have hpres : Presents inp t := ⟨inLen_of_launch hl, readIn_of_launch hl⟩
  have hinv := callInv_of_launch hl hs
  obtain ⟨⟨hp, -, -⟩, ht⟩ := launch_eq_some_iff.1 hl
  have hstart : step t = .next (beginCall t) := step_start (by rw [ht]) (by rw [ht]; exact hp)
  have hok : (beginCall t).allocOk = granted := by rw [ht]; rfl
  have hend : EndsWith e (beginCall t) :=
    header_endsWith hzero (stepKeepsCallInv _ _ hinv hstart) rfl rfl (hpres.step hstart)
      (fun d hd => hok.trans (hgranted d hd)) he
  obtain ⟨u, ⟨k, hk⟩, hdone, hresult⟩ := EndsWith.of_reaches (.single hstart) hend
  exact ⟨k, u, hk, hdone, hresult.trans he.symm⟩

end Sys2Proof.Proofs
end

section
/-!
PROOFS of the family `60_exceptions.md`: what `raise` does (R240, R31), and `StreamCorruption` as exactly its thirteen
causes (R224).
-/

namespace Sys2Proof.Proofs

open Sys2Proof.Machine Sys2Proof.Laws

/-! ## The exception entry (R240) -/

/-- No error has the code of success (R31). -/
theorem errorCode_ne_statusOk (k : ErrorKind) : errorCode k ≠ statusOk := by
  cases k <;> decide

/-- An error hands no output over (R37, R262). -/
theorem hostOutput_raise (k : ErrorKind) (s : State) : hostOutput (raise k s) = none :=
  if_neg fun ⟨_, hok⟩ => errorCode_ne_statusOk k hok

/-- The host's result is the error that was raised (R3). -/
theorem hostResult_raise (k : ErrorKind) (s : State) : hostResult (raise k s) = some (.error k) := by
  simp only [hostResult, raise_phase, if_true, raise_status, errorKindOf_errorCode]

/-- Settles O42: the writes are the definition's own, the codes are one a kind, and the host sees the error only. -/
theorem raiseEndsCall : Obligations.RaiseEndsCall := by
  intro k s
  refine ⟨rfl, ?codes, hostOutput_raise k s, hostResult_raise k s⟩
  case codes => cases k <;> rfl

/-! ## A step that ends the call with `StreamCorruption` -/

/-- The step from `s` ends the call with code 3. -/
def Corrupts (s : State) : Prop := ∃ t, step s = .next t ∧ t.phase = .done ∧ t.status = 3#3

section
variable {s t : State}

theorem corrupts_iff_of_step (h : step s = .next t) : Corrupts s ↔ t.phase = .done ∧ t.status = 3#3 := by
  simp only [Corrupts, h, Host.Outcome.next.injEq, exists_eq_left']

theorem Corrupts.of_raise (h : ∃ t, step s = .next t ∧ raisedFrom .streamCorruption s t) : Corrupts s := by
  obtain ⟨t, ht, hcode, -, hdone, -⟩ := h
  exact ⟨t, ht, hdone, hcode⟩

theorem not_corrupts_of_phase (h : step s = .next t) (ht : t.phase ≠ .done) : ¬ Corrupts s :=
  fun hx => ht ((corrupts_iff_of_step h).1 hx).1

/-- The copy phases, like the phases before the loop and the loop test, cannot fail this way (R224). -/
theorem Corrupts.phase (h : Corrupts s) (hs : s.phase ≠ .done) :
    s.phase = .flag ∨ s.phase = .litdec ∨ s.phase = .matchdec ∨ s.phase = .final := by
  obtain ⟨t, ht, hdone, hcode⟩ := h
  simpa [hcode] using eachCodeFromItsPhases s t ht hs hdone

/-- In `FINAL`, some of the input is left over (R206, R207). -/
theorem corrupts_final_iff (hc : s.cmd = none) (hp : s.phase = .final) :
    Corrupts s ↔ s.rd.toNat ≠ s.csize.toNat := by
  obtain ⟨hraise, hsucceed⟩ := finalCheckDecides s hc hp
  refine ⟨fun h heq => ?_, fun hne => .of_raise (hraise hne)⟩
  obtain ⟨t, ht, hok, -⟩ := hsucceed heq
  obtain ⟨-, hcode⟩ := (corrupts_iff_of_step ht).1 h
  exact absurd (hok.symm.trans hcode) (by decide)

end

/-! ## The token at `RD`, as the causes and as the big-step function read it -/

section
variable {inp : List Byte} {s : State}

/-- Where the host presented every byte of `IN`, it is a buffer (R270). -/
theorem exists_presents (h : s.inp.filled s.inLen.toNat) : ∃ inp, Presents inp s := by
  obtain ⟨inp, hlen, hget⟩ := exists_bytes_of_filled h
  refine ⟨inp, hlen.symm, fun a => ?_⟩
  rw [readIn]
  split
  · exact hget a ‹_›
  · exact (List.getElem?_eq_none (by omega)).symm

/-- Bytes of `IN` have no value where one of them lies beyond its end (R17). -/
theorem Presents.inValue_eq_none_iff (h : Presents inp s) {a n : Nat} (hn : 0 < n) :
    inValue s a n = none ↔ a + n > inp.length := by
  rw [h.inValue_eq a hn, readLe_eq_none_iff]

/-! The three branches of `literalAt` (R150, R151) and of R210's count. -/

theorem literalAt_of_absent (hb : inValue s s.rd.toNat 1 = none) : literalAt s = none := by
  simp only [literalAt, hb]

theorem literalAt_of_sentinel (hb : inValue s s.rd.toNat 1 = some 0) :
    literalAt s = (inValue s (s.rd.toNat + 1) 4).map fun n => (n, 5) := by
  simp only [literalAt, hb]

theorem literalAt_of_short {n : Nat} (hb : inValue s s.rd.toNat 1 = some (n + 1)) : literalAt s = some (n + 1, 1) := by
  simp only [literalAt, hb]

theorem literalCount_of_absent {rd : Nat} (hb : readLe inp rd 1 = none) : literalCount inp rd = none := by
  simp only [literalCount, hb]

theorem literalCount_of_sentinel {rd : Nat} (hb : readLe inp rd 1 = some 0) :
    literalCount inp rd = (readLe inp (rd + 1) 4).bind fun n => if n = 0 then none else some (n, rd + 5) := by
  simp only [literalCount, hb]

theorem literalCount_of_short {rd n : Nat} (hb : readLe inp rd 1 = some (n + 1)) :
    literalCount inp rd = some (n + 1, rd + 1) := by
  simp only [literalCount, hb]

/-- R210's count is the one at `RD`, unless it is 0. -/
theorem Presents.literalCount_eq (h : Presents inp s) : literalCount inp s.rd.toNat =
    (literalAt s).bind fun q => if q.1 = 0 then none else some (q.1, s.rd.toNat + q.2) := by
  have hread := h.inValue_eq s.rd.toNat Nat.one_pos
  match hb : readLe inp s.rd.toNat 1 with
  | none => rw [literalCount_of_absent hb, literalAt_of_absent (hread.trans hb), Option.bind_none]
  | some 0 =>
    rw [literalCount_of_sentinel hb, literalAt_of_sentinel (hread.trans hb), h.inValue_eq _ (Nat.succ_pos 3),
      Option.bind_map]
    rfl
  | some (n + 1) =>
    rw [literalCount_of_short hb, literalAt_of_short (hread.trans hb), Option.bind_some, if_neg (Nat.succ_ne_zero n)]

/-- R210's operands are those at `RD`. -/
theorem Presents.matchAt_eq (h : Presents inp s) :
    matchAt s = (matchOperands inp s.rd.toNat).map fun q => (q.1, q.2.1) := by
  simp only [matchAt, matchOperands, h.inValue_eq _ Nat.one_pos, h.inValue_eq _ (matchWidth_pos _), Option.map_bind]
  refine Option.bind_congr fun b0 _ => ?_
  rw [Function.comp_apply, Option.map_bind]
  refine Option.bind_congr fun v _ => ?_
  rw [Function.comp_apply, Option.map_map]
  exact Option.map_id'.symm

/-- No count field is whole at `RD` where the count byte or a long count is cut short. -/
theorem Presents.literalAt_eq_none_iff (h : Presents inp s) : literalAt s = none ↔
    s.rd.toNat + 1 > inp.length ∨ inValue s s.rd.toNat 1 = some 0 ∧ s.rd.toNat + 5 > inp.length := by
  have hlong : s.rd.toNat + 5 > inp.length ↔ inValue s (s.rd.toNat + 1) 4 = none :=
    (h.inValue_eq_none_iff (Nat.succ_pos 3)).symm
  rw [← h.inValue_eq_none_iff Nat.one_pos, hlong]
  match hb : inValue s s.rd.toNat 1 with
  | none => simp only [literalAt_of_absent hb, true_or]
  | some 0 => simp only [literalAt_of_sentinel hb, Option.map_eq_none_iff, reduceCtorEq, false_or, true_and]
  | some (n + 1) =>
    simp only [literalAt_of_short hb, Option.some.injEq, reduceCtorEq, Nat.succ_ne_zero, false_and, or_false]

/-- Only a long count can be 0: a count byte of 0 is the sentinel (R86, R94). -/
theorem literalAt_zero_iff : (∃ n w, literalAt s = some (n, w) ∧ n = 0) ↔
    inValue s s.rd.toNat 1 = some 0 ∧ inValue s (s.rd.toNat + 1) 4 = some 0 := by
  match hb : inValue s s.rd.toNat 1 with
  | none => simp [literalAt_of_absent hb]
  | some 0 => simp [literalAt_of_sentinel hb]
  | some (n + 1) => simp [literalAt_of_short hb]

/-- R172's pattern is the only one without fields. -/
theorem matchFields_eq_none_iff (v : Nat) : matchFields v = none ↔ v % 4 = 3 ∧ v / 4 % 32 = 0 := by
  unfold matchFields
  split_ifs <;> simp <;> omega

/-- No operands stand at `RD` where the first byte is missing, the token is cut short, or the pattern is reserved. -/
theorem Presents.matchAt_eq_none_iff (h : Presents inp s) : matchAt s = none ↔
    s.rd.toNat + 1 > inp.length ∨
    (∃ b0, inValue s s.rd.toNat 1 = some b0 ∧ s.rd.toNat + matchWidth b0 > inp.length) ∨
    ∃ b0, inValue s s.rd.toNat 1 = some b0 ∧ b0 % 4 = 3 ∧ b0 / 4 % 32 = 0 := by
  rw [← h.inValue_eq_none_iff Nat.one_pos, matchAt]
  cases hb : inValue s s.rd.toNat 1 with
  | none => simp
  | some b0 =>
    have hpos := matchWidth_pos b0
    simp only [Option.bind_some, reduceCtorEq, false_or, Option.some.injEq, exists_eq_left',
      ← h.inValue_eq_none_iff hpos]
    cases hv : inValue s s.rd.toNat (matchWidth b0) with
    | none => simp
    | some v =>
      rw [h.inValue_eq _ Nat.one_pos] at hb
      rw [h.inValue_eq _ hpos] at hv
      have hmod := readLe_mod hb hv hpos
      simp only [Option.bind_some, matchFields_eq_none_iff, reduceCtorEq, false_or]
      omega

end

/-! ## Where a step of the loop raises -/

section
variable {inp out : List Byte} {s : State}

/-- A state of the loop as the arguments of R210's `loop`, which its own registers and spaces give. -/
theorem exists_represents (hs : CallInv s) (hc : s.cmd = none) (hl : inLoop s.phase = true) :
    ∃ inp out, Represents inp s.dsize.toNat s.rd.toNat out s.fw.toNat s.fcnt.toNat s := by
  obtain ⟨hin, -, hcur, -⟩ := (callInv_loop_iff rfl hl).1 hs
  obtain ⟨m, hm, hfilled⟩ := outFilled_iff.1 hcur.out_filled
  obtain ⟨inp, hinp⟩ := exists_presents hin
  obtain ⟨out, hlen, hget⟩ := exists_bytes_of_filled hfilled
  exact ⟨inp, out, {
    toPresents := hinp
    inv := hs
    cmd := hc
    dsize_eq := rfl
    rd_eq := rfl
    wr_eq := hlen.symm
    output := fun a ha => by simpa only [outByte, hm] using hget a (hlen ▸ ha)
    fcnt_eq := rfl
    fw_eq := fun _ => rfl }⟩

variable (h : Represents inp s.dsize.toNat s.rd.toNat out s.fw.toNat s.fcnt.toNat s)
include h

/-- In `FLAG`, the flag word that is due is cut short (R132); a flag bit that is left is always consumed (R133). -/
theorem Represents.corrupts_flag_iff (hp : s.phase = .flag) :
    Corrupts s ↔ s.fcnt = 0#6 ∧ s.rd.toNat + 4 > s.csize.toNat := by
  have hsize := h.csize_eq (by rw [hp]; rfl)
  by_cases hf : s.fcnt = 0#6
  · by_cases hcut : s.rd.toNat + 4 > s.csize.toNat
    · exact iff_of_true (.of_raise ⟨_, step_cut_first (c := .flagWord) h.cmd hp (fun _ => hf) hcut,
        raisedFrom_raise _ s⟩) ⟨hf, hcut⟩
    · have hwhole := not_lt.1 hcut
      obtain ⟨w, -, hval⟩ := h.inValue_of_readLe (if_pos (hwhole.trans_eq hsize))
      obtain ⟨-, -, hstep⟩ := flagWordRefills.1 w s (hsize.trans h.inLen.symm)
      have hrefill := (hstep h.cmd hp hf hwhole hval).trans (exec_flagw_eq w hwhole)
      exact iff_of_false (not_corrupts_of_phase hrefill (by simp [hp])) (fun hq => hcut hq.2)
  · exact iff_of_false (not_corrupts_of_phase (step_flagBit h.cmd hp hf) (flagPhase_ne_done _)) (fun hq => hf hq.1)

/-- In `LITDEC`, there is no whole count, it is 0, or the output or the input has no room for it (R150 to R152). -/
theorem Represents.corrupts_litdec_iff (hp : s.phase = .litdec) :
    Corrupts s ↔ literalAt s = none ∨ ∃ n w, literalAt s = some (n, w) ∧
      (n = 0 ∨ n > s.dsize.toNat - s.wr.toNat ∨ n > s.csize.toNat - (s.rd.toNat + w)) := by
  have hcount := h.literalCount_eq
  have hsize := h.csize_eq (by rw [hp]; rfl)
  cases hl : literalAt s with
  | none =>
    rw [hl] at hcount
    exact iff_of_true (.of_raise (h.literalCount_none hp hcount)) (.inl rfl)
  | some q =>
    obtain ⟨n, w⟩ := q
    simp only [reduceCtorEq, false_or, Option.some.injEq, Prod.mk.injEq, and_assoc, exists_and_left, exists_eq_left']
    rw [hl, Option.bind_some] at hcount
    split at hcount
    · exact iff_of_true (.of_raise (h.literalCount_none hp hcount)) (.inl ‹_›)
    · rename_i hn
      obtain ⟨i, w', hform, -, hw, hfits, hstep⟩ := h.literalCount_some hp hcount
      obtain rfl : w = w' := Nat.add_left_cancel hw
      obtain ⟨hraise, hstart⟩ :=
        literalChecksDecide i w n s hform hn (hsize.trans h.inLen.symm) (hfits.trans_eq hsize.symm)
      rw [← hstep] at hraise hstart
      refine ⟨fun hx => ?_, fun hx => .of_raise (hraise (hx.resolve_left hn))⟩
      by_contra hok
      obtain ⟨t, ht, -, -, hp', -⟩ := hstart (by omega) (by omega)
      exact not_corrupts_of_phase ht (by simp [hp']) hx

/-- In `MATCHDEC`, there are no operands, or one of the checks on them fails (R165, R170 to R172). -/
theorem Represents.corrupts_matchdec_iff (hp : s.phase = .matchdec) :
    Corrupts s ↔ matchAt s = none ∨ ∃ d l, matchAt s = some (d, l) ∧
      (d = 0 ∨ d > s.wr.toNat ∨ l > s.dsize.toNat - s.wr.toNat) := by
  have hat := h.matchAt_eq
  have hsize := h.csize_eq (by rw [hp]; rfl)
  cases hops : matchOperands inp s.rd.toNat with
  | none =>
    rw [hops] at hat
    exact iff_of_true (.of_raise (h.matchOperands_none hp hops)) (.inl hat)
  | some q =>
    obtain ⟨d, l, r⟩ := q
    rw [hops] at hat
    simp only [hat, Option.map_some, reduceCtorEq, false_or, Option.some.injEq, Prod.mk.injEq, and_assoc,
      exists_and_left, exists_eq_left']
    have hfits := matchOperands_progress hops
    obtain ⟨i, w, hwf, hform, rfl, hstep⟩ := h.matchOperands_some hp hops
    obtain ⟨hraise, hstart⟩ := matchChecksDecide i w d l s hwf hform (hsize.trans h.inLen.symm)
    rw [← hstep] at hraise hstart
    refine ⟨fun hx => ?_, fun hx => .of_raise (hraise (.inr hx))⟩
    by_contra hok
    obtain ⟨t, ht, -, -, -, hp', -⟩ := hstart (by omega) (by omega) (by omega) (by omega)
    exact not_corrupts_of_phase ht (by simp [hp']) hx

end

/-! ## The thirteen causes, phase by phase (R224) -/

/-- Some cause is one of R224's thirteen. -/
theorem exists_streamCause_iff {p : StreamCause → Prop} : (∃ c, p c) ↔
    p .flagWordCut ∨ p .literalAbsent ∨ p .longCountCut ∨ p .longCountZero ∨ p .countOverOutput ∨
    p .countOverInput ∨ p .matchAbsent ∨ p .matchCut ∨ p .reservedPattern ∨ p .distanceZero ∨ p .distanceBeforeStart ∨
    p .lengthOverOutput ∨ p .inputLeftOver := by
  constructor
  · rintro ⟨c, hc⟩
    cases c <;> simp only [hc, true_or, or_true]
  · rintro (h | h | h | h | h | h | h | h | h | h | h | h | h) <;> exact ⟨_, h⟩

section
variable {inp : List Byte} {s : State}

/-- Every cause belongs to one of the four phases. -/
theorem phase_of_holds {c : StreamCause} (h : c.holds s) :
    s.phase = .flag ∨ s.phase = .litdec ∨ s.phase = .matchdec ∨ s.phase = .final := by
  cases c <;> obtain ⟨hp, -⟩ := h <;> simp [hp]

theorem exists_cause_flag_iff (hp : s.phase = .flag) :
    (∃ c : StreamCause, c.holds s) ↔ s.fcnt = 0#6 ∧ s.rd.toNat + 4 > s.csize.toNat := by
  simp [exists_streamCause_iff, StreamCause.holds, hp]

theorem exists_cause_final_iff (hp : s.phase = .final) :
    (∃ c : StreamCause, c.holds s) ↔ s.rd.toNat ≠ s.csize.toNat := by
  simp [exists_streamCause_iff, StreamCause.holds, hp]

/-- The five causes of `LITDEC` in terms of the count that stands at `RD`. -/
theorem Presents.exists_cause_litdec_iff (h : Presents inp s) (hsize : s.csize.toNat = inp.length)
    (hp : s.phase = .litdec) : (∃ c : StreamCause, c.holds s) ↔
      literalAt s = none ∨ ∃ n w, literalAt s = some (n, w) ∧
        (n = 0 ∨ n > s.dsize.toNat - s.wr.toNat ∨ n > s.csize.toNat - (s.rd.toNat + w)) := by
  simp only [exists_streamCause_iff, StreamCause.holds, hp, reduceCtorEq, false_and, true_and, false_or, or_false,
    and_or_left, exists_or, h.literalAt_eq_none_iff, ← literalAt_zero_iff, hsize, or_assoc]

/-- The six causes of `MATCHDEC` in terms of the operands that stand at `RD`. -/
theorem Presents.exists_cause_matchdec_iff (h : Presents inp s) (hsize : s.csize.toNat = inp.length)
    (hp : s.phase = .matchdec) : (∃ c : StreamCause, c.holds s) ↔
      matchAt s = none ∨ ∃ d l, matchAt s = some (d, l) ∧
        (d = 0 ∨ d > s.wr.toNat ∨ l > s.dsize.toNat - s.wr.toNat) := by
  simp only [exists_streamCause_iff, StreamCause.holds, hp, reduceCtorEq, false_and, true_and, false_or, or_false,
    and_or_left, exists_or, h.matchAt_eq_none_iff, hsize, or_assoc]

end

/-- Settles O44, phase by phase: in each of the four phases both sides say the same of the item at `RD`, and in the
others neither can hold. -/
theorem streamCorruptionExactly : Obligations.StreamCorruptionExactly := by
  rintro s hs ⟨hc, -, hdone⟩
  change Corrupts s ↔ _
  by_cases hl : s.phase = .flag ∨ s.phase = .litdec ∨ s.phase = .matchdec ∨ s.phase = .final
  · have hloop : inLoop s.phase = true := by rcases hl with hp | hp | hp | hp <;> rw [hp] <;> rfl
    obtain ⟨inp, out, h⟩ := exists_represents hs hc hloop
    have hsize := h.csize_eq hloop
    obtain hp | hp | hp | hp := hl
    · rw [h.corrupts_flag_iff hp, exists_cause_flag_iff hp]
    · rw [h.corrupts_litdec_iff hp, h.exists_cause_litdec_iff hsize hp]
    · rw [h.corrupts_matchdec_iff hp, h.exists_cause_matchdec_iff hsize hp]
    · rw [corrupts_final_iff hc hp, exists_cause_final_iff hp]
  · exact iff_of_false (fun h => hl (h.phase hdone)) (fun ⟨_, h⟩ => hl (phase_of_holds h))

end Sys2Proof.Proofs
end

section
/-!
PROOFS of the family `70_reset_and_hazards.md`: the step refuses a host command outside its phase and nothing else
(R273). With them, the words of 95_test_vectors.md that the decoder reads.
-/

namespace Sys2Proof.Proofs

open Sys2Proof.Machine Sys2Proof.Laws

/-! ## The host's commands (R273) -/

/-- When a host command has no meaning (log entry 5). -/
theorem hostCommand_refused_iff {c : Command} {s : State} :
    (∃ r, hostCommand c s = .refused r) ↔ (c = .start ∧ s.phase ≠ .idle) ∨ (c = .ack ∧ s.phase ≠ .done) := by
  cases c with
  | start => by_cases hp : s.phase = .idle <;> simp [hostCommand, hp]
  | ack => by_cases hp : s.phase = .done <;> simp [hostCommand, hp]

/-! ## The moves of a call refuse nothing -/

section
variable (s : State) (r : Refusal)

theorem exec_ne_refused (i : Instr) : exec i s ≠ .refused r := by
  obtain ⟨t, ht⟩ := exec_next i s
  rw [ht]
  exact nofun

theorem putByte_ne_refused (b : Byte) : putByte b s ≠ .refused r := by
  unfold putByte
  split
  · exact nofun
  · split <;> exact nofun

theorem literalCopyStep_ne_refused : literalCopyStep s ≠ .refused r := by
  unfold literalCopyStep
  split
  · exact nofun
  · split
    · exact nofun
    · exact putByte_ne_refused _ r _

theorem matchCopyStep_ne_refused : matchCopyStep s ≠ .refused r := by
  unfold matchCopyStep
  split
  · exact nofun
  · split
    · exact nofun
    · split
      · exact nofun
      · exact nofun
      · exact putByte_ne_refused s r _

variable {s}

/-- Where an item is due, the step raises, runs the item, or faults. -/
theorem step_due_ne_refused {c : Context} (hc : s.cmd = none) (hp : s.phase = duePhase c)
    (hf : c = .flagWord → s.fcnt = 0#6) : step s ≠ .refused r := by
  rw [step_due hc hp hf]
  obtain ⟨-, hx⟩ | ⟨_, -, -, hx⟩ | ⟨_, _, i, -, -, -, -, -, -, hx⟩ | ⟨-, hx⟩ := fetch_cases c s <;> rw [hx]
  case inr.inr.inl => exact exec_ne_refused s r i
  all_goals exact nofun

/-- With no command pending, no phase refuses. -/
theorem step_ne_refused_of_no_command (hc : s.cmd = none) : step s ≠ .refused r := by
  cases hp : s.phase with
  | header => exact step_due_ne_refused (c := .header) r hc hp nofun
  | litdec => exact step_due_ne_refused (c := .literal) r hc hp nofun
  | matchdec => exact step_due_ne_refused (c := .backref) r hc hp nofun
  | flag =>
    by_cases hf : s.fcnt = 0#6
    · exact step_due_ne_refused (c := .flagWord) r hc hp (fun _ => hf)
    · simp [step_of_no_command hc, phaseAction, hp, hf]
  | litcopy => simpa only [step_of_no_command hc, phaseAction, hp] using literalCopyStep_ne_refused s r
  | matchcopy => simpa only [step_of_no_command hc, phaseAction, hp] using matchCopyStep_ne_refused s r
  | idle | sizechk | alloc | loop | final | done => simp [step_of_no_command hc, phaseAction, hp]

end

/-- Settles O38: a pending command is what the step takes, and without one it makes a move of the call. -/
theorem refusesOnlyMisplacedCommands : Obligations.RefusesOnlyMisplacedCommands := by
  intro s
  cases hc : s.cmd with
  | some c => simp only [step_of_command hc, hostCommand_refused_iff, Option.some.injEq]
  | none => simp [step_ne_refused_of_no_command _ hc]

/-! ## The words of the test vectors -/

/-- Settles O3: each word is the encoding of the well-formed item listed for it, and that is what the decoder reads. -/
theorem specWordsDecode : Obligations.SpecWordsDecode := by
  refine ⟨?_, ?_, ?_, ?_, ?_, ?_, ?_, ?_, ?_, ?_⟩
  all_goals exact decode_eq_ok_iff.2 ⟨rfl, rfl, rfl⟩

end Sys2Proof.Proofs
end
